-- ==== Sys2Proof/Word.lean ====
section
/-! DEFINITION. The byte and word types of the link controller (spec 00_scope.md R13, R14). -/

namespace Sys2Proof

/-- A byte; bit `i` has weight `2^i` (R13). -/
abbrev Byte := BitVec 8

/-- A 32-bit value of the checksum field (R10: `CHK_BITS = 32`). -/
abbrev Word32 := BitVec 32

/-- The 2-bit packet kind (R10, R94). -/
abbrev Kind := BitVec 2

/-- The 6-bit sequence field as it stands on the wire, 0..63 (R95). -/
abbrev WireSeq := BitVec 6

/-- A packet image, offset 0 first (R14); `PKT_SIZE` bytes where it is well formed. -/
abbrev Image := List Byte

/-- A chunk: 1..MaxPayload bytes of a message (R18). -/
abbrev Chunk := List Byte

/-- A message of the upper layer: any finite byte sequence (R92, R166). -/
abbrev Message := List Byte

/-- `zeros(n)` of R14. -/
def zeros (n : Nat) : List Byte := List.replicate n 0

end Sys2Proof
end

