-- ==== Sys2Proof/Config.lean ====
section
/-! DEFINITION. The constants the spec fixes (00_scope.md R10), the parameters it leaves open (R11) and the one
uninterpreted function: a checksum other than the default (40_codec.md R122). -/

namespace Sys2Proof

/-- `ModN = 61`, the modulus of sequence arithmetic and the number of ring slots (R10). -/
abbrev modN : Nat := 61

/-- `window_size = 5`, hardwired (R10, R32). -/
abbrev windowSize : Nat := 5

/-- `HDR_SIZE = 6` bytes (R10). -/
abbrev hdrSize : Nat := 6

/-- Which checksum function the hardware is built with: the default of R123, or another one. -/
inductive ChkChoice where
  | wordSum16
  | other (index : Nat)
  deriving DecidableEq, Repr

/-- The parameters of R11. They are arguments of the model: a state holds them and no step writes them, so that a
statement about every state is a statement about every value (DESIGN CHOICE, notes/assumptions/2.md). -/
structure Config where
  /-- `PKT_SIZE`, bytes of a packet image. -/
  pktSize : Nat
  /-- `BUF_SIZE`, entries of the overflow FIFO. -/
  bufSize : Nat
  /-- `TIMEOUT`, opaque: carried, never examined (R33, R236). -/
  timeout : Nat
  /-- `LEN_SIGNED`, how the receiver's clamp reads byte 0 (R93, R127). -/
  lenSigned : Bool
  /-- `CHK`. -/
  chkChoice : ChkChoice
  /-- `MSG_MAX`; `none` is unbounded (R166). -/
  msgMax : Option Nat
  deriving DecidableEq, Repr

/-- `MaxPayload = PKT_SIZE - 6` (R11). -/
def Config.maxPayload (c : Config) : Nat := c.pktSize - hdrSize

/-- The constraints of R11 and R12: `7 ≤ PKT_SIZE ≤ 261`, and `MaxPayload ≤ 127` where the length byte is signed. -/
def Config.legal (c : Config) : Bool :=
  decide (7 ≤ c.pktSize) && decide (c.pktSize ≤ 261) && (!c.lenSigned || decide (c.maxPayload ≤ 127))

/-- `len(m) ≤ MSG_MAX` (R92). -/
def Config.messageFits (c : Config) (m : Message) : Bool :=
  match c.msgMax with
  | none => true
  | some k => decide (m.length ≤ k)

/-- A checksum function other than the default: uninterpreted, a function of the covered bytes alone (P1) with a
32-bit value (P3). Property P2 of R122 is a premise of the statements that need it (notes/assumptions/3.md). -/
opaque Config.freeChk : Nat → List Byte → Word32

/-- The reference instantiation: `PKT_SIZE = 64` (R11, spec/92_eei_decisions.md D4, D27), the defaults of R11, and a
`BUF_SIZE` and a `TIMEOUT` the spec leaves open (DESIGN CHOICE, notes/assumptions/2.md). -/
def Config.reference : Config :=
  { pktSize := 64, bufSize := 8, timeout := 0, lenSigned := false, chkChoice := .wordSum16, msgMax := none }

/-- The small instantiation of the spec's vectors: `PKT_SIZE = 10`, so `MaxPayload = 4` (D27), with room for two chunks
in the FIFO (spec/95_test_vectors.md P2). -/
def Config.small : Config :=
  { pktSize := 10, bufSize := 2, timeout := 0, lenSigned := false, chkChoice := .wordSum16, msgMax := none }

end Sys2Proof
end

