-- ==== Sys2Proof/Machine/Operands.lean ====
section
/-! DEFINITION. The operand forms: the fields of a packet image, the image built of its fields, and the codec
functions both units share (spec 30_encoding.md R91 to R98, 40_codec.md R121 to R130). -/

namespace Sys2Proof.Machine

/-- `DATA = 0` (R94). -/
def kindData : Kind := 0

/-- `ACK = 1` (R94). -/
def kindAck : Kind := 1

/-- `LEN(p) = p[0]` (R93). -/
def lenField (p : Image) : Byte := p.getD 0 0

/-- `KIND(p) = p[1][7:6]` (R94). -/
def kindField (p : Image) : Kind := (p.getD 1 0).extractLsb' 6 2

/-- `SEQ(p) = p[1][5:0]` (R95). -/
def seqField (p : Image) : WireSeq := (p.getD 1 0).extractLsb' 0 6

/-- `CHKF(p)`, the stored checksum, least significant byte at offset 2 (R62, R96). -/
def chkField (p : Image) : Word32 := p.getD 5 0 ++ p.getD 4 0 ++ p.getD 3 0 ++ p.getD 2 0

/-- `PAY(p) = p[6..PKT_SIZE)` (R97). -/
def payField (p : Image) : List Byte := p.drop hdrSize

/-- `COV(p) = [p[0], p[1]] ++ p[6..PKT_SIZE)`, the covered byte stream (R97, R121). -/
def covered (p : Image) : List Byte := p.take 2 ++ p.drop hdrSize

/-- The four bytes of a 32-bit value, least significant first (R62). -/
def bytesLe32 (v : Word32) : List Byte :=
  [v.extractLsb' 0 8, v.extractLsb' 8 8, v.extractLsb' 16 8, v.extractLsb' 24 8]

/-- `PACK(l, k, s, c, q)` (R98). -/
def packImage (l : Byte) (k : Kind) (s : WireSeq) (v : Word32) (q : List Byte) : Image :=
  l :: (k ++ s) :: (bytesLe32 v ++ q)

/-- The default checksum: little-endian 16-bit words added modulo 2^32; a last odd byte counts as the low byte of a
word (R123, R130). -/
def wordSum16 : List Byte → Word32
  | [] => 0
  | [lo] => lo.zeroExtend 32
  | lo :: hi :: rest => (hi ++ lo).zeroExtend 32 + wordSum16 rest

/-- `CHK`, a function of the covered bytes (R122, R123). -/
def chk (c : Config) (stream : List Byte) : Word32 :=
  match c.chkChoice with
  | .wordSum16 => wordSum16 stream
  | .other k => Config.freeChk k stream

/-- `ENCODE_CHECKSUM(p) -> (p', v)`: bytes 2 to 5 rewritten, all others kept (R124). -/
def encodeChecksum (c : Config) (p : Image) : Image × Word32 :=
  let v := chk c (covered p)
  (p.take 2 ++ bytesLe32 v ++ p.drop hdrSize, v)

/-- `VERIFY_CHECKSUM(p)` (R125). -/
def verifyChecksum (c : Config) (p : Image) : Bool := decide (chk c (covered p) = chkField p)

/-- The integer the clamp reads byte 0 as (R127). -/
def apparentLen (c : Config) (p : Image) : Int :=
  if c.lenSigned then (lenField p).toInt else (lenField p).toNat

/-- `CLAMP_LEN(p) = min(max(L, 0), MaxPayload)` (R127). -/
def clampLen (c : Config) (p : Image) : Nat := (min (max (apparentLen c p) 0) (c.maxPayload : Int)).toNat

/-- `MKDATA(s, c)`: kind DATA, the chunk, zero padding, checksum stored (R128). -/
def mkData (c : Config) (s : Nat) (q : Chunk) : Image :=
  (encodeChecksum c (packImage (BitVec.ofNat 8 q.length) kindData (BitVec.ofNat 6 s) 0
    (q ++ zeros (c.maxPayload - q.length)))).1

/-- `MKACK(s)`: kind ACK, length 0, zero payload, checksum stored (R129). -/
def mkAck (c : Config) (s : Nat) : Image :=
  (encodeChecksum c (packImage 0 kindAck (BitVec.ofNat 6 s) 0 (zeros c.maxPayload))).1

/-- The chunk an image carries: the first `LEN` bytes of its payload region (R91). -/
def chunkOf (p : Image) : Chunk := (payField p).take (lenField p).toNat

/-- Property P2 of R122 for covered streams of `n` bytes: two streams that differ in exactly one bit have different
checksums. -/
def SingleBitSensitive (n : Nat) (f : List Byte → Word32) : Prop :=
  ∀ (stream : List Byte) (i : Nat) (b : Byte) (k : Nat), stream.length = n → stream[i]? = some b → k < 8 →
    f (stream.set i (b ^^^ BitVec.twoPow 8 k)) ≠ f stream

end Sys2Proof.Machine
end

