-- ==== Sys2Proof/Syntax.lean ====
section
/-! DEFINITION. The instructions: one constructor for each row of spec/opcode_table.json. An event carries the whole
operand of its transaction (spec 30_encoding.md R92), an internal operation the operands of its rule (R90). -/

namespace Sys2Proof

/-- Which reset input is driven: one unit's `rst` (R260), or the joint reset of the system (R262). -/
inductive ResetTarget where
  | txu
  | rxu
  | system
  deriving DecidableEq, Repr

/-- The 33 operations of the hardware. -/
inductive Instr where
  /-- TX.MSG m (R172). -/
  | txMsg (m : Message)
  /-- TX.PKT of a safe image of kind ACK (R190, R192). -/
  | txPktAck (p : Image)
  /-- TX.PKT of a safe image of kind DATA (R191). -/
  | txPktData (p : Image)
  /-- TX.PKT of a safe image of kind 2 (R191). -/
  | txPktK2 (p : Image)
  /-- TX.PKT of a safe image of kind 3 (R191). -/
  | txPktK3 (p : Image)
  /-- TX.PKT of an unsafe image (R191). -/
  | txPktUnsafe (p : Image)
  /-- TX.TMO (R201). -/
  | txTmo
  /-- Reserved event code 3 at the TXU (R205). -/
  | txRsvd
  /-- RX.PKT of a safe image of kind DATA (R144, R146). -/
  | rxPktData (p : Image)
  /-- RX.PKT of a safe image of kind ACK (R146). -/
  | rxPktAck (p : Image)
  /-- RX.PKT of a safe image of kind 2 (R146). -/
  | rxPktK2 (p : Image)
  /-- RX.PKT of a safe image of kind 3 (R146). -/
  | rxPktK3 (p : Image)
  /-- RX.PKT of an unsafe image (R142). -/
  | rxPktUnsafe (p : Image)
  /-- Event code 0 at the RXU, reserved; its operand is not read (R149). -/
  | rxMsg (m : Message)
  /-- Event code 2 at the RXU, reserved (R149). -/
  | rxTmo
  /-- Event code 3 at the RXU, reserved (R149). -/
  | rxRsvd
  /-- PACK(l, k, s, c, q) (R98). -/
  | pack (l : Byte) (k : Kind) (s : WireSeq) (v : Word32) (q : List Byte)
  /-- MKDATA(s, c) (R128). -/
  | mkData (s : Nat) (q : Chunk)
  /-- MKACK(s) (R129). -/
  | mkAck (s : Nat)
  /-- TSTART on the timer port, with the value of `timeout_interval` (R99, R235). -/
  | tstart
  /-- TSTOP on the timer port (R99, R235). -/
  | tstop
  /-- CHK of a covered stream (R122, R123). -/
  | chk (stream : List Byte)
  /-- ENCODE_CHECKSUM(p) (R124). -/
  | encodeChecksum (p : Image)
  /-- VERIFY_CHECKSUM(p) (R125). -/
  | verifyChecksum (p : Image)
  /-- CLAMP_LEN(p) (R127). -/
  | clampLen (p : Image)
  /-- SEQ_INC(x) (R160). -/
  | seqInc (x : Nat)
  /-- SEQ_DEC(x) (R160). -/
  | seqDec (x : Nat)
  /-- BETWEEN(lo, x, hi) (R161). -/
  | between (lo x hi : Nat)
  /-- FRAGMENT(m) (R165). -/
  | fragment (m : Message)
  /-- ADMIT(c) (R168). -/
  | admitChunk (q : Chunk)
  /-- DRAIN (R170). -/
  | drain
  /-- ENQUEUE(c) (R171). -/
  | enqueue (q : Chunk)
  /-- RESET, the input `rst` (R260 to R262). -/
  | reset (u : ResetTarget)
  deriving DecidableEq, Repr

end Sys2Proof
end

