-- ==== Sys2Proof/WellFormed.lean ====
section
/-! DEFINITION. Which operands an instruction may carry under a configuration: the sizes a port can present (spec
20_memory.md R65, 42_sender_admission.md R166), the condition of a packet row (opcode_table.json "cond"), and the
operand domains of the internal operations. -/

namespace Sys2Proof

/-- A packet image has exactly `PKT_SIZE` bytes (R14, R65). -/
def Config.imageFits (c : Config) (p : Image) : Bool := decide (p.length = c.pktSize)

/-- A chunk has 1 to `MaxPayload` bytes (R30, R128, R168). -/
def Config.chunkFits (c : Config) (q : Chunk) : Bool := decide (1 ≤ q.length) && decide (q.length ≤ c.maxPayload)

/-- A sequence register's value, 0..60 (R21). -/
def seqFits (x : Nat) : Bool := decide (x < modN)

/-- A safe image of the kind a packet row names. -/
def Config.safeOfKind (c : Config) (k : Kind) (p : Image) : Bool :=
  c.imageFits p && Machine.verifyChecksum c p && decide (Machine.kindField p = k)

/-- The operand domain of each instruction. -/
def Instr.wellFormed (c : Config) : Instr → Bool
  | .txMsg m => c.messageFits m
  | .txPktAck p => c.safeOfKind 1 p
  | .txPktData p => c.safeOfKind 0 p
  | .txPktK2 p => c.safeOfKind 2 p
  | .txPktK3 p => c.safeOfKind 3 p
  | .txPktUnsafe p => c.imageFits p && !Machine.verifyChecksum c p
  | .txTmo => true
  | .txRsvd => true
  | .rxPktData p => c.safeOfKind 0 p
  | .rxPktAck p => c.safeOfKind 1 p
  | .rxPktK2 p => c.safeOfKind 2 p
  | .rxPktK3 p => c.safeOfKind 3 p
  | .rxPktUnsafe p => c.imageFits p && !Machine.verifyChecksum c p
  | .rxMsg m => c.messageFits m
  | .rxTmo => true
  | .rxRsvd => true
  | .pack _ _ _ _ q => decide (q.length = c.maxPayload)
  | .mkData s q => seqFits s && c.chunkFits q
  | .mkAck s => seqFits s
  | .tstart => true
  | .tstop => true
  | .chk stream => decide (stream.length = c.pktSize - 4)
  | .encodeChecksum p => c.imageFits p
  | .verifyChecksum p => c.imageFits p
  | .clampLen p => c.imageFits p
  | .seqInc x => seqFits x
  | .seqDec x => seqFits x
  | .between lo x hi => seqFits lo && decide (x < 64) && seqFits hi
  | .fragment m => c.messageFits m
  | .admitChunk q => c.chunkFits q
  | .drain => true
  | .enqueue q => c.chunkFits q
  | .reset _ => true

end Sys2Proof
end

