-- ==== Sys2Proof/Decode.lean ====
section
/-! DEFINITION. Decoding of a transaction: the command ports of the two units (spec 30_encoding.md R92, R100, R101), the
wire format (R91) and the timer port (R99); the encoder; and the decode words of opcode_table.json (R102).

A transaction is a port and the bytes it carries. On a command port the first byte holds the 2-bit event code and the
rest is the operand (DESIGN CHOICE, notes/assumptions/10.md); on the link port the bytes are the image; on the timer
port one byte holds the command bit. -/

namespace Sys2Proof

/-- The ports that carry an encoding. The unit is a port, not a bit (R102). -/
inductive Port where
  /-- The TXU's command port. -/
  | txu
  /-- The RXU's command port. -/
  | rxu
  /-- The link port, carrying packet images in format WIRE. -/
  | link
  /-- The timer port, one bit. -/
  | timer
  deriving DecidableEq, Repr

/-- Why no transaction of that form exists. -/
inductive DecodeError where
  /-- No byte at all. -/
  | emptyTransaction
  /-- The event code is not a 2-bit number (R92), or the timer command not one bit (R99). -/
  | codeTooWide
  /-- The image has not exactly `PKT_SIZE` bytes (R65). -/
  | imageSize
  /-- The message is longer than `MSG_MAX` (R166). -/
  | messageTooLong
  /-- Operand bytes where the code has no operand (R92). -/
  | unexpectedOperand
  deriving DecidableEq, Repr

namespace Decode

/-- A message operand: refused by the port where it is too long (R166). -/
def messageOperand (c : Config) (mk : Message → Instr) (m : Message) : Except DecodeError Instr :=
  if c.messageFits m then .ok (mk m) else .error .messageTooLong

/-- No operand (R92). -/
def noOperand (i : Instr) : List Byte → Except DecodeError Instr
  | [] => .ok i
  | _ :: _ => .error .unexpectedOperand

/-- Sub-decode of a TXU packet: the checksum first, then the kind (R100). -/
def txPacket (c : Config) (p : Image) : Instr :=
  if Machine.verifyChecksum c p then
    if Machine.kindField p = 0 then .txPktData p
    else if Machine.kindField p = 1 then .txPktAck p
    else if Machine.kindField p = 2 then .txPktK2 p
    else .txPktK3 p
  else .txPktUnsafe p

/-- Sub-decode of an RXU packet: the checksum first, then the kind (R101). -/
def rxPacket (c : Config) (p : Image) : Instr :=
  if Machine.verifyChecksum c p then
    if Machine.kindField p = 0 then .rxPktData p
    else if Machine.kindField p = 1 then .rxPktAck p
    else if Machine.kindField p = 2 then .rxPktK2 p
    else .rxPktK3 p
  else .rxPktUnsafe p

/-- A packet operand has exactly `PKT_SIZE` bytes (R65). -/
def packetOperand (c : Config) (sub : Image → Instr) (p : Image) : Except DecodeError Instr :=
  if c.imageFits p then .ok (sub p) else .error .imageSize

/-- The TXU's command port (R92, R100). -/
def txCommand (c : Config) (code : Byte) (operand : List Byte) : Except DecodeError Instr :=
  if code = 0 then messageOperand c .txMsg operand
  else if code = 1 then packetOperand c (txPacket c) operand
  else if code = 2 then noOperand .txTmo operand
  else if code = 3 then noOperand .txRsvd operand
  else .error .codeTooWide

/-- The RXU's command port (R92, R101). -/
def rxCommand (c : Config) (code : Byte) (operand : List Byte) : Except DecodeError Instr :=
  if code = 0 then messageOperand c .rxMsg operand
  else if code = 1 then packetOperand c (rxPacket c) operand
  else if code = 2 then noOperand .rxTmo operand
  else if code = 3 then noOperand .rxRsvd operand
  else .error .codeTooWide

/-- The operation that builds an image: MKACK or MKDATA where the image is one of theirs, else PACK of its own fields
(R98; DESIGN CHOICE of the order, notes/assumptions/11.md). -/
def wireImage (c : Config) (p : Image) : Instr :=
  let s := (Machine.seqField p).toNat
  let q := Machine.chunkOf p
  if seqFits s && decide (p = Machine.mkAck c s) then .mkAck s
  else if seqFits s && c.chunkFits q && decide (p = Machine.mkData c s q) then .mkData s q
  else .pack (Machine.lenField p) (Machine.kindField p) (Machine.seqField p) (Machine.chkField p) (Machine.payField p)

/-- The timer port: 1 is TSTART, 0 is TSTOP (R99). -/
def timerCommand (code : Byte) : Except DecodeError Instr :=
  if code = 1 then .ok .tstart
  else if code = 0 then .ok .tstop
  else .error .codeTooWide

end Decode

/-- Decoding of a transaction, total on every port and all bytes. -/
def decode (c : Config) (port : Port) (bytes : List Byte) : Except DecodeError Instr :=
  match port, bytes with
  | .txu, code :: operand => Decode.txCommand c code operand
  | .rxu, code :: operand => Decode.rxCommand c code operand
  | .timer, [code] => Decode.timerCommand code
  | .timer, _ :: _ => .error .unexpectedOperand
  | .link, p => if c.imageFits p then .ok (Decode.wireImage c p) else .error .imageSize
  | _, [] => .error .emptyTransaction

/-- The transaction that presents an instruction; `none` for an operation with no encoding on any port (R90,
opcode_table.json format INTERNAL). -/
def encode (c : Config) : Instr → Option (Port × List Byte)
  | .txMsg m => some (.txu, 0 :: m)
  | .txPktAck p => some (.txu, 1 :: p)
  | .txPktData p => some (.txu, 1 :: p)
  | .txPktK2 p => some (.txu, 1 :: p)
  | .txPktK3 p => some (.txu, 1 :: p)
  | .txPktUnsafe p => some (.txu, 1 :: p)
  | .txTmo => some (.txu, [2])
  | .txRsvd => some (.txu, [3])
  | .rxPktData p => some (.rxu, 1 :: p)
  | .rxPktAck p => some (.rxu, 1 :: p)
  | .rxPktK2 p => some (.rxu, 1 :: p)
  | .rxPktK3 p => some (.rxu, 1 :: p)
  | .rxPktUnsafe p => some (.rxu, 1 :: p)
  | .rxMsg m => some (.rxu, 0 :: m)
  | .rxTmo => some (.rxu, [2])
  | .rxRsvd => some (.rxu, [3])
  | .pack l k s v q => some (.link, Machine.packImage l k s v q)
  | .mkData s q => some (.link, Machine.mkData c s q)
  | .mkAck s => some (.link, Machine.mkAck c s)
  | .tstart => some (.timer, [1])
  | .tstop => some (.timer, [0])
  | .chk _ => none
  | .encodeChecksum _ => none
  | .verifyChecksum _ => none
  | .clampLen _ => none
  | .seqInc _ => none
  | .seqDec _ => none
  | .between _ _ _ => none
  | .fragment _ => none
  | .admitChunk _ => none
  | .drain => none
  | .enqueue _ => none
  | .reset _ => none

namespace Decode

/-- The decode word `DW = op[1:0] ∥ p[1]` of a command-port transaction, `op[1:0] ∥ 0` where it carries no packet
(R102). -/
def decodeWord : List Byte → BitVec 10
  | [] => 0
  | code :: operand =>
    let op : BitVec 2 := code.extractLsb' 0 2
    if op = 1 then op ++ operand.getD 1 0 else op ++ (0 : Byte)

/-- A row of opcode_table.json in format CMD. -/
structure Row where
  mnemonic : String
  port : Port
  mtch : BitVec 10
  mask : BitVec 10
  /-- The row's condition on the checksum; `none` where it has none. -/
  safe : Option Bool
  deriving DecidableEq, Repr

/-- The rows of the TXU's command port. -/
def txRows : List Row :=
  [ ⟨"TX.MSG", .txu, 0x000, 0x300, none⟩,
    ⟨"TX.PKT.ACK", .txu, 0x140, 0x3C0, some true⟩,
    ⟨"TX.PKT.DATA", .txu, 0x100, 0x3C0, some true⟩,
    ⟨"TX.PKT.K2", .txu, 0x180, 0x3C0, some true⟩,
    ⟨"TX.PKT.K3", .txu, 0x1C0, 0x3C0, some true⟩,
    ⟨"TX.PKT.UNSAFE", .txu, 0x100, 0x300, some false⟩,
    ⟨"TX.TMO", .txu, 0x200, 0x300, none⟩,
    ⟨"TX.RSVD", .txu, 0x300, 0x300, none⟩ ]

/-- The rows of the RXU's command port. -/
def rxRows : List Row :=
  [ ⟨"RX.PKT.DATA", .rxu, 0x100, 0x3C0, some true⟩,
    ⟨"RX.PKT.ACK", .rxu, 0x140, 0x3C0, some true⟩,
    ⟨"RX.PKT.K2", .rxu, 0x180, 0x3C0, some true⟩,
    ⟨"RX.PKT.K3", .rxu, 0x1C0, 0x3C0, some true⟩,
    ⟨"RX.PKT.UNSAFE", .rxu, 0x100, 0x300, some false⟩,
    ⟨"RX.MSG", .rxu, 0x000, 0x300, none⟩,
    ⟨"RX.TMO", .rxu, 0x200, 0x300, none⟩,
    ⟨"RX.RSVD", .rxu, 0x300, 0x300, none⟩ ]

/-- All rows of format CMD. -/
def rows : List Row := txRows ++ rxRows

/-- The row takes the transaction: the port, the decode word under the mask, and the condition on the checksum. -/
def Row.takes (c : Config) (r : Row) (port : Port) (bytes : List Byte) : Bool :=
  decide (r.port = port) && decide (decodeWord bytes &&& r.mask = r.mtch) &&
    match r.safe with
    | none => true
    | some b => decide (Machine.verifyChecksum c bytes.tail = b)

/-- The row an event instruction stands for; `none` for an instruction of another format. -/
def rowName : Instr → Option String
  | .txMsg _ => some "TX.MSG"
  | .txPktAck _ => some "TX.PKT.ACK"
  | .txPktData _ => some "TX.PKT.DATA"
  | .txPktK2 _ => some "TX.PKT.K2"
  | .txPktK3 _ => some "TX.PKT.K3"
  | .txPktUnsafe _ => some "TX.PKT.UNSAFE"
  | .txTmo => some "TX.TMO"
  | .txRsvd => some "TX.RSVD"
  | .rxPktData _ => some "RX.PKT.DATA"
  | .rxPktAck _ => some "RX.PKT.ACK"
  | .rxPktK2 _ => some "RX.PKT.K2"
  | .rxPktK3 _ => some "RX.PKT.K3"
  | .rxPktUnsafe _ => some "RX.PKT.UNSAFE"
  | .rxMsg _ => some "RX.MSG"
  | .rxTmo => some "RX.TMO"
  | .rxRsvd => some "RX.RSVD"
  | .pack _ _ _ _ _ => none
  | .mkData _ _ => none
  | .mkAck _ => none
  | .tstart => none
  | .tstop => none
  | .chk _ => none
  | .encodeChecksum _ => none
  | .verifyChecksum _ => none
  | .clampLen _ => none
  | .seqInc _ => none
  | .seqDec _ => none
  | .between _ _ _ => none
  | .fragment _ => none
  | .admitChunk _ => none
  | .drain => none
  | .enqueue _ => none
  | .reset _ => none

/-- The image of a table word: its second byte as given, all bits the table does not name zero, and the checksum the
packet rows' condition asks for (notes/assumptions/12.md). -/
def tableImage (c : Config) (len second : Byte) : Image :=
  (Machine.encodeChecksum c (len :: second :: zeros (c.pktSize - 2))).1

/-- The transaction a table word stands for: up to 8 bits a word of the timer port; up to 10 significant bits a decode
word at the TXU's command port; else the first two bytes `p[0] ∥ p[1]` of a wire image, and so for the words of an ACK
image, which no transaction of the command port has (R102; notes/assumptions/12.md). -/
def tableTransaction (c : Config) (nbits w : Nat) : Port × List Byte :=
  if nbits ≤ 8 then (.timer, [BitVec.ofNat 8 w])
  else if w < 0x40 ∨ 0x80 ≤ w ∧ w < 1024 then
    (.txu, if w / 256 = 1 then 1 :: tableImage c 0 (BitVec.ofNat 8 w) else [BitVec.ofNat 8 (w / 256)])
  else (.link, tableImage c (BitVec.ofNat 8 (w / 256)) (BitVec.ofNat 8 w))

end Decode

/-- The instruction the decoder reads from a word of opcode_table.json, under the reference instantiation. -/
def decodeTableWord (nbits w : Nat) : Option Instr :=
  let t := Decode.tableTransaction Config.reference nbits w
  match decode Config.reference t.1 t.2 with
  | .ok i => some i
  | .error _ => none

end Sys2Proof
end

