-- ==== Sys2Proof/Machine/State.lean ====
section
/-! DEFINITION. The state of the machine, all of it plain data (spec 10_state.md R21, R40, R43), the reasons a step can
stop, and the state after reset. -/

namespace Sys2Proof.Machine

/-- The control state of a unit (R36): it takes an event only when it is IDLE (R229, R270). -/
inductive Control where
  | idle
  | busy
  deriving DecidableEq, Repr

/-- The two units that hold state (R20). -/
inductive Side where
  | txu
  | rxu
  deriving DecidableEq, Repr

/-- The status of a `DONE` action (R221). Code 3 is never produced. -/
inductive Status where
  | ok
  | overflow
  | badOp
  deriving DecidableEq, Repr

/-- The actions a handler emits (R16). -/
inductive Action where
  /-- An image handed to the link. -/
  | send (p : Image)
  /-- Bytes handed to the upper layer at the receiver. -/
  | deliver (q : List Byte)
  /-- `start_timer(duration)`. -/
  | tstart (duration : Nat)
  /-- `stop_timer()`. -/
  | tstop
  /-- The end of the handler: status and bytes accepted. -/
  | done (status : Status) (n : Nat)
  deriving DecidableEq, Repr

/-- The value an internal operation hands to its caller (the model's own: notes/assumptions/7.md). -/
inductive Value where
  | none
  | image (p : Image)
  /-- The pair `(p', v)` of ENCODE_CHECKSUM. -/
  | imageAndSum (p : Image) (v : Word32)
  | word (v : Word32)
  | bool (b : Bool)
  | nat (n : Nat)
  | chunks (qs : List Chunk)
  deriving DecidableEq, Repr

/-- The window ring: the written slots with their images, slots strictly rising (R29, R69; notes/assumptions/5.md). -/
abbrev Ring := List (Nat × Image)

/-- The state of the sender (R25; S1 to S6 and S8 of R21). `window_size` (S7) is the constant `Sys2Proof.windowSize`. -/
structure Txu where
  ackExpected : Nat
  nextToSend : Nat
  outstandingCount : Nat
  bufferedCount : Nat
  win : Ring
  /-- The overflow FIFO, the head (oldest entry) first (R30, R70). -/
  fifo : List Chunk
  timeoutInterval : Nat
  control : Control
  deriving DecidableEq, Repr

/-- The state of the receiver (R22, R23; S0 of R21). -/
structure Rxu where
  expectedSeq : Nat
  control : Control
  deriving DecidableEq, Repr

/-- What the environment does next (R228, R232, R236, R238, R260; notes/assumptions/13.md). -/
inductive Input where
  /-- A transaction is presented at a port. -/
  | word (port : Port) (bytes : List Byte)
  /-- The input `rst` is driven (R260, R262). -/
  | rst (u : ResetTarget)
  /-- The timer fires (R236). -/
  | fire
  /-- The link delivers its `k`-th image to a unit's PKT port (R232). -/
  | deliver (dest : Side) (k : Nat)
  /-- The link loses its `k`-th image. -/
  | drop (dest : Side) (k : Nat)
  /-- The link makes a copy of its `k`-th image. -/
  | duplicate (dest : Side) (k : Nat)
  /-- The link changes its `k`-th image into another of the same size. -/
  | corrupt (dest : Side) (k : Nat) (p : Image)
  /-- The application hands a message to the producer (R238). -/
  | submit (m : Message)
  /-- The producer presents its oldest message; `again` says whether it keeps the part an OVERFLOW leaves (R238). -/
  | present (again : Bool)
  deriving DecidableEq, Repr

/-- The state of the machine: one sender, the receiver at the far end, the sender's timer, the link between them and
the upper layers (R40, R262). -/
structure State where
  /-- The build parameters of R11; never written. -/
  cfg : Config
  txu : Txu
  rxu : Rxu
  /-- S9. -/
  timerRunning : Bool
  /-- Images the TXU sent and the link still holds, oldest first (R40 (b), R233). -/
  linkToRxu : List Image
  /-- Images the RXU sent and the link still holds, oldest first. -/
  linkToTxu : List Image
  /-- The producer's messages not yet presented, oldest first (R40 (c)). -/
  pending : List Message
  /-- What the consumer has received, oldest first (R148, R239). -/
  delivered : List (List Byte)
  /-- The action trace of the last instruction (R16; the model's own field). -/
  trace : List Action
  /-- The value of the last internal operation (the model's own field). -/
  result : Value
  /-- What the environment does next (the model's own field). -/
  inputs : List Input
  deriving DecidableEq, Repr

/-- Where the model stops because a rule's precondition does not hold. None can be reached from reset. All are safe:
the machine stops where the spec gives no effect. -/
inductive Fault where
  /-- TX.TMO reads a ring slot nothing has written since reset (R43). Safe. -/
  | unwrittenSlot (slot : Nat)
  /-- ADMIT while `outstanding_count < 5` does not hold (R168, precondition). Safe. -/
  | admitWindowFull
  /-- ENQUEUE while `buffered_count < BUF_SIZE` does not hold (R171, precondition). Safe. -/
  | enqueueFifoFull
  deriving DecidableEq, Repr

/-- Where there is no step. All are safe: the model has no behaviour where the spec has none. -/
inductive Refusal where
  /-- An instruction without a meaning yet; raised by exec alone. Safe. -/
  | notModelled (mnemonic : String)
  /-- The operands are outside the domain of the instruction's rule; raised by every meaning (R65, R128, R166). Safe. -/
  | illFormed
  /-- An event or a reset for a unit that is not IDLE (R260, R270). Safe. -/
  | unitBusy (u : Side)
  /-- No port can carry the transaction; raised by a presented word (R65, R92, R166). Safe. -/
  | portRefuses (why : DecodeError)
  /-- The environment's move is not enabled: no such image, a stopped timer, nothing to present (R232, R236). Safe. -/
  | moveNotEnabled
  deriving DecidableEq, Repr

/-- The TXU after reset (R43). -/
def Txu.reset (c : Config) : Txu :=
  { ackExpected := 0, nextToSend := 0, outstandingCount := 0, bufferedCount := 0, win := [], fifo := [],
    timeoutInterval := c.timeout, control := .idle }

/-- The RXU after reset (R43). -/
def Rxu.reset : Rxu := { expectedSeq := 0, control := .idle }

/-- The launch state of R262 for a hardware built with the parameters `c`. -/
def State.resetWith (c : Config) : State :=
  { cfg := c, txu := Txu.reset c, rxu := Rxu.reset, timerRunning := false, linkToRxu := [], linkToTxu := [],
    pending := [], delivered := [], trace := [], result := .none, inputs := [] }

/-- The launch state under the reference instantiation (notes/assumptions/2.md). -/
def State.reset : State := State.resetWith Config.reference

end Sys2Proof.Machine
end

