-- ==== Sys2Proof/Machine/Flags.lean ====
section
/-! DEFINITION. The conditions the rules test, functions of the state: there are no stored flags (spec 10_state.md R37);
and the code of a status (60_exceptions.md R221). -/

namespace Sys2Proof.Machine

/-- `win_room`: `outstanding_count < 5`. -/
def Txu.winRoom (t : Txu) : Bool := decide (t.outstandingCount < windowSize)

/-- `win_empty`: `outstanding_count = 0`. -/
def Txu.winEmpty (t : Txu) : Bool := decide (t.outstandingCount = 0)

/-- `fifo_nonempty`: `buffered_count > 0`. -/
def Txu.fifoNonempty (t : Txu) : Bool := decide (0 < t.bufferedCount)

/-- `fifo_room`: `buffered_count < BUF_SIZE`. -/
def Txu.fifoRoom (c : Config) (t : Txu) : Bool := decide (t.bufferedCount < c.bufSize)

/-- The `status[1:0]` field of `DONE` (R221). -/
def Status.code : Status → BitVec 2
  | .ok => 0
  | .overflow => 1
  | .badOp => 2

end Sys2Proof.Machine
end

