-- ==== Sys2Proof/Machine/Ops.lean ====
section
/-! DEFINITION. The operations the meanings are built from: sequence arithmetic (spec 42_sender_admission.md R160, R161),
fragmentation (R165), the ring and the FIFO (20_memory.md R69, R70), the effects of actions on the collaborators
(60_exceptions.md R232 to R239), the two ways a handler raises an error (00_scope.md R16), and the frames in which a
meaning runs. -/

namespace Sys2Proof.Machine

/-! ### Sequence arithmetic -/

/-- `SEQ_INC(x) = (x + 1) mod 61` (R160). -/
def seqInc (x : Nat) : Nat := (x + 1) % modN

/-- `SEQ_DEC(x) = (x + 60) mod 61` (R160). -/
def seqDec (x : Nat) : Nat := (x + 60) % modN

/-- `(x - lo) mod 61` for `lo` in 0..60 (R13: the least non-negative residue). -/
def seqDist (lo x : Nat) : Nat := (x + (modN - lo)) % modN

/-- `BETWEEN(lo, x, hi)`, the half-open circular interval `[lo, hi)`; 61 to 63 are in none (R161). -/
def between (lo x hi : Nat) : Bool := decide (x < modN) && decide (seqDist lo x < seqDist lo hi)

/-- The window's `i`-th sequence number, `(ack_expected + i) mod 61` (R201). -/
def windowSeq (ackExpected i : Nat) : Nat := (ackExpected + i) % modN

/-! ### Fragmentation -/

/-- At most `k` chunks of `n` bytes, the last one shorter. -/
def fragmentSteps (n : Nat) : Nat → Message → List Chunk
  | 0, _ => []
  | _ + 1, [] => []
  | k + 1, b :: m => (b :: m).take n :: fragmentSteps n k ((b :: m).drop n)

/-- `FRAGMENT(m)`: full chunks but for the last; none for the empty message (R165). A message of `len(m)` bytes has at
most `len(m)` chunks. -/
def fragment (c : Config) (m : Message) : List Chunk := fragmentSteps c.maxPayload m.length m

/-! ### The window ring -/

/-- `win[s]`; `none` for a slot nothing has written since reset (R15, R43). -/
def Ring.read (w : Ring) (s : Nat) : Option Image :=
  match w with
  | [] => none
  | (a, p) :: rest => if a = s then some p else Ring.read rest s

/-- `win[s] <- p`, a whole-slot store (R15, R66); the list stays sorted by slot. -/
def Ring.write (w : Ring) (s : Nat) (p : Image) : Ring :=
  match w with
  | [] => [(s, p)]
  | (a, q) :: rest =>
    if s < a then (s, p) :: (a, q) :: rest
    else if s = a then (s, p) :: rest
    else (a, q) :: Ring.write rest s p

/-- The canonical form: slots strictly rising, all below 61 (R39, R69). -/
def Ring.wf : Ring → Bool
  | [] => true
  | [(a, _)] => decide (a < modN)
  | (a, _) :: (b, q) :: rest => decide (a < b) && Ring.wf ((b, q) :: rest)

/-! ### Actions and the collaborators -/

/-- The end of a handler that raises nothing (R16, R221). -/
def finish (n : Nat) : List Action := [.done .ok n]

/-- `raise Overflow(n)`: the handler ends with the state as it then stands (R16, R173). -/
def raiseOverflow (n : Nat) : List Action := [.done .overflow n]

/-- `raise BadOp`: the handler ends with the state unchanged (R16, R106). -/
def raiseBadOp : List Action := [.done .badOp 0]

/-- What one action of a unit does at its collaborator: the link takes an image (R232, R233), the consumer takes a
delivery (R239), the timer starts or stops (R235). -/
def perform (u : Side) (s : State) (a : Action) : State :=
  match a with
  | .send p =>
    match u with
    | .txu => { s with linkToRxu := s.linkToRxu ++ [p] }
    | .rxu => { s with linkToTxu := s.linkToTxu ++ [p] }
  | .deliver q => { s with delivered := s.delivered ++ [q] }
  | .tstart _ => { s with timerRunning := true }
  | .tstop => { s with timerRunning := false }
  | .done _ _ => s

/-- The actions of a handler, taken in trace order (R75, R235), and the trace itself. -/
def commit (u : Side) (s : State) (tr : List Action) : State :=
  { tr.foldl (perform u) s with trace := tr }

/-! ### The frames in which a meaning runs -/

/-- An event at the TXU: taken only when the unit is IDLE, run to completion (R67, R229, R270). -/
def runTxu (i : Instr) (s : State) (h : Except Fault (Txu × List Action)) :
    Host.Outcome State Fault Refusal :=
  if i.wellFormed s.cfg then
    match s.txu.control with
    | .busy => .refused (.unitBusy .txu)
    | .idle =>
      match h with
      | .error f => .fault f
      | .ok (t, tr) => .next (commit .txu { s with txu := t } tr)
  else .refused .illFormed

/-- An event at the RXU (R67, R229, R270). -/
def runRxu (i : Instr) (s : State) (h : Rxu × List Action) : Host.Outcome State Fault Refusal :=
  if i.wellFormed s.cfg then
    match s.rxu.control with
    | .busy => .refused (.unitBusy .rxu)
    | .idle => .next (commit .rxu { s with rxu := h.1 } h.2)
  else .refused .illFormed

/-- A step of a TXU handler, run on its own: an internal operation with a precondition (R90, R168, R170, R171). -/
def runStep (i : Instr) (s : State) (pre : Bool) (f : Fault) (h : Txu × List Action) :
    Host.Outcome State Fault Refusal :=
  if i.wellFormed s.cfg then
    if pre then .next (commit .txu { s with txu := h.1 } h.2) else .fault f
  else .refused .illFormed

/-- An operation without state: its value goes to the caller, it emits nothing (R41, R120). -/
def runValue (i : Instr) (s : State) (v : Value) : Host.Outcome State Fault Refusal :=
  if i.wellFormed s.cfg then .next { s with trace := [], result := v } else .refused .illFormed

end Sys2Proof.Machine
end

