-- ==== Sys2Proof/Machine/Admission.lean ====
section
/-! DEFINITION. The Sender State Machine, part 1: ADMIT, DRAIN, ENQUEUE and TX.MSG (spec 42_sender_admission.md). -/

namespace Sys2Proof.Machine

/-- `ADMIT(c)`: the chunk gets `next_to_send`, its slot is filled, the image sent, the timer started where the window was
empty (R168). -/
def Txu.admitChunk (c : Config) (t : Txu) (q : Chunk) : Txu × List Action :=
  let s := t.nextToSend
  let p := mkData c s q
  ({ t with
      win := t.win.write s p
      outstandingCount := t.outstandingCount + 1
      nextToSend := seqInc s },
    .send p :: (if t.winEmpty then [.tstart t.timeoutInterval] else []))

/-- `FifoPush(c)` and the count (R70, R171). -/
def Txu.enqueue (t : Txu) (q : Chunk) : Txu :=
  { t with fifo := t.fifo ++ [q], bufferedCount := t.bufferedCount + 1 }

/-- DRAIN's loop over the FIFO's entries, head first, while there is room (R170). -/
def Txu.drainFrom (c : Config) (t : Txu) : List Chunk → Txu × List Action
  | [] => (t, [])
  | q :: rest =>
    if t.winRoom && t.fifoNonempty then
      let a := Txu.admitChunk c { t with fifo := rest, bufferedCount := t.bufferedCount - 1 } q
      let d := Txu.drainFrom c a.1 rest
      (d.1, a.2 ++ d.2)
    else (t, [])

/-- `DRAIN` (R170). -/
def Txu.drain (c : Config) (t : Txu) : Txu × List Action := Txu.drainFrom c t t.fifo

/-- The chunk loop of TX.MSG: DRAIN, then the three-way choice; `acc` counts the bytes taken (R172, R173). -/
def Txu.takeChunks (c : Config) (t : Txu) (acc : Nat) : List Chunk → Txu × List Action
  | [] => (t, finish acc)
  | q :: rest =>
    let d := Txu.drain c t
    if d.1.winRoom then
      let a := Txu.admitChunk c d.1 q
      let r := Txu.takeChunks c a.1 (acc + q.length) rest
      (r.1, d.2 ++ a.2 ++ r.2)
    else if d.1.fifoRoom c then
      let r := Txu.takeChunks c (d.1.enqueue q) (acc + q.length) rest
      (r.1, d.2 ++ r.2)
    else
      (d.1, d.2 ++ raiseOverflow acc)

/-- `TX.MSG m`, the whole handler (R172). -/
def Txu.onMsg (c : Config) (t : Txu) (m : Message) : Txu × List Action :=
  Txu.takeChunks c t 0 (fragment c m)

/-- TX.MSG (R172, R173). -/
def execTxMsg (m : Message) (s : State) : Host.Outcome State Fault Refusal :=
  runTxu (.txMsg m) s (.ok (s.txu.onMsg s.cfg m))

/-- ADMIT, with its precondition (R168). -/
def execAdmit (q : Chunk) (s : State) : Host.Outcome State Fault Refusal :=
  runStep (.admitChunk q) s s.txu.winRoom .admitWindowFull (s.txu.admitChunk s.cfg q)

/-- DRAIN, which has no precondition (R170). -/
def execDrain (s : State) : Host.Outcome State Fault Refusal :=
  runStep .drain s true .admitWindowFull (s.txu.drain s.cfg)

/-- ENQUEUE, with its precondition; it emits nothing (R171). -/
def execEnqueue (q : Chunk) (s : State) : Host.Outcome State Fault Refusal :=
  runStep (.enqueue q) s (s.txu.fifoRoom s.cfg) .enqueueFifoFull (s.txu.enqueue q, [])

end Sys2Proof.Machine
end

