-- ==== Sys2Proof/Machine/AckTimeout.lean ====
section
/-! DEFINITION. The Sender State Machine, part 2: TX.PKT, TX.TMO and the reserved code (spec
43_sender_ack_timeout.md). -/

namespace Sys2Proof.Machine

/-- The retire loop: while the acknowledged number is in the window, one packet leaves it (R193). The window has at most
60 numbers, so 61 rounds are enough. -/
def Txu.retire (t : Txu) (s : Nat) : Nat → Txu
  | 0 => t
  | k + 1 =>
    if between t.ackExpected s t.nextToSend then
      Txu.retire { t with ackExpected := seqInc t.ackExpected, outstandingCount := t.outstandingCount - 1 } s k
    else t

/-- `TSTART(timeout_interval)` where something is outstanding (R196, R201). -/
def Txu.restart (t : Txu) : List Action := if t.winEmpty then [] else [.tstart t.timeoutInterval]

/-- `TX.PKT p`, the whole handler (R190). -/
def Txu.onPkt (c : Config) (t : Txu) (p : Image) : Txu × List Action :=
  if verifyChecksum c p ∧ kindField p = kindAck then
    let d := Txu.drain c (t.retire (seqField p).toNat modN)
    (d.1, [.tstop] ++ d.2 ++ d.1.restart ++ finish 0)
  else (t, finish 0)

/-- The resend loop over the window's slots: load, checksum recomputed, store, send (R201). -/
def resendSlots (c : Config) (w : Ring) : List Nat → Except Fault (Ring × List Action)
  | [] => .ok (w, [])
  | s :: rest =>
    match w.read s with
    | none => .error (.unwrittenSlot s)
    | some img =>
      let p := (encodeChecksum c img).1
      match resendSlots c (w.write s p) rest with
      | .error f => .error f
      | .ok (w', tr) => .ok (w', .send p :: tr)

/-- The slots of the outstanding window, in sequence order from `ack_expected` (R201). -/
def Txu.windowSlots (t : Txu) : List Nat := (List.range t.outstandingCount).map (windowSeq t.ackExpected)

/-- `TX.TMO`, the whole handler (R201). -/
def Txu.onTmo (c : Config) (t : Txu) : Except Fault (Txu × List Action) :=
  match resendSlots c t.win t.windowSlots with
  | .error f => .error f
  | .ok (w, tr) => .ok ({ t with win := w }, [.tstop] ++ tr ++ t.restart ++ finish 0)

/-- TX.PKT.ACK: processed (R192 to R196). -/
def execTxPktAck (p : Image) (s : State) : Host.Outcome State Fault Refusal :=
  runTxu (.txPktAck p) s (.ok (s.txu.onPkt s.cfg p))

/-- TX.PKT.DATA: ignored (R191). -/
def execTxPktData (p : Image) (s : State) : Host.Outcome State Fault Refusal :=
  runTxu (.txPktData p) s (.ok (s.txu.onPkt s.cfg p))

/-- TX.PKT.K2: ignored (R103, R191). -/
def execTxPktK2 (p : Image) (s : State) : Host.Outcome State Fault Refusal :=
  runTxu (.txPktK2 p) s (.ok (s.txu.onPkt s.cfg p))

/-- TX.PKT.K3: ignored (R103, R191). -/
def execTxPktK3 (p : Image) (s : State) : Host.Outcome State Fault Refusal :=
  runTxu (.txPktK3 p) s (.ok (s.txu.onPkt s.cfg p))

/-- TX.PKT.UNSAFE: ignored (R191). -/
def execTxPktUnsafe (p : Image) (s : State) : Host.Outcome State Fault Refusal :=
  runTxu (.txPktUnsafe p) s (.ok (s.txu.onPkt s.cfg p))

/-- TX.TMO (R201 to R203). -/
def execTxTmo (s : State) : Host.Outcome State Fault Refusal :=
  runTxu .txTmo s (s.txu.onTmo s.cfg)

/-- TX.RSVD (R205). -/
def execTxRsvd (s : State) : Host.Outcome State Fault Refusal :=
  runTxu .txRsvd s (.ok (s.txu, raiseBadOp))

end Sys2Proof.Machine
end

