-- ==== Sys2Proof/Machine/Codec.lean ====
section
/-! DEFINITION. The operations without state, each handing its value to its caller: the wire forms and the Packet Codec
(spec 30_encoding.md R98, 40_codec.md R122 to R129), the sequence arithmetic and FRAGMENT (42_sender_admission.md R160,
R161, R165). -/

namespace Sys2Proof.Machine

/-- PACK (R98). -/
def execPack (l : Byte) (k : Kind) (q : WireSeq) (v : Word32) (pay : List Byte) (s : State) :
    Host.Outcome State Fault Refusal :=
  runValue (.pack l k q v pay) s (.image (packImage l k q v pay))

/-- MKDATA (R128). -/
def execMkData (n : Nat) (q : Chunk) (s : State) : Host.Outcome State Fault Refusal :=
  runValue (.mkData n q) s (.image (mkData s.cfg n q))

/-- MKACK (R129). -/
def execMkAck (n : Nat) (s : State) : Host.Outcome State Fault Refusal :=
  runValue (.mkAck n) s (.image (mkAck s.cfg n))

/-- CHK (R122, R123). -/
def execChk (stream : List Byte) (s : State) : Host.Outcome State Fault Refusal :=
  runValue (.chk stream) s (.word (chk s.cfg stream))

/-- ENCODE_CHECKSUM (R124). -/
def execEncodeChecksum (p : Image) (s : State) : Host.Outcome State Fault Refusal :=
  runValue (.encodeChecksum p) s (.imageAndSum (encodeChecksum s.cfg p).1 (encodeChecksum s.cfg p).2)

/-- VERIFY_CHECKSUM (R125). -/
def execVerifyChecksum (p : Image) (s : State) : Host.Outcome State Fault Refusal :=
  runValue (.verifyChecksum p) s (.bool (verifyChecksum s.cfg p))

/-- CLAMP_LEN (R127). -/
def execClampLen (p : Image) (s : State) : Host.Outcome State Fault Refusal :=
  runValue (.clampLen p) s (.nat (clampLen s.cfg p))

/-- SEQ_INC (R160). -/
def execSeqInc (x : Nat) (s : State) : Host.Outcome State Fault Refusal :=
  runValue (.seqInc x) s (.nat (seqInc x))

/-- SEQ_DEC (R160). -/
def execSeqDec (x : Nat) (s : State) : Host.Outcome State Fault Refusal :=
  runValue (.seqDec x) s (.nat (seqDec x))

/-- BETWEEN (R161). -/
def execBetween (lo x hi : Nat) (s : State) : Host.Outcome State Fault Refusal :=
  runValue (.between lo x hi) s (.bool (between lo x hi))

/-- FRAGMENT (R165). -/
def execFragment (m : Message) (s : State) : Host.Outcome State Fault Refusal :=
  runValue (.fragment m) s (.chunks (fragment s.cfg m))

end Sys2Proof.Machine
end

