-- ==== Sys2Proof/Machine/Receiver.lean ====
section
/-! DEFINITION. The events of the Receiver State Machine (spec 41_receiver.md). -/

namespace Sys2Proof.Machine

/-- `RX.PKT p`, the whole handler: checksum, then kind and sequence (R141). -/
def Rxu.onPkt (c : Config) (r : Rxu) (p : Image) : Rxu × List Action :=
  if verifyChecksum c p then
    if kindField p = kindData ∧ (seqField p).toNat = r.expectedSeq then
      ({ r with expectedSeq := seqInc r.expectedSeq },
        [.deliver ((payField p).take (clampLen c p)), .send (mkAck c r.expectedSeq)] ++ finish 0)
    else
      (r, [.send (mkAck c (seqDec r.expectedSeq))] ++ finish 0)
  else
    (r, finish 0)

/-- RX.PKT.DATA: ACCEPT where the number is the expected one, else DUPACK (R144, R146). -/
def execRxPktData (p : Image) (s : State) : Host.Outcome State Fault Refusal :=
  runRxu (.rxPktData p) s (s.rxu.onPkt s.cfg p)

/-- RX.PKT.ACK: DUPACK (R146). -/
def execRxPktAck (p : Image) (s : State) : Host.Outcome State Fault Refusal :=
  runRxu (.rxPktAck p) s (s.rxu.onPkt s.cfg p)

/-- RX.PKT.K2: DUPACK (R103, R146). -/
def execRxPktK2 (p : Image) (s : State) : Host.Outcome State Fault Refusal :=
  runRxu (.rxPktK2 p) s (s.rxu.onPkt s.cfg p)

/-- RX.PKT.K3: DUPACK (R103, R146). -/
def execRxPktK3 (p : Image) (s : State) : Host.Outcome State Fault Refusal :=
  runRxu (.rxPktK3 p) s (s.rxu.onPkt s.cfg p)

/-- RX.PKT.UNSAFE: dropped (R142). -/
def execRxPktUnsafe (p : Image) (s : State) : Host.Outcome State Fault Refusal :=
  runRxu (.rxPktUnsafe p) s (s.rxu.onPkt s.cfg p)

/-- RX.MSG, reserved at the RXU; the operand is not read (R149). -/
def execRxMsg (m : Message) (s : State) : Host.Outcome State Fault Refusal :=
  runRxu (.rxMsg m) s (s.rxu, raiseBadOp)

/-- RX.TMO, reserved at the RXU (R149). -/
def execRxTmo (s : State) : Host.Outcome State Fault Refusal :=
  runRxu .rxTmo s (s.rxu, raiseBadOp)

/-- RX.RSVD (R149). -/
def execRxRsvd (s : State) : Host.Outcome State Fault Refusal :=
  runRxu .rxRsvd s (s.rxu, raiseBadOp)

end Sys2Proof.Machine
end

