-- ==== Sys2Proof/Machine/TimerReset.lean ====
section
/-! DEFINITION. The timer commands (spec 30_encoding.md R99, 60_exceptions.md R235) and reset (70_reset_and_hazards.md
R260 to R262). -/

namespace Sys2Proof.Machine

/-- TSTART with the value of `timeout_interval`: the timer runs, a pending firing is cancelled (R99, R235). -/
def execTstart (s : State) : Host.Outcome State Fault Refusal :=
  .next (commit .txu s [.tstart s.txu.timeoutInterval])

/-- TSTOP: the timer is stopped; on a stopped timer nothing changes (R99, R235). -/
def execTstop (s : State) : Host.Outcome State Fault Refusal :=
  .next (commit .txu s [.tstop])

/-- Reset of the TXU; its timer is reset with it and no TSTOP is emitted (R261; notes/assumptions/16.md). -/
def resetTxu (s : State) : State :=
  { s with txu := Txu.reset s.cfg, timerRunning := false, trace := [] }

/-- Reset of the RXU (R261). -/
def resetRxu (s : State) : State := { s with rxu := Rxu.reset, trace := [] }

/-- The joint reset: both units, the timer and the link (R262). -/
def resetSystem (s : State) : State :=
  { resetRxu (resetTxu s) with linkToRxu := [], linkToTxu := [] }

/-- RESET, taken only when the unit is IDLE; it emits no action (R260). -/
def execReset (u : ResetTarget) (s : State) : Host.Outcome State Fault Refusal :=
  match u, s.txu.control, s.rxu.control with
  | .txu, .idle, _ => .next (resetTxu s)
  | .rxu, _, .idle => .next (resetRxu s)
  | .system, .idle, .idle => .next (resetSystem s)
  | .txu, .busy, _ => .refused (.unitBusy .txu)
  | .rxu, _, .busy => .refused (.unitBusy .rxu)
  | .system, .busy, _ => .refused (.unitBusy .txu)
  | .system, .idle, .busy => .refused (.unitBusy .rxu)

end Sys2Proof.Machine
end

