-- ==== Sys2Proof/Machine/Dispatch.lean ====
section
/-! DEFINITION. The meaning of each instruction, one arm a constructor. -/

namespace Sys2Proof.Machine

def exec (i : Instr) (s : State) : Host.Outcome State Fault Refusal :=
  match i with
  | .txMsg m => Sys2Proof.Machine.execTxMsg m s
  | .txPktAck p => Sys2Proof.Machine.execTxPktAck p s
  | .txPktData p => Sys2Proof.Machine.execTxPktData p s
  | .txPktK2 p => Sys2Proof.Machine.execTxPktK2 p s
  | .txPktK3 p => Sys2Proof.Machine.execTxPktK3 p s
  | .txPktUnsafe p => Sys2Proof.Machine.execTxPktUnsafe p s
  | .txTmo => Sys2Proof.Machine.execTxTmo s
  | .txRsvd => Sys2Proof.Machine.execTxRsvd s
  | .rxPktData p => Sys2Proof.Machine.execRxPktData p s
  | .rxPktAck p => Sys2Proof.Machine.execRxPktAck p s
  | .rxPktK2 p => Sys2Proof.Machine.execRxPktK2 p s
  | .rxPktK3 p => Sys2Proof.Machine.execRxPktK3 p s
  | .rxPktUnsafe p => Sys2Proof.Machine.execRxPktUnsafe p s
  | .rxMsg m => Sys2Proof.Machine.execRxMsg m s
  | .rxTmo => Sys2Proof.Machine.execRxTmo s
  | .rxRsvd => Sys2Proof.Machine.execRxRsvd s
  | .pack l k q v pay => Sys2Proof.Machine.execPack l k q v pay s
  | .mkData n q => Sys2Proof.Machine.execMkData n q s
  | .mkAck n => Sys2Proof.Machine.execMkAck n s
  | .tstart => Sys2Proof.Machine.execTstart s
  | .tstop => Sys2Proof.Machine.execTstop s
  | .chk stream => Sys2Proof.Machine.execChk stream s
  | .encodeChecksum p => Sys2Proof.Machine.execEncodeChecksum p s
  | .verifyChecksum p => Sys2Proof.Machine.execVerifyChecksum p s
  | .clampLen p => Sys2Proof.Machine.execClampLen p s
  | .seqInc x => Sys2Proof.Machine.execSeqInc x s
  | .seqDec x => Sys2Proof.Machine.execSeqDec x s
  | .between lo x hi => Sys2Proof.Machine.execBetween lo x hi s
  | .fragment m => Sys2Proof.Machine.execFragment m s
  | .admitChunk q => Sys2Proof.Machine.execAdmit q s
  | .drain => Sys2Proof.Machine.execDrain s
  | .enqueue q => Sys2Proof.Machine.execEnqueue q s
  | .reset u => Sys2Proof.Machine.execReset u s

end Sys2Proof.Machine
end

