-- ==== Sys2Proof/Machine/Environment.lean ====
section
/-! DEFINITION. What the environment's inputs do: a transaction presented at a port, the link's moves, the timer's
firing, the upper layers (spec 60_exceptions.md R228, R232 to R238; notes/assumptions/13.md to 15.md). -/

namespace Sys2Proof.Machine

/-- A transaction presented at a port: decoded, and its instruction run (R67, R92). -/
def present (port : Port) (bytes : List Byte) (s : State) : Host.Outcome State Fault Refusal :=
  match decode s.cfg port bytes with
  | .ok i => exec i s
  | .error e => .refused (.portRefuses e)

/-- The command port of a unit. -/
def Side.port : Side → Port
  | .txu => .txu
  | .rxu => .rxu

/-- The images in flight to a unit (R233). -/
def State.inFlight (s : State) : Side → List Image
  | .rxu => s.linkToRxu
  | .txu => s.linkToTxu

/-- The images in flight to a unit, replaced; a move of the link runs no handler. -/
def State.setInFlight (s : State) (u : Side) (ps : List Image) : State :=
  match u with
  | .rxu => { s with linkToRxu := ps }
  | .txu => { s with linkToTxu := ps }

/-- A move of the link that runs no handler. -/
def linkMove (s : State) (u : Side) (k : Nat) (f : Image → List Image) : Host.Outcome State Fault Refusal :=
  match (s.inFlight u)[k]? with
  | none => .refused .moveNotEnabled
  | some p => .next { s.setInFlight u (f p) with trace := [] }

/-- The link delivers its `k`-th image, whichever is older (delay, reordering), as a PKT event (R232). -/
def linkDeliver (s : State) (u : Side) (k : Nat) : Host.Outcome State Fault Refusal :=
  match (s.inFlight u)[k]? with
  | none => .refused .moveNotEnabled
  | some p => present u.port (1 :: p) (s.setInFlight u ((s.inFlight u).eraseIdx k))

/-- The timer fires: enabled while it runs and the TXU is IDLE; firing and TX.TMO are one step (R236, R237). -/
def timerFire (s : State) : Host.Outcome State Fault Refusal :=
  if s.timerRunning && decide (s.txu.control = .idle) then exec .txTmo { s with timerRunning := false }
  else .refused .moveNotEnabled

/-- The part of a message a TX.MSG did not take (R173, R238). -/
def untaken (m : Message) : List Action → Message
  | [] => []
  | [.done .overflow n] => m.drop n
  | _ :: rest => untaken m rest

/-- The producer presents its oldest message; after an OVERFLOW it keeps the untaken part, or gives it up (R238). -/
def producerPresent (again : Bool) (s : State) : Host.Outcome State Fault Refusal :=
  match s.pending with
  | [] => .refused .moveNotEnabled
  | m :: rest =>
    match present .txu (0 :: m) { s with pending := rest } with
    | .next s' =>
      match again, untaken m s'.trace with
      | true, b :: left => .next { s' with pending := (b :: left) :: s'.pending }
      | _, _ => .next s'
    | .fault f => .fault f
    | .refused r => .refused r

/-- One input of the environment. -/
def takeInput (i : Input) (s : State) : Host.Outcome State Fault Refusal :=
  match i with
  | .word port bytes => present port bytes s
  | .rst u => exec (.reset u) s
  | .fire => timerFire s
  | .deliver u k => linkDeliver s u k
  | .drop u k => linkMove s u k (fun _ => (s.inFlight u).eraseIdx k)
  | .duplicate u k => linkMove s u k (fun p => s.inFlight u ++ [p])
  | .corrupt u k p =>
    if s.cfg.imageFits p then linkMove s u k (fun _ => (s.inFlight u).set k p) else .refused .moveNotEnabled
  | .submit m =>
    if s.cfg.messageFits m then .next { s with pending := s.pending ++ [m], trace := [] }
    else .refused .moveNotEnabled
  | .present again => producerPresent again s

end Sys2Proof.Machine
end

