-- ==== Sys2Proof/Machine/Step.lean ====
section
/-! DEFINITION. One step: the next input of the environment, run to completion (spec 20_memory.md R67, 60_exceptions.md
R228). -/

namespace Sys2Proof.Machine

/-- One step. With no input the units stay IDLE and nothing changes (R245). -/
def step (s : State) : Host.Outcome State Fault Refusal :=
  match s.inputs with
  | [] => .next s
  | i :: rest => takeInput i { s with inputs := rest }

/-- A word of opcode_table.json placed as the next transaction at its port (notes/assumptions/12.md). -/
def State.withFetchWord (s : State) (nbits w : Nat) : State :=
  let t := Decode.tableTransaction s.cfg nbits w
  { s with inputs := .word t.1 t.2 :: s.inputs }

end Sys2Proof.Machine
end

