-- ==== Sys2Proof/Machine/Outputs.lean ====
section
/-! DEFINITION. What each output port shows of a trace (spec 30_encoding.md R99, 20_memory.md R75: an observer of separate
ports sees the projections). -/

namespace Sys2Proof.Machine

/-- The link port: the images handed over, in trace order. -/
def sends : List Action → List Image
  | [] => []
  | .send p :: rest => p :: sends rest
  | .deliver _ :: rest => sends rest
  | .tstart _ :: rest => sends rest
  | .tstop :: rest => sends rest
  | .done _ _ :: rest => sends rest

/-- The upward port: the byte sequences delivered. -/
def deliveries : List Action → List (List Byte)
  | [] => []
  | .send _ :: rest => deliveries rest
  | .deliver q :: rest => q :: deliveries rest
  | .tstart _ :: rest => deliveries rest
  | .tstop :: rest => deliveries rest
  | .done _ _ :: rest => deliveries rest

/-- The timer port, one bit a command: 1 is TSTART, 0 is TSTOP. -/
def timerBits : List Action → List Bool
  | [] => []
  | .send _ :: rest => timerBits rest
  | .deliver _ :: rest => timerBits rest
  | .tstart _ :: rest => true :: timerBits rest
  | .tstop :: rest => false :: timerBits rest
  | .done _ _ :: rest => timerBits rest

/-- The response port: status code and byte count. -/
def responses : List Action → List (BitVec 2 × Nat)
  | [] => []
  | .send _ :: rest => responses rest
  | .deliver _ :: rest => responses rest
  | .tstart _ :: rest => responses rest
  | .tstop :: rest => responses rest
  | .done status n :: rest => (status.code, n) :: responses rest

end Sys2Proof.Machine
end

