-- ==== Sys2Proof/Safety.lean ====
section
/-! DEFINITION. What a safe state is, in the terms the statements use: the invariants of spec 10_state.md R31 and of the
parts around the sender, and the byte stream the sender holds (42_sender_admission.md R176). -/

namespace Sys2Proof

/-- The events of the TXU's command port (R92). -/
def Instr.atTxu (i : Instr) : Bool :=
  match encode Config.reference i with
  | some (.txu, _) => true
  | _ => false

/-- The events of the RXU's command port (R92). -/
def Instr.atRxu (i : Instr) : Bool :=
  match encode Config.reference i with
  | some (.rxu, _) => true
  | _ => false

end Sys2Proof

namespace Sys2Proof.Machine

/-- I1: both pointers are in 0..60 (R31). -/
def Txu.pointersInRange (t : Txu) : Bool := decide (t.ackExpected < modN) && decide (t.nextToSend < modN)

/-- I2: `outstanding_count = (next_to_send - ack_expected) mod 61` (R31). -/
def Txu.countIsDistance (t : Txu) : Bool := decide (t.outstandingCount = seqDist t.ackExpected t.nextToSend)

/-- I3: `outstanding_count ≤ 5` (R31). -/
def Txu.windowBounded (t : Txu) : Bool := decide (t.outstandingCount ≤ windowSize)

/-- I4: `buffered_count = FifoLen() ≤ BUF_SIZE`, and every entry is a chunk (R30, R31). -/
def Txu.fifoCounted (c : Config) (t : Txu) : Bool :=
  decide (t.bufferedCount = t.fifo.length) && decide (t.bufferedCount ≤ c.bufSize) && t.fifo.all c.chunkFits

/-- A slot holds `MKDATA(s, q)` of a chunk `q`. -/
def slotHolds (c : Config) (w : Ring) (s : Nat) : Bool :=
  match w.read s with
  | none => false
  | some p => c.chunkFits (chunkOf p) && decide (p = mkData c s (chunkOf p))

/-- I5: every slot of the outstanding window holds the image of its number's chunk (R31). -/
def Txu.windowHolds (c : Config) (t : Txu) : Bool := t.windowSlots.all (slotHolds c t.win)

/-- I6: `buffered_count > 0` implies `outstanding_count = 5` (R31). -/
def Txu.bufferedOnlyWhenFull (t : Txu) : Bool := decide (0 < t.bufferedCount → t.outstandingCount = windowSize)

/-- I1 to I6, the ring's canonical form, and the static configuration of S8 (R31, R33, R69). -/
def Txu.inv (c : Config) (t : Txu) : Bool :=
  t.pointersInRange && t.countIsDistance && t.windowBounded && t.fifoCounted c && t.windowHolds c &&
    t.bufferedOnlyWhenFull && t.win.wf && t.win.all (fun e => c.imageFits e.2) &&
    decide (t.timeoutInterval = c.timeout)

/-- The invariant of the whole state: legal parameters, the sender's invariants, the receiver's register in 0..60
(R22), both units IDLE between handlers (R36), and only images of `PKT_SIZE` bytes in the link (R65). -/
def State.inv (s : State) : Bool :=
  s.cfg.legal && s.txu.inv s.cfg && decide (s.rxu.expectedSeq < modN) &&
    decide (s.txu.control = .idle) && decide (s.rxu.control = .idle) &&
    s.linkToRxu.all s.cfg.imageFits && s.linkToTxu.all s.cfg.imageFits

/-- I7: `timer_running = (outstanding_count > 0)` (R31). -/
def State.timerMatches (s : State) : Bool := decide (s.timerRunning = decide (0 < s.txu.outstandingCount))

/-- The chunk in a ring slot; empty where nothing was written. -/
def Ring.chunkAt (w : Ring) (s : Nat) : Chunk :=
  match w.read s with
  | none => []
  | some p => chunkOf p

/-- The bytes the sender holds and the far end has not acknowledged: the outstanding chunks in sequence order, then the
FIFO's, in arrival order (R176). -/
def Txu.stream (t : Txu) : List Byte := (t.windowSlots.map t.win.chunkAt).flatten ++ t.fifo.flatten

/-- The chunk loop of TX.MSG with its DRAIN left out (R174). -/
def Txu.takeWithoutDrain (c : Config) (t : Txu) (acc : Nat) : List Chunk → Txu × List Action
  | [] => (t, finish acc)
  | q :: rest =>
    if t.winRoom then
      let a := t.admitChunk c q
      let r := Txu.takeWithoutDrain c a.1 (acc + q.length) rest
      (r.1, a.2 ++ r.2)
    else if t.fifoRoom c then Txu.takeWithoutDrain c (t.enqueue q) (acc + q.length) rest
    else (t, raiseOverflow acc)

/-- Every action of a list is a `SEND` of a DATA image with a legal number (R169). -/
def Action.sendsLegalData : Action → Bool
  | .send p => decide (kindField p = kindData) && decide ((seqField p).toNat < modN)
  | .deliver _ => false
  | .tstart _ => true
  | .tstop => true
  | .done _ _ => true

/-! ### The far end: what is delivered, what is in flight -/

/-- How many of the outstanding packets the receiver already has: `expected_seq` counted from `ack_expected`. -/
def State.received (s : State) : Nat := seqDist s.txu.ackExpected s.rxu.expectedSeq

/-- Where a DATA image's number stands, counted from five before `expected_seq`: 5 is the expected one. -/
def State.dataPos (s : State) (p : Image) : Nat := seqDist ((s.rxu.expectedSeq + 56) % modN) (seqField p).toNat

/-- Where an ACK image's number stands, counted from the one before `ack_expected`: 0 acknowledges nothing new. -/
def State.ackPos (s : State) (p : Image) : Nat := seqDist (seqDec s.txu.ackExpected) (seqField p).toNat

/-- A safe image on its way to the receiver: DATA, of a packet not newer than the window, and where it is one the
receiver has not got, the very image of its slot. -/
def State.dataInOrder (s : State) (p : Image) : Bool :=
  decide (kindField p = kindData) && decide ((seqField p).toNat < modN) &&
    decide (s.dataPos p < s.txu.outstandingCount - s.received + 5) &&
    decide (5 ≤ s.dataPos p → s.txu.win.read (seqField p).toNat = some p)

/-- A safe image on its way to the sender: an ACK of a packet the receiver has. -/
def State.ackInOrder (s : State) (p : Image) : Bool :=
  decide (kindField p = kindAck) && decide ((seqField p).toNat < modN) && decide (s.ackPos p ≤ s.received)

/-- What holds of the two ends and the link while the link keeps the order of the images in each direction and every
image it changes is unsafe: the receiver's number lies in the sender's window, and no image in flight can be taken for
another one (R275, R276). -/
def State.inOrder (s : State) : Bool :=
  let data := s.linkToRxu.filter (verifyChecksum s.cfg)
  let acks := s.linkToTxu.filter (verifyChecksum s.cfg)
  decide (s.received ≤ s.txu.outstandingCount) && data.all s.dataInOrder && acks.all s.ackInOrder &&
    decide (data.Pairwise (fun p q => s.dataPos p ≤ s.dataPos q + 4)) &&
    decide (acks.Pairwise (fun p q => s.ackPos p ≤ s.ackPos q))

/-- The bytes accepted so far: those delivered, then those of the outstanding packets the receiver has not got, then
those of the FIFO (R148, R176). -/
def State.accepted (s : State) : List Byte :=
  s.delivered.flatten ++ ((s.txu.windowSlots.drop s.received).map s.txu.win.chunkAt).flatten ++ s.txu.fifo.flatten

/-- The moves under which the stream stays in order: the link delivers its oldest image, or loses any, or changes any into
an unsafe one; nobody else presents an image, and no unit is reset by itself (R264, R275, R276). -/
def Input.orderly (c : Config) : Input → Bool
  | .word .txu (code :: _) => decide (code ≠ 1)
  | .word .rxu (code :: _) => decide (code ≠ 1)
  | .word _ _ => true
  | .rst _ => false
  | .fire => true
  | .deliver _ k => decide (k = 0)
  | .drop _ _ => true
  | .duplicate _ _ => false
  | .corrupt _ _ p => !verifyChecksum c p
  | .submit _ => true
  | .present _ => true

/-- A move of the link in one direction, or the joint reset, which empties it (R232, R262). -/
def Input.movesLink (u : Side) : Input → Bool
  | .word _ _ => false
  | .rst .txu => false
  | .rst .rxu => false
  | .rst .system => true
  | .fire => false
  | .deliver v _ => decide (v = u)
  | .drop v _ => decide (v = u)
  | .duplicate v _ => decide (v = u)
  | .corrupt v _ _ => decide (v = u)
  | .submit _ => false
  | .present _ => false

/-- The message an input presents to the TXU (R238). -/
def State.offered (s : State) : Message :=
  match s.inputs with
  | .word .txu (code :: m) :: _ => if code = 0 then m else []
  | .present _ :: _ => s.pending.headD []
  | _ => []

/-- The bytes a step accepted: of the message presented, as many as the response port reports (R173, R221). -/
def State.takenInStep (s t : State) : List Byte := s.offered.take ((responses t.trace).map Prod.snd).sum

/-- `n` steps, with the bytes they accepted. -/
def runSteps : Nat → State → Option (State × List Byte)
  | 0, s => some (s, [])
  | n + 1, s =>
    match step s with
    | .next t => (runSteps n t).map (fun r => (r.1, s.takenInStep t ++ r.2))
    | .fault _ => none
    | .refused _ => none

end Sys2Proof.Machine
end

