-- ==== Sys2Proof/Certificates/Slice0/Obligations.lean ====
section
/-! DEFINITION. The statements for the provers. Each docstring names the rule of the spec it formalises; where a clause
rests on a decision of spec/92_eei_decisions.md (D<n>) or on a choice of the model (notes/assumptions/<n>.md), it says so. -/

open Sys2Proof Sys2Proof.Machine

/-! ### Reset, fetch, decoding -/

/-- The launch state, for every choice of the parameters, every field of it (R43, R262: the spec's own decisions D14,
D15); that the upper layers' lists, the trace, the result and the inputs are empty is the model's choice
(notes/assumptions/6.md, 7.md, 13.md, 15.md), and so are the parameters of `State.reset` (2.md). -/
def Obligations.ResetGivesLaunchState : Prop :=
  ∀ c : Config,
    let s := State.resetWith c
    s.rxu.expectedSeq = 0 ∧ s.txu.ackExpected = 0 ∧ s.txu.nextToSend = 0 ∧ s.txu.outstandingCount = 0 ∧
    s.txu.bufferedCount = 0 ∧ s.txu.fifo = [] ∧ (∀ n, s.txu.win.read n = none) ∧ windowSize = 5 ∧
    s.txu.timeoutInterval = c.timeout ∧ s.timerRunning = false ∧ s.txu.control = .idle ∧ s.rxu.control = .idle ∧
    s.linkToRxu = [] ∧ s.linkToTxu = [] ∧ s.cfg = c ∧
    s.pending = [] ∧ s.delivered = [] ∧ s.trace = [] ∧ s.result = .none ∧ s.inputs = [] ∧
    State.reset = State.resetWith Config.reference

/-- A step with a transaction at its head runs exactly the decoded instruction, with that input consumed; a transaction
no port can carry is refused by name; a driven `rst` runs RESET; with no input nothing changes (R67, R92, R245, R260; the
list of inputs: notes/assumptions/13.md). -/
def Obligations.StepRunsPresentedInstruction : Prop :=
  ∀ (s : State) (port : Port) (bytes : List Byte) (rest : List Input), s.inputs = .word port bytes :: rest →
    (∀ i, decode s.cfg port bytes = .ok i → step s = exec i { s with inputs := rest }) ∧
    (∀ e, decode s.cfg port bytes = .error e → step s = .refused (.portRefuses e)) ∧
    step { s with inputs := [] } = .next { s with inputs := [] } ∧
    (∀ u, step { s with inputs := .rst u :: rest } = exec (.reset u) { s with inputs := rest })

/-- Words written out from the spec's encodings decode to their instructions, one for each port and code (R91, R92, R99
to R102). That the code is the first byte of a transaction, and what no port carries, is the model's choice
(notes/assumptions/10.md), and so is the building operation an image on the link port stands for (11.md). -/
def Obligations.SpecWordsDecode : Prop :=
  let c := Config.small
  decode c .txu [0x00, 0x41, 0x42] = .ok (.txMsg [0x41, 0x42]) ∧
  decode c .txu [0x01, 0x00, 0x40, 0x00, 0x40, 0, 0, 0, 0, 0, 0] =
    .ok (.txPktAck [0x00, 0x40, 0x00, 0x40, 0, 0, 0, 0, 0, 0]) ∧
  decode c .txu [0x01, 0x00, 0x40, 0x00, 0x40, 0, 0, 0x10, 0, 0, 0] =
    .ok (.txPktUnsafe [0x00, 0x40, 0x00, 0x40, 0, 0, 0x10, 0, 0, 0]) ∧
  decode c .txu [0x02] = .ok .txTmo ∧ decode c .txu [0x03] = .ok .txRsvd ∧
  decode c .rxu [0x01, 0x02, 0x03, 0x4A, 0x6C, 0, 0, 0x48, 0x69, 0, 0] =
    .ok (.rxPktData [0x02, 0x03, 0x4A, 0x6C, 0, 0, 0x48, 0x69, 0, 0]) ∧
  decode c .rxu [0x00, 0x41, 0x42] = .ok (.rxMsg [0x41, 0x42]) ∧
  decode c .rxu [0x02] = .ok .rxTmo ∧ decode c .rxu [0x03] = .ok .rxRsvd ∧
  decode c .link [0x02, 0x02, 0x4B, 0x4C, 0, 0, 0x49, 0x4A, 0, 0] = .ok (.mkData 2 [0x49, 0x4A]) ∧
  decode c .link [0x00, 0x7C, 0x00, 0x7C, 0, 0, 0, 0, 0, 0] = .ok (.mkAck 60) ∧
  decode c .timer [1] = .ok .tstart ∧ decode c .timer [0] = .ok .tstop ∧
  decode c .txu [0x04] = .error .codeTooWide ∧ decode c .rxu [0x01, 0x00] = .error .imageSize

/-- Decoding the transaction that presents a well-formed instruction gives it back, every operand whole (R91 to R98, R100,
R101; the byte form of a transaction is the model's choice, notes/assumptions/10.md). A PACK whose image is one of MKACK's
or MKDATA's decodes to that operation, and any other PACK to itself: no rule says so, it is the model's choice of the
order in which the three building operations are tried (11.md). -/
def Obligations.DecodeInvertsEncode : Prop :=
  ∀ (c : Config) (i : Instr) (port : Port) (bytes : List Byte), c.legal = true → i.wellFormed c = true →
    encode c i = some (port, bytes) →
    decode c port bytes = .ok i ∨
      ∃ l k q v pay, i = .pack l k q v pay ∧
        ((∃ n, n < 61 ∧ bytes = mkAck c n ∧ decode c port bytes = .ok (.mkAck n)) ∨
         (∃ n ch, n < 61 ∧ c.chunkFits ch = true ∧ bytes = mkData c n ch ∧
            decode c port bytes = .ok (.mkData n ch)))

/-- Whatever a port's bytes decode to is well formed and is presented by exactly those bytes: decoding drops no byte and
two transactions never stand for one instruction (R65, R100, R101, R107). -/
def Obligations.EncodeInvertsDecode : Prop :=
  ∀ (c : Config) (port : Port) (bytes : List Byte) (i : Instr), c.legal = true →
    decode c port bytes = .ok i → i.wellFormed c = true ∧ encode c i = some (port, bytes)

/-- A decoded command-port transaction is taken by the opcode table's row of its instruction and by no other row of that
port: the decode word under the row's mask, and the row's condition on the checksum (R100, R101, R102). -/
def Obligations.DecodedRowIsTheOnlyTableRow : Prop :=
  ∀ (c : Config) (port : Port) (bytes : List Byte) (i : Instr) (r : Decode.Row),
    (port = .txu ∨ port = .rxu) → decode c port bytes = .ok i → r ∈ Decode.rows →
    (r.takes c port bytes = true ↔ Decode.rowName i = some r.mnemonic)

/-! ### The Packet Codec -/

/-- ENCODE_CHECKSUM stores the checksum of the covered bytes little-endian at offsets 2 to 5, keeps every other byte, and
returns the value (R124; the byte order is the spec's decision D8). -/
def Obligations.EncodeChecksumStoresValue : Prop :=
  ∀ (s : State) (p : Image), p.length = s.cfg.pktSize → s.cfg.legal = true →
    ∃ p' v, exec (.encodeChecksum p) s = .next { s with trace := [], result := .imageAndSum p' v } ∧
      v = chk s.cfg (covered p) ∧ p'.length = p.length ∧ (∀ n, n < 2 ∨ 6 ≤ n → p'[n]? = p[n]?) ∧
      p'[2]? = some (v.extractLsb' 0 8) ∧ p'[3]? = some (v.extractLsb' 8 8) ∧
      p'[4]? = some (v.extractLsb' 16 8) ∧ p'[5]? = some (v.extractLsb' 24 8)

/-- VERIFY_CHECKSUM answers whether the recomputed checksum equals the stored field; it is read-only (R125). -/
def Obligations.VerifyComparesWithStoredField : Prop :=
  ∀ (s : State) (p : Image), p.length = s.cfg.pktSize →
    ∃ b, exec (.verifyChecksum p) s = .next { s with trace := [], result := .bool b } ∧
      (b = true ↔ chk s.cfg (covered p) = chkField p)

/-- An encoded image is safe, and an image is safe exactly when encoding it changes nothing, for every checksum function
(R126 (a), (d)). -/
def Obligations.SafeImagesAreTheEncodedOnes : Prop :=
  ∀ (c : Config) (p : Image), 6 ≤ p.length →
    verifyChecksum c (encodeChecksum c p).1 = true ∧
    (verifyChecksum c p = true ↔ (encodeChecksum c p).1 = p)

/-- Flipping one bit of the length byte, the kind and sequence byte or the payload of an encoded image makes it unsafe,
for every checksum function with property P2 (R122, R126 (b)). -/
def Obligations.SingleBitFlipIsDetected : Prop :=
  ∀ (c : Config) (p : Image) (n : Nat) (b : Byte) (k : Nat), c.legal = true → p.length = c.pktSize →
    SingleBitSensitive (c.pktSize - 4) (chk c) → (n < 2 ∨ 6 ≤ n) → (encodeChecksum c p).1[n]? = some b → k < 8 →
    verifyChecksum c ((encodeChecksum c p).1.set n (b ^^^ BitVec.twoPow 8 k)) = false

/-- Changing only bytes 2 to 5 of an encoded image makes it unsafe (R126 (c)). -/
def Obligations.ChecksumFieldChangeIsDetected : Prop :=
  ∀ (c : Config) (p q : Image), 6 ≤ p.length → q.length = p.length → q ≠ (encodeChecksum c p).1 →
    (∀ n, n < 2 ∨ 6 ≤ n → q[n]? = p[n]?) → verifyChecksum c q = false

/-- The default checksum has property P2 at every stream length (R123). -/
def Obligations.DefaultChecksumIsSingleBitSensitive : Prop :=
  ∀ n : Nat, SingleBitSensitive n wordSum16

/-- The accessors give back what PACK put in, and every image is PACK of its own fields; exec of PACK hands that image to
its caller (R98). -/
def Obligations.PackAndAccessorsInvert : Prop :=
  (∀ (s : State) (l : Byte) (k : Kind) (q : WireSeq) (v : Word32) (pay : List Byte), pay.length = s.cfg.maxPayload →
    exec (.pack l k q v pay) s = .next { s with trace := [], result := .image (packImage l k q v pay) } ∧
    lenField (packImage l k q v pay) = l ∧ kindField (packImage l k q v pay) = k ∧
    seqField (packImage l k q v pay) = q ∧ chkField (packImage l k q v pay) = v ∧
    payField (packImage l k q v pay) = pay) ∧
  (∀ p : Image, 6 ≤ p.length →
    packImage (lenField p) (kindField p) (seqField p) (chkField p) (payField p) = p)

/-- MKDATA builds a safe image of PKT_SIZE bytes: length byte, kind DATA, the number, the chunk, then zeros (R128; the
zeros are the spec's decision D10). -/
def Obligations.MkDataBuildsSafeImage : Prop :=
  ∀ (s : State) (n : Nat) (q : Chunk), s.cfg.legal = true → n < 61 → 1 ≤ q.length → q.length ≤ s.cfg.maxPayload →
    ∃ p, exec (.mkData n q) s = .next { s with trace := [], result := .image p } ∧
      p.length = s.cfg.pktSize ∧ (lenField p).toNat = q.length ∧ kindField p = 0 ∧ (seqField p).toNat = n ∧
      payField p = q ++ zeros (s.cfg.maxPayload - q.length) ∧ verifyChecksum s.cfg p = true

/-- MKACK builds a safe image of PKT_SIZE bytes: kind ACK, the number, length and payload zero (R129; the zeros are the
spec's decision D11). -/
def Obligations.MkAckBuildsSafeImage : Prop :=
  ∀ (s : State) (n : Nat), s.cfg.legal = true → n < 61 →
    ∃ p, exec (.mkAck n) s = .next { s with trace := [], result := .image p } ∧
      p.length = s.cfg.pktSize ∧ lenField p = 0 ∧ kindField p = 1 ∧ (seqField p).toNat = n ∧
      payField p = zeros s.cfg.maxPayload ∧ verifyChecksum s.cfg p = true

/-- CLAMP_LEN: unsigned, the smaller of the length byte and MaxPayload; signed, 0 for a byte of 128 and above (R127; which
of the two readings holds is the parameter LEN_SIGNED, decision D9). -/
def Obligations.ClampLenBoundsTheLengthByte : Prop :=
  ∀ (s : State) (p : Image), p.length = s.cfg.pktSize →
    ∃ n, exec (.clampLen p) s = .next { s with trace := [], result := .nat n } ∧
      (s.cfg.lenSigned = false → n = min (lenField p).toNat s.cfg.maxPayload) ∧
      (s.cfg.lenSigned = true → (lenField p).toNat < 128 → n = min (lenField p).toNat s.cfg.maxPayload) ∧
      (s.cfg.lenSigned = true → 128 ≤ (lenField p).toNat → n = 0)

/-- CHK of the default: the covered stream's 16-bit little-endian words added modulo 2^32, a last odd byte padded with
zero (R123); the word sum is stated here by the words themselves. -/
def Obligations.DefaultChecksumAddsWords : Prop :=
  ∀ (s : State) (stream : List Byte), stream.length = s.cfg.pktSize - 4 → s.cfg.chkChoice = .wordSum16 →
    ∃ v, exec (.chk stream) s = .next { s with trace := [], result := .word v } ∧
      v.toNat = ((List.range ((stream.length + 1) / 2)).map
        (fun j => (stream.getD (2 * j) 0).toNat + 256 * (stream.getD (2 * j + 1) 0).toNat)).sum % 2 ^ 32

/-! ### Sequence arithmetic and fragmentation -/

/-- SEQ_INC and SEQ_DEC step modulo 61 and undo each other (R160). -/
def Obligations.SequenceStepsModulo61 : Prop :=
  ∀ (s : State) (x : Nat), x < 61 →
    exec (.seqInc x) s = .next { s with trace := [], result := .nat (if x = 60 then 0 else x + 1) } ∧
    exec (.seqDec x) s = .next { s with trace := [], result := .nat (if x = 0 then 60 else x - 1) } ∧
    seqDec (seqInc x) = x ∧ seqInc (seqDec x) = x

/-- BETWEEN is membership in the circular half-open interval, wrapped or not; 61 to 63 are in none (R161). -/
def Obligations.BetweenIsCircularMembership : Prop :=
  ∀ (s : State) (lo x hi : Nat), lo < 61 → x < 64 → hi < 61 →
    ∃ b, exec (.between lo x hi) s = .next { s with trace := [], result := .bool b } ∧
      (b = true ↔ x ≤ 60 ∧ ((lo ≤ hi ∧ lo ≤ x ∧ x < hi) ∨ (hi < lo ∧ (lo ≤ x ∨ x < hi))))

/-- FRAGMENT cuts a message into chunks that join to it in order, as few as possible: every chunk full but the last
(R165; the sizes are the spec's decision D12). -/
def Obligations.FragmentsJoinToTheMessage : Prop :=
  ∀ (s : State) (m : Message), s.cfg.legal = true → s.cfg.messageFits m = true →
    ∃ qs, exec (.fragment m) s = .next { s with trace := [], result := .chunks qs } ∧ qs.flatten = m ∧
      (∀ q ∈ qs, 1 ≤ q.length ∧ q.length ≤ s.cfg.maxPayload) ∧
      (∀ n, n + 1 < qs.length → (qs.getD n []).length = s.cfg.maxPayload) ∧
      qs.length = (m.length + s.cfg.maxPayload - 1) / s.cfg.maxPayload

/-! ### Admission -/

/-- ADMIT with room: the chunk gets `next_to_send`, its slot is filled, the image sent, the timer started where the window
was empty, count and pointer advanced; nothing else changes (R168). -/
def Obligations.AdmitFillsNextSlotAndSends : Prop :=
  ∀ (s : State) (q : Chunk), s.cfg.chunkFits q = true → s.txu.outstandingCount < 5 →
    let n := s.txu.nextToSend
    let p := mkData s.cfg n q
    let first := decide (s.txu.outstandingCount = 0)
    exec (.admitChunk q) s = .next { s with
      txu := { s.txu with
        win := s.txu.win.write n p
        outstandingCount := s.txu.outstandingCount + 1
        nextToSend := (n + 1) % 61 }
      linkToRxu := s.linkToRxu ++ [p]
      timerRunning := s.timerRunning || first
      trace := .send p :: (if first then [.tstart s.txu.timeoutInterval] else []) }

/-- DRAIN moves the oldest `min(bc, 5 - oc)` FIFO entries into the window, in order, with consecutive numbers from
`next_to_send`; the first one starts the timer where the window was empty (R170). -/
def Obligations.DrainAdmitsWhileRoom : Prop :=
  ∀ s : State, s.txu.fifoCounted s.cfg = true → s.txu.nextToSend < 61 →
    let k := min s.txu.bufferedCount (5 - s.txu.outstandingCount)
    ∃ t, exec .drain s = .next t ∧
      t.txu.outstandingCount = s.txu.outstandingCount + k ∧ t.txu.bufferedCount = s.txu.bufferedCount - k ∧
      t.txu.fifo = s.txu.fifo.drop k ∧ t.txu.nextToSend = (s.txu.nextToSend + k) % 61 ∧
      t.txu.ackExpected = s.txu.ackExpected ∧ t.txu.timeoutInterval = s.txu.timeoutInterval ∧
      t.txu.control = s.txu.control ∧ t = { s with
        txu := t.txu, linkToRxu := t.linkToRxu, timerRunning := t.timerRunning, trace := t.trace } ∧
      t.timerRunning = (s.timerRunning || decide (s.txu.outstandingCount = 0 ∧ 0 < k)) ∧
      (5 ≤ t.txu.outstandingCount ∨ t.txu.bufferedCount = 0) ∧
      sends t.trace = (List.range k).map
        (fun i => mkData s.cfg ((s.txu.nextToSend + i) % 61) (s.txu.fifo.getD i [])) ∧
      timerBits t.trace = (if s.txu.outstandingCount = 0 ∧ 0 < k then [true] else []) ∧
      t.linkToRxu = s.linkToRxu ++ sends t.trace ∧
      (∀ i, i < k → t.txu.win.read ((s.txu.nextToSend + i) % 61) =
        some (mkData s.cfg ((s.txu.nextToSend + i) % 61) (s.txu.fifo.getD i []))) ∧
      (∀ n, (∀ i, i < k → n ≠ (s.txu.nextToSend + i) % 61) → t.txu.win.read n = s.txu.win.read n)

/-- ENQUEUE with room appends the chunk at the tail and counts it; it emits nothing and touches nothing else (R171). -/
def Obligations.EnqueueAppendsAtTail : Prop :=
  ∀ (s : State) (q : Chunk), s.cfg.chunkFits q = true → s.txu.bufferedCount < s.cfg.bufSize →
    exec (.enqueue q) s = .next { s with
      txu := { s.txu with fifo := s.txu.fifo ++ [q], bufferedCount := s.txu.bufferedCount + 1 }
      trace := [] }

/-- Without room ADMIT and ENQUEUE stop by name: their rules have no effect there (R168, R171: preconditions; the stop is
the model's, notes/assumptions/8.md). -/
def Obligations.AdmissionWithoutRoomStops : Prop :=
  ∀ (s : State) (q : Chunk), s.cfg.chunkFits q = true →
    (5 ≤ s.txu.outstandingCount → exec (.admitChunk q) s = .fault .admitWindowFull) ∧
    (s.cfg.bufSize ≤ s.txu.bufferedCount → exec (.enqueue q) s = .fault .enqueueFifoFull)

/-- The DRAIN inside TX.MSG is idle: under I4 and I6 it changes and emits nothing; each chunk step of TX.MSG, an ADMIT
with room or an ENQUEUE with a full window, keeps I4 and I6 (and I3), so that it is idle before every chunk; and from a
safe state TX.MSG does what its chunk loop does with the DRAIN left out (R174). -/
def Obligations.DrainInsideMsgIsIdle : Prop :=
  (∀ (c : Config) (t : Txu), t.fifoCounted c = true → t.bufferedOnlyWhenFull = true →
    t.drain c = (t, []) ∧
    (∀ q, t.outstandingCount < 5 →
      (t.admitChunk c q).1.fifoCounted c = true ∧ (t.admitChunk c q).1.bufferedOnlyWhenFull = true ∧
      (t.admitChunk c q).1.windowBounded = true) ∧
    (∀ q, c.chunkFits q = true → t.outstandingCount = 5 → t.bufferedCount < c.bufSize →
      (t.enqueue q).fifoCounted c = true ∧ (t.enqueue q).bufferedOnlyWhenFull = true ∧
      (t.enqueue q).windowBounded = true)) ∧
  (∀ (s : State) (m : Message), s.inv = true → s.cfg.messageFits m = true →
    let h := s.txu.takeWithoutDrain s.cfg 0 (fragment s.cfg m)
    exec (.txMsg m) s = .next (commit .txu { s with txu := h.1 } h.2))

/-- TX.MSG from a safe state: the first chunks go into the window while it has room, the next ones into the FIFO while it
has room, and the handler ends OK where all were taken, else OVERFLOW, with the number of bytes taken (R172, R173; what
becomes of the chunks an exhausted buffer leaves is the spec's decision D13). -/
def Obligations.MsgFillsWindowThenFifo : Prop :=
  ∀ (s : State) (m : Message), s.inv = true → s.cfg.messageFits m = true →
    let qs := fragment s.cfg m
    let a := min (5 - s.txu.outstandingCount) qs.length
    let b := min (s.cfg.bufSize - s.txu.bufferedCount) (qs.length - a)
    let n := s.txu.nextToSend
    ∃ t, exec (.txMsg m) s = .next t ∧
      t.txu.ackExpected = s.txu.ackExpected ∧ t.txu.nextToSend = (n + a) % 61 ∧
      t.txu.outstandingCount = s.txu.outstandingCount + a ∧
      t.txu.fifo = s.txu.fifo ++ (qs.drop a).take b ∧ t.txu.bufferedCount = s.txu.bufferedCount + b ∧
      (∀ i, i < a → t.txu.win.read ((n + i) % 61) = some (mkData s.cfg ((n + i) % 61) (qs.getD i []))) ∧
      (∀ k, (∀ i, i < a → k ≠ (n + i) % 61) → t.txu.win.read k = s.txu.win.read k) ∧
      sends t.trace = (List.range a).map (fun i => mkData s.cfg ((n + i) % 61) (qs.getD i [])) ∧
      timerBits t.trace = (if s.txu.outstandingCount = 0 ∧ 0 < a then [true] else []) ∧
      responses t.trace =
        [(if a + b = qs.length then 0 else 1, ((qs.take (a + b)).map List.length).sum)] ∧
      t.linkToRxu = s.linkToRxu ++ sends t.trace ∧
      t.timerRunning = (s.timerRunning || decide (s.txu.outstandingCount = 0 ∧ 0 < a))

/-- The bytes the sender holds grow, at their end, by exactly the accepted bytes of the message, in order (R176). -/
def Obligations.MsgAppendsAcceptedBytesToStream : Prop :=
  ∀ (s : State) (m : Message), s.inv = true → s.cfg.messageFits m = true →
    ∃ t st n, exec (.txMsg m) s = .next t ∧ responses t.trace = [(st, n)] ∧ n ≤ m.length ∧
      t.txu.stream = s.txu.stream ++ m.take n ∧ (st = 0 → n = m.length)

/-- TX.MSG of the empty message: no packet, `DONE(OK, 0)`, nothing else changes (R172; the spec's decision D12). -/
def Obligations.EmptyMessageSendsNothing : Prop :=
  ∀ s : State, s.txu.control = .idle → exec (.txMsg []) s = .next { s with trace := [.done .ok 0] }

/-- The producer presents its oldest message as TX.MSG; what an OVERFLOW leaves of it stays with the producer, as its
oldest message, or is given up, as the producer decides (R173, R238; the producer: notes/assumptions/15.md). -/
def Obligations.ProducerKeepsWhatOverflowLeaves : Prop :=
  ∀ (s : State) (m : Message) (ms : List Message) (again : Bool) (rest : List Input), s.inv = true →
    s.cfg.messageFits m = true → s.pending = m :: ms → s.inputs = .present again :: rest →
    ∃ t st n, exec (.txMsg m) { s with inputs := rest, pending := ms } = .next t ∧ t.pending = ms ∧
      responses t.trace = [(st, n)] ∧ (st = 1 ↔ n < m.length) ∧
      step s = .next (if again = true ∧ n < m.length then { t with pending := m.drop n :: ms } else t)

/-- TX.MSG with window and FIFO exhausted: `DONE(OVERFLOW, 0)`, nothing taken, nothing else changes (R173; D13). -/
def Obligations.ExhaustedBufferOverflows : Prop :=
  ∀ (s : State) (m : Message), s.txu.control = .idle → s.cfg.messageFits m = true → m ≠ [] →
    s.txu.outstandingCount = 5 → s.txu.bufferedCount = s.cfg.bufSize →
    exec (.txMsg m) s = .next { s with trace := [.done .overflow 0] }

/-! ### Acknowledgements and the timeout -/

/-- TX.PKT ignores an unsafe image and every safe image of a kind other than ACK: `DONE(OK, 0)`, state and timer
unchanged (R191). -/
def Obligations.NonAckPacketsAreIgnored : Prop :=
  ∀ (s : State) (p : Image) (i : Instr), s.txu.control = .idle → i.wellFormed s.cfg = true →
    (i = .txPktData p ∨ i = .txPktK2 p ∨ i = .txPktK3 p ∨ i = .txPktUnsafe p) →
    exec i s = .next { s with trace := [.done .ok 0] }

/-- A safe ACK inside the window: every packet up to its number leaves the window, the FIFO is drained into the room,
the timer is stopped first and runs again exactly where something is outstanding (R192, R193, R194, R196). -/
def Obligations.AckRetiresUpToItsNumber : Prop :=
  ∀ (s : State) (p : Image), s.inv = true → s.cfg.safeOfKind 1 p = true →
    between s.txu.ackExpected (seqField p).toNat s.txu.nextToSend = true →
    let r := ((seqField p).toNat + 61 - s.txu.ackExpected) % 61 + 1
    let left := s.txu.outstandingCount - r
    let k := min s.txu.bufferedCount (5 - left)
    r ≤ s.txu.outstandingCount ∧
    ∃ t, exec (.txPktAck p) s = .next t ∧
      t.txu.ackExpected = ((seqField p).toNat + 1) % 61 ∧ t.txu.outstandingCount = left + k ∧
      t.txu.nextToSend = (s.txu.nextToSend + k) % 61 ∧ t.txu.bufferedCount = s.txu.bufferedCount - k ∧
      t.txu.fifo = s.txu.fifo.drop k ∧
      sends t.trace = (List.range k).map
        (fun i => mkData s.cfg ((s.txu.nextToSend + i) % 61) (s.txu.fifo.getD i [])) ∧
      timerBits t.trace = [false] ++ (if left = 0 ∧ 0 < k then [true] else []) ++
        (if 0 < left + k then [true] else []) ∧
      t.trace.head? = some .tstop ∧ responses t.trace = [(0, 0)] ∧
      t.timerRunning = decide (0 < left + k) ∧ t.linkToRxu = s.linkToRxu ++ sends t.trace ∧
      (∀ n, (∀ i, i < k → n ≠ (s.txu.nextToSend + i) % 61) → t.txu.win.read n = s.txu.win.read n)

/-- What an acknowledgement takes from the bytes the sender holds is a prefix, the chunks of the retired packets; the
rest stays in order (R176, R193). -/
def Obligations.AckRemovesPrefixOfStream : Prop :=
  ∀ (s : State) (p : Image), s.inv = true → s.cfg.safeOfKind 1 p = true →
    between s.txu.ackExpected (seqField p).toNat s.txu.nextToSend = true →
    let r := ((seqField p).toNat + 61 - s.txu.ackExpected) % 61 + 1
    ∃ t, exec (.txPktAck p) s = .next t ∧
      s.txu.stream =
        ((List.range r).map (fun i => s.txu.win.chunkAt ((s.txu.ackExpected + i) % 61))).flatten ++ t.txu.stream

/-- A safe ACK outside the window retires and drains nothing; it stops the timer and restarts it where something is
outstanding (R195). -/
def Obligations.AckOutsideWindowOnlyRestartsTimer : Prop :=
  ∀ (s : State) (p : Image), s.inv = true → s.cfg.safeOfKind 1 p = true →
    between s.txu.ackExpected (seqField p).toNat s.txu.nextToSend = false →
    exec (.txPktAck p) s = .next { s with
      timerRunning := decide (0 < s.txu.outstandingCount)
      trace := [.tstop] ++ (if 0 < s.txu.outstandingCount then [.tstart s.txu.timeoutInterval] else []) ++
        [.done .ok 0] }

/-- TX.TMO resends the whole window in sequence order, each image as it was sent, and restarts the timer; no register, no
ring slot and no FIFO entry changes (R201, R203). -/
def Obligations.TimeoutResendsWholeWindow : Prop :=
  ∀ s : State, s.inv = true →
    let ps := (List.range s.txu.outstandingCount).map (fun i =>
      mkData s.cfg ((s.txu.ackExpected + i) % 61) (s.txu.win.chunkAt ((s.txu.ackExpected + i) % 61)))
    exec .txTmo s = .next { s with
      linkToRxu := s.linkToRxu ++ ps
      timerRunning := decide (0 < s.txu.outstandingCount)
      trace := [.tstop] ++ ps.map .send ++
        (if 0 < s.txu.outstandingCount then [.tstart s.txu.timeoutInterval] else []) ++ [.done .ok 0] } ∧
    (∀ i, i < s.txu.outstandingCount →
      s.txu.win.read ((s.txu.ackExpected + i) % 61) = ps[i]?)

/-- TX.TMO with nothing outstanding: `TSTOP; DONE(OK, 0)`, the timer left stopped, nothing else changes (R202). -/
def Obligations.SpuriousTimeoutOnlyStopsTimer : Prop :=
  ∀ s : State, s.txu.control = .idle → s.txu.outstandingCount = 0 →
    exec .txTmo s = .next { s with timerRunning := false, trace := [.tstop, .done .ok 0] }

/-- Reserved event codes at both ports: `DONE(BAD_OP, 0)` and nothing else (R106, R149, R205: the spec's decision D2). -/
def Obligations.ReservedCodesAnswerBadOp : Prop :=
  ∀ (s : State) (i : Instr) (m : Message), i.wellFormed s.cfg = true → s.txu.control = .idle →
    s.rxu.control = .idle → (i = .txRsvd ∨ i = .rxMsg m ∨ i = .rxTmo ∨ i = .rxRsvd) →
    exec i s = .next { s with trace := [.done .badOp 0] } ∧ Status.code .badOp = 2

/-! ### The receiver -/

/-- An unsafe packet is dropped whole: no ACK, no delivery, no state change (R142). -/
def Obligations.UnsafePacketIsDropped : Prop :=
  ∀ (s : State) (p : Image), s.rxu.control = .idle → p.length = s.cfg.pktSize → verifyChecksum s.cfg p = false →
    exec (.rxPktUnsafe p) s = .next { s with trace := [.done .ok 0] }

/-- A safe DATA packet with the expected number: the clamped payload is delivered, that number acknowledged, the register
stepped modulo 61, in this order; nothing else changes (R144, R145; an empty delivery is the spec's decision D26). -/
def Obligations.ExpectedPacketIsDeliveredAndAcked : Prop :=
  ∀ (s : State) (p : Image), s.rxu.control = .idle → s.cfg.safeOfKind 0 p = true →
    (seqField p).toNat = s.rxu.expectedSeq →
    let e := s.rxu.expectedSeq
    let q := (p.drop 6).take (clampLen s.cfg p)
    exec (.rxPktData p) s = .next { s with
      rxu := { s.rxu with expectedSeq := (e + 1) % 61 }
      delivered := s.delivered ++ [q]
      linkToTxu := s.linkToTxu ++ [mkAck s.cfg e]
      trace := [.deliver q, .send (mkAck s.cfg e), .done .ok 0] }

/-- A safe packet that is not the expected DATA packet (another number, 61 to 63 among them, or another kind) changes no
state and triggers exactly one duplicate ACK for the number before the expected one, 60 where it is 0 (R146). -/
def Obligations.OtherSafePacketsGetDuplicateAck : Prop :=
  ∀ (s : State) (p : Image) (i : Instr), s.rxu.control = .idle → s.rxu.expectedSeq < 61 →
    i.wellFormed s.cfg = true →
    ((i = .rxPktData p ∧ (seqField p).toNat ≠ s.rxu.expectedSeq) ∨ i = .rxPktAck p ∨ i = .rxPktK2 p ∨
      i = .rxPktK3 p) →
    let a := mkAck s.cfg (if s.rxu.expectedSeq = 0 then 60 else s.rxu.expectedSeq - 1)
    exec i s = .next { s with linkToTxu := s.linkToTxu ++ [a], trace := [.send a, .done .ok 0] }

/-- What the sender admits is what the receiver delivers: the DATA image of a chunk, taken with its number expected,
delivers exactly that chunk (R127, R128, R144). -/
def Obligations.DeliveredBytesAreTheAdmittedChunk : Prop :=
  ∀ (s : State) (q : Chunk), s.cfg.legal = true → s.cfg.chunkFits q = true → s.rxu.control = .idle →
    s.rxu.expectedSeq < 61 →
    ∃ t, exec (.rxPktData (mkData s.cfg s.rxu.expectedSeq q)) s = .next t ∧ t.delivered = s.delivered ++ [q] ∧
      t.linkToTxu = s.linkToTxu ++ [mkAck s.cfg s.rxu.expectedSeq] ∧
      t.rxu.expectedSeq = (s.rxu.expectedSeq + 1) % 61

/-! ### Frames and whole-machine rules -/

/-- An event at the TXU leaves everything of the receiver and of the other agents alone: `expected_seq`, the images to the
TXU, the deliveries, the pending messages, the parameters, and of the sender `timeout_interval` and the control state
(R20, R34, R41). -/
def Obligations.TxEventsLeaveReceiverAlone : Prop :=
  ∀ (i : Instr) (s t : State), i.atTxu = true → exec i s = .next t →
    t.rxu = s.rxu ∧ t.linkToTxu = s.linkToTxu ∧ t.delivered = s.delivered ∧ t.pending = s.pending ∧
    t.cfg = s.cfg ∧ t.inputs = s.inputs ∧ t.result = s.result ∧
    t.txu.timeoutInterval = s.txu.timeoutInterval ∧ t.txu.control = s.txu.control ∧
    (∃ ps, t.linkToRxu = s.linkToRxu ++ ps) ∧ deliveries t.trace = []

/-- An event at the RXU leaves the whole sender, its timer and its link direction alone, and emits no timer command (R34,
R41, R140, R208). -/
def Obligations.RxEventsLeaveSenderAlone : Prop :=
  ∀ (i : Instr) (s t : State), i.atRxu = true → exec i s = .next t →
    t.txu = s.txu ∧ t.timerRunning = s.timerRunning ∧ t.linkToRxu = s.linkToRxu ∧ t.pending = s.pending ∧
    t.cfg = s.cfg ∧ t.inputs = s.inputs ∧ t.result = s.result ∧ t.rxu.control = s.rxu.control ∧
    timerBits t.trace = []

/-- Every trace of an RX.PKT event has one of three shapes: `DONE`; `SEND, DONE`; `DELIVER, SEND, DONE`; and only the last
one moves `expected_seq` (R141, R150). -/
def Obligations.RxPacketTraceShapes : Prop :=
  ∀ (i : Instr) (p : Image) (s t : State), exec i s = .next t →
    (i = .rxPktData p ∨ i = .rxPktAck p ∨ i = .rxPktK2 p ∨ i = .rxPktK3 p ∨ i = .rxPktUnsafe p) →
    (t.trace = [.done .ok 0] ∧ t.rxu = s.rxu) ∨
    (∃ a, t.trace = [.send a, .done .ok 0] ∧ t.rxu = s.rxu) ∨
    (∃ q a, t.trace = [.deliver q, .send a, .done .ok 0] ∧
      t.rxu.expectedSeq = (s.rxu.expectedSeq + 1) % 61)

/-- The receiver learns nothing of the sender: two states that agree on the receiver and the parameters, whatever their
senders, timers and links hold, agree on them and on the trace after every RXU event, and on each of the receiver's
outputs, the deliveries and the images to the TXU, where they agreed on it before (R2, R34). -/
def Obligations.ReceiverIndependentOfSender : Prop :=
  ∀ (i : Instr) (s s' t : State), i.atRxu = true → s.rxu = s'.rxu → s.cfg = s'.cfg → exec i s = .next t →
    ∃ t', exec i s' = .next t' ∧ t'.rxu = t.rxu ∧ t'.cfg = t.cfg ∧ t'.trace = t.trace ∧
      (s.delivered = s'.delivered → t'.delivered = t.delivered) ∧
      (s.linkToTxu = s'.linkToTxu → t'.linkToTxu = t.linkToTxu)

/-- In the trace of an event at the TXU, TSTOP occurs at most once and first, `DONE` exactly once and last, and every
image sent is DATA with a number in 0..60 where the sender is safe (R16, R169, R208). -/
def Obligations.TxTraceDiscipline : Prop :=
  ∀ (i : Instr) (s t : State), i.atTxu = true → s.inv = true → exec i s = .next t →
    .tstop ∉ t.trace.tail ∧ (∃ tr st n, t.trace = tr ++ [.done st n] ∧ responses tr = []) ∧
    t.trace.all Action.sendsLegalData = true

/-- Operations without state touch nothing but the value handed to the caller (R41, R120). -/
def Obligations.ValueOperationsTouchNoState : Prop :=
  ∀ (i : Instr) (s t : State), exec i s = .next t →
    ((∃ l k q v pay, i = .pack l k q v pay) ∨ (∃ n q, i = .mkData n q) ∨ (∃ n, i = .mkAck n) ∨
      (∃ b, i = .chk b) ∨ (∃ p, i = .encodeChecksum p) ∨ (∃ p, i = .verifyChecksum p) ∨ (∃ p, i = .clampLen p) ∨
      (∃ x, i = .seqInc x) ∨ (∃ x, i = .seqDec x) ∨ (∃ lo x hi, i = .between lo x hi) ∨ (∃ m, i = .fragment m)) →
    t = { s with trace := [], result := t.result } ∧ t.result ≠ .none

/-- Every instruction completes: on well-formed operands, with its unit IDLE, with the room ADMIT and ENQUEUE ask of
their caller, and with the window's slots written where TX.TMO reads them, exec answers a next state, in which the
parameters, the inputs and the pending messages are as before (R107, R220; the preconditions: R168, R171, R43). -/
def Obligations.EveryInstructionCompletes : Prop :=
  ∀ (i : Instr) (s : State), i.wellFormed s.cfg = true → s.txu.control = .idle → s.rxu.control = .idle →
    (i = .txTmo → ∀ n ∈ s.txu.windowSlots, (s.txu.win.read n).isSome = true) →
    (∀ q, i = .admitChunk q → s.txu.outstandingCount < 5) →
    (∀ q, i = .enqueue q → s.txu.bufferedCount < s.cfg.bufSize) →
    ∃ t, exec i s = .next t ∧ t.cfg = s.cfg ∧ t.inputs = s.inputs ∧ t.pending = s.pending

/-- An event for a unit that is not IDLE has no step (R270), and neither has the reset of a unit that is not IDLE, nor the
joint reset while one of the two is not (R260, R262: the spec's decision D15). -/
def Obligations.BusyUnitTakesNoEvent : Prop :=
  ∀ (i : Instr) (s : State), i.wellFormed s.cfg = true →
    (i.atTxu = true → s.txu.control = .busy → exec i s = .refused (.unitBusy .txu)) ∧
    (i.atRxu = true → s.rxu.control = .busy → exec i s = .refused (.unitBusy .rxu)) ∧
    (s.txu.control = .busy → exec (.reset .txu) s = .refused (.unitBusy .txu)) ∧
    (s.rxu.control = .busy → exec (.reset .rxu) s = .refused (.unitBusy .rxu)) ∧
    (s.txu.control = .busy ∨ s.rxu.control = .busy → ∃ u, exec (.reset .system) s = .refused (.unitBusy u))

/-! ### Timer, reset, environment -/

/-- TSTART and TSTOP at the timer: it runs, it is stopped; TSTART carries `timeout_interval`; nothing else changes (R99,
R235). -/
def Obligations.TimerCommandsSetRunning : Prop :=
  ∀ s : State,
    exec .tstart s = .next { s with timerRunning := true, trace := [.tstart s.txu.timeoutInterval] } ∧
    exec .tstop s = .next { s with timerRunning := false, trace := [.tstop] }

/-- The timer fires exactly where it runs and the TXU is IDLE; firing stops it and runs TX.TMO in the same step (R236,
R237). -/
def Obligations.FiringRunsTimeoutInOneStep : Prop :=
  ∀ (s : State) (rest : List Input), s.inputs = .fire :: rest →
    (s.timerRunning = true → s.txu.control = .idle →
      step s = exec .txTmo { s with inputs := rest, timerRunning := false }) ∧
    (s.timerRunning = false ∨ s.txu.control = .busy → step s = .refused .moveNotEnabled)

/-- RESET of a unit that is IDLE, whatever the other unit does, and the joint reset: every state element of the unit takes
its value of R43, the TXU's timer stops with it, the joint reset also empties the link; no action is emitted (R260, R261,
R262: the spec's own decisions D14, D15). That the timer goes with its TXU is the model's inference
(notes/assumptions/16.md); that no reset touches the upper layers' lists, the result or the inputs is its choice (15.md,
7.md, 13.md). -/
def Obligations.ResetRestoresLaunchValues : Prop :=
  ∀ s : State,
    (s.txu.control = .idle → exec (.reset .txu) s =
      .next { s with txu := (State.resetWith s.cfg).txu, timerRunning := false, trace := [] }) ∧
    (s.rxu.control = .idle → exec (.reset .rxu) s =
      .next { s with rxu := (State.resetWith s.cfg).rxu, trace := [] }) ∧
    (s.txu.control = .idle → s.rxu.control = .idle → exec (.reset .system) s =
      .next { State.resetWith s.cfg with
        pending := s.pending, delivered := s.delivered, result := s.result, inputs := s.inputs })

/-- The link's moves, in each direction independently: it loses, copies and changes its `k`-th image without running a
handler, and a delivery of it, whichever images are older, is exactly a PKT event of the receiving unit; the images in the
other direction stay; a move on an image it does not hold is refused; and it holds back every image as long as it likes:
whatever step is not a move of that direction or the joint reset leaves the images there as they are and in their order,
and only adds what is sent (R232, R233; what the link may do is the spec's decision D21; the moves:
notes/assumptions/13.md, 14.md). -/
def Obligations.LinkMovesAreTheContracts : Prop :=
  ∀ (s : State) (u : Side) (k : Nat) (rest : List Input),
    let r : State := { s with inputs := rest }
    (∀ ps, (s.setInFlight u ps).inFlight u = ps ∧
      ∀ v, v ≠ u → (s.setInFlight u ps).inFlight v = s.inFlight v) ∧
    (∀ p, (s.inFlight u)[k]? = some p →
      (s.inputs = .drop u k :: rest →
        step s = .next { r.setInFlight u ((s.inFlight u).eraseIdx k) with trace := [] }) ∧
      (s.inputs = .duplicate u k :: rest →
        step s = .next { r.setInFlight u (s.inFlight u ++ [p]) with trace := [] }) ∧
      (∀ q, q.length = s.cfg.pktSize → s.inputs = .corrupt u k q :: rest →
        step s = .next { r.setInFlight u ((s.inFlight u).set k q) with trace := [] }) ∧
      (p.length = s.cfg.pktSize → s.inputs = .deliver u k :: rest →
        step s = exec (match u with
          | .rxu => Decode.rxPacket s.cfg p
          | .txu => Decode.txPacket s.cfg p) (r.setInFlight u ((s.inFlight u).eraseIdx k)))) ∧
    ((s.inFlight u)[k]? = none → ∀ q,
      (s.inputs = .drop u k :: rest ∨ s.inputs = .duplicate u k :: rest ∨ s.inputs = .corrupt u k q :: rest ∨
        s.inputs = .deliver u k :: rest) → step s = .refused .moveNotEnabled) ∧
    (∀ i t, s.inputs = i :: rest → i.movesLink u = false → step s = .next t →
      ∃ ps, t.inFlight u = s.inFlight u ++ ps)

/-- From a safe state the link's delivery of any image it holds, in any order, is always handled: no corruption stops
either unit (R107, R220, R222, R224). -/
def Obligations.EveryDeliveryIsHandled : Prop :=
  ∀ (s : State) (u : Side) (k : Nat) (rest : List Input), s.inv = true → k < (s.inFlight u).length →
    s.inputs = .deliver u k :: rest → ∃ t, step s = .next t

/-! ### Invariants -/

/-- The launch state is safe, for every legal choice of the parameters, its timer matches, its two ends are in order, and
nothing is accepted in it (R31, R43, R262: D14, D15). -/
def Obligations.ResetStateIsSafe : Prop :=
  ∀ c : Config, c.legal = true →
    (State.resetWith c).inv = true ∧ (State.resetWith c).timerMatches = true ∧
    (State.resetWith c).inOrder = true ∧ (State.resetWith c).accepted = []

/-- The invariants I1 to I6, the ring's canonical form, the receiver's range and the rest of `State.inv` are kept by every
step, whatever the environment does (R31, R22). -/
def Obligations.StepKeepsSafety : Prop :=
  ∀ s t : State, s.inv = true → step s = .next t → t.inv = true

/-- From a safe state no step ends in a fault, whatever the environment does (R31, R43, R220). -/
def Obligations.SafeStatesNeverFault : Prop :=
  ∀ (s : State) (f : Fault), s.inv = true → step s ≠ .fault f

/-- I7: from a safe state in which the timer matches, every step but one that presents a raw word on the timer port leaves
it matching, a spurious TX.TMO included (R31, R208). -/
def Obligations.StepKeepsTimerMatching : Prop :=
  ∀ s t : State, s.inv = true → s.timerMatches = true → (∀ bytes, s.inputs.head? ≠ some (.word .timer bytes)) →
    step s = .next t → t.timerMatches = true

/-! ### The stream, end to end -/

/-- While the link keeps each direction in order and changes images only into unsafe ones, whatever it loses and however
often the timer fires, every step keeps the two ends in order, and the accepted bytes grow, at their end, by exactly the
bytes the step accepted: none is lost, doubled or displaced (R144, R173, R176, R193, R201; the premises: R275, R276). -/
def Obligations.OrderlyStepKeepsStream : Prop :=
  ∀ s t : State, s.inv = true → s.inOrder = true → (∀ i, s.inputs.head? = some i → i.orderly s.cfg = true) →
    step s = .next t → t.inOrder = true ∧ t.accepted = s.accepted ++ s.takenInStep t

/-- From the launch state, under any such environment, after any number of steps, what the consumer has received is a
prefix of the accepted bytes, and all of them where the sender holds nothing (spec/95_test_vectors.md part 4, 6). -/
def Obligations.DeliveredIsPrefixOfAccepted : Prop :=
  ∀ (c : Config) (ins : List Input) (n : Nat) (t : State) (bytes : List Byte), c.legal = true →
    (∀ i ∈ ins, i.orderly c = true) → runSteps n { State.resetWith c with inputs := ins } = some (t, bytes) →
    t.delivered.flatten <+: bytes ∧
      (t.txu.outstandingCount = 0 → t.txu.bufferedCount = 0 → t.delivered.flatten = bytes)
end

