-- ==== Sys2Proof/Laws/Codec.lean ====
section
/-! SUPPORT. Sizes of the images and streams of the codec. -/

namespace Sys2Proof.Machine

@[simp] theorem zeros_length (n : Nat) : (zeros n).length = n := List.length_replicate

@[simp] theorem bytesLe32_length (v : Word32) : (bytesLe32 v).length = 4 := rfl

@[simp] theorem packImage_length (l : Byte) (k : Kind) (s : WireSeq) (v : Word32) (q : List Byte) :
    (packImage l k s v q).length = 6 + q.length := by
  simp [packImage]; omega

theorem covered_length {p : Image} (h : 6 ≤ p.length) : (covered p).length = p.length - 4 := by
  simp [covered, hdrSize]; omega

/-- ENCODE_CHECKSUM keeps the size of an image that has a header. -/
theorem encodeChecksum_length (c : Config) {p : Image} (h : 6 ≤ p.length) : (encodeChecksum c p).1.length = p.length := by
  simp [encodeChecksum, hdrSize]; omega

theorem legal_bounds {c : Config} (h : c.legal = true) :
    7 ≤ c.pktSize ∧ c.pktSize ≤ 261 ∧ c.maxPayload = c.pktSize - 6 ∧ 1 ≤ c.maxPayload ∧ c.maxPayload ≤ 255 ∧
      (c.lenSigned = true → c.maxPayload ≤ 127) := by
  unfold Config.legal at h
  unfold Config.maxPayload hdrSize at *
  cases hs : c.lenSigned <;> simp [hs] at h ⊢ <;> omega

theorem chunkFits_iff {c : Config} {q : Chunk} : c.chunkFits q = true ↔ 1 ≤ q.length ∧ q.length ≤ c.maxPayload := by
  simp only [Config.chunkFits, Bool.and_eq_true, decide_eq_true_eq]

theorem mkData_length {c : Config} (n : Nat) {q : Chunk} (h : c.legal = true) (hq : q.length ≤ c.maxPayload) :
    (mkData c n q).length = c.pktSize := by
  obtain ⟨h7, _, hm, _⟩ := legal_bounds h
  unfold mkData
  rw [encodeChecksum_length c (by simp)]
  simp; omega

theorem mkAck_length {c : Config} (n : Nat) (h : c.legal = true) : (mkAck c n).length = c.pktSize := by
  obtain ⟨h7, _, hm, _⟩ := legal_bounds h
  unfold mkAck
  rw [encodeChecksum_length c (by simp)]
  simp; omega

/-- ENCODE_CHECKSUM of an image with a header, byte by byte. -/
theorem encodeChecksum_cons (c : Config) (a b x0 x1 x2 x3 : Byte) (r : List Byte) :
    (encodeChecksum c (a :: b :: x0 :: x1 :: x2 :: x3 :: r)).1 = a :: b :: (bytesLe32 (chk c (a :: b :: r)) ++ r) := by
  simp [encodeChecksum, covered, hdrSize]

/-- Applying ENCODE_CHECKSUM twice gives the same image as once (R124). -/
theorem encodeChecksum_idem (c : Config) {p : Image} (h : 6 ≤ p.length) :
    (encodeChecksum c (encodeChecksum c p).1).1 = (encodeChecksum c p).1 := by
  match p, h with
  | a :: b :: x0 :: x1 :: x2 :: x3 :: r, _ =>
    rw [encodeChecksum_cons]
    simp only [bytesLe32, List.cons_append, List.nil_append]
    rw [encodeChecksum_cons]
    rfl

/-- A DATA image is a fixed point of ENCODE_CHECKSUM: a slot resent is the slot as stored (R201). -/
theorem encodeChecksum_mkData (c : Config) (n : Nat) (q : Chunk) : (encodeChecksum c (mkData c n q)).1 = mkData c n q :=
  encodeChecksum_idem c (by simp)

/-- The chunk a DATA image carries is the chunk it was built from (R91, R128). -/
theorem chunkOf_mkData {c : Config} (n : Nat) {q : Chunk} (h : c.legal = true) (hq : q.length ≤ c.maxPayload) :
    chunkOf (mkData c n q) = q := by
  have hb := legal_bounds h
  simp only [mkData, packImage, bytesLe32, List.cons_append, List.nil_append]
  rw [encodeChecksum_cons]
  have hl : q.length % 256 = q.length := Nat.mod_eq_of_lt (by omega)
  simp [chunkOf, payField, hdrSize, lenField, bytesLe32, hl]

end Sys2Proof.Machine
end

