-- ==== Sys2Proof/Laws/Sequence.lean ====
section
/-! SUPPORT. Sequence arithmetic modulo 61, as linear facts. -/

namespace Sys2Proof.Machine

theorem seqInc_lt (x : Nat) : seqInc x < 61 := Nat.mod_lt _ (by decide)

theorem seqDec_lt (x : Nat) : seqDec x < 61 := Nat.mod_lt _ (by decide)

theorem windowSeq_lt (a i : Nat) : windowSeq a i < 61 := Nat.mod_lt _ (by decide)

theorem seqDist_lt (lo x : Nat) : seqDist lo x < 61 := Nat.mod_lt _ (by decide)

/-- The distance, without a remainder. -/
theorem seqDist_eq {lo x : Nat} (hl : lo < 61) (hx : x < 61) : seqDist lo x = if lo ≤ x then x - lo else x + 61 - lo := by
  unfold seqDist modN
  split <;> omega

theorem seqInc_eq {x : Nat} (hx : x < 61) : seqInc x = if x = 60 then 0 else x + 1 := by
  unfold seqInc modN
  split <;> omega

theorem windowSeq_zero {a : Nat} (ha : a < 61) : windowSeq a 0 = a := by unfold windowSeq modN; omega

theorem windowSeq_seqInc (a i : Nat) : windowSeq (seqInc a) i = windowSeq a (i + 1) := by
  unfold windowSeq seqInc modN; omega

theorem windowSeq_inj {a i j : Nat} (hi : i < 61) (hj : j < 61) (h : windowSeq a i = windowSeq a j) : i = j := by
  unfold windowSeq modN at h; omega

/-- Membership in the circular interval, without a remainder. -/
theorem between_iff {lo x hi : Nat} (hl : lo < 61) (hh : hi < 61) :
    between lo x hi = true ↔ x < 61 ∧ ((lo ≤ hi ∧ lo ≤ x ∧ x < hi) ∨ (hi < lo ∧ (lo ≤ x ∨ x < hi))) := by
  unfold between modN
  simp only [Bool.and_eq_true, decide_eq_true_eq]
  constructor
  · rintro ⟨hx, h⟩
    rw [seqDist_eq hl hx, seqDist_eq hl hh] at h
    split at h <;> split at h <;> omega
  · rintro ⟨hx, h⟩
    refine ⟨hx, ?_⟩
    rw [seqDist_eq hl hx, seqDist_eq hl hh]
    split <;> split <;> omega

/-- The distance to the `i`-th number of a window is `i`. -/
theorem seqDist_windowSeq {a i : Nat} (ha : a < 61) (hi : i < 61) : seqDist a (windowSeq a i) = i := by
  rw [seqDist_eq ha (windowSeq_lt a i)]
  unfold windowSeq modN
  split <;> omega

end Sys2Proof.Machine
end

