-- ==== Sys2Proof/Laws/Ring.lean ====
section
/-! SUPPORT. The window ring: a load sees the last store to its slot and no other, a store keeps the canonical form, and
equal contents in canonical form are equal data. -/

namespace Sys2Proof.Machine

@[simp] theorem Ring.read_nil (n : Nat) : Ring.read [] n = none := rfl

/-- A load after a store to the same slot gives what was stored. -/
@[simp] theorem Ring.read_write_same (w : Ring) (n : Nat) (p : Image) : (w.write n p).read n = some p := by
  induction w with
  | nil => simp [Ring.write, Ring.read]
  | cons e w ih =>
    obtain ⟨a, q⟩ := e
    unfold Ring.write
    split
    · simp [Ring.read]
    · split
      · simp [Ring.read]
      · rename_i h1 h2
        simp [Ring.read, ih, Ne.symm h2]

/-- A store leaves every other slot alone. -/
theorem Ring.read_write_other (w : Ring) {n k : Nat} (p : Image) (h : k ≠ n) : (w.write n p).read k = w.read k := by
  induction w with
  | nil => simp [Ring.write, Ring.read, Ne.symm h]
  | cons e w ih =>
    obtain ⟨a, q⟩ := e
    unfold Ring.write
    split
    · simp [Ring.read, Ne.symm h]
    · split
      · rename_i h1 h2
        subst h2
        simp [Ring.read, Ne.symm h]
      · simp only [Ring.read]
        split
        · rfl
        · exact ih

/-- The canonical form, slot by slot. -/
theorem Ring.wf_cons {a : Nat} {q : Image} {w : Ring} :
    Ring.wf ((a, q) :: w) = true ↔ a < 61 ∧ (∀ e ∈ w, a < e.1) ∧ Ring.wf w = true := by
  induction w generalizing a q with
  | nil => simp [Ring.wf, modN]
  | cons e w ih =>
    obtain ⟨b, r⟩ := e
    rw [Ring.wf, Bool.and_eq_true, decide_eq_true_eq, ih]
    constructor
    · rintro ⟨hab, hb, hall, hw⟩
      refine ⟨by omega, ?_, hb, hall, hw⟩
      intro e he
      rcases List.mem_cons.1 he with rfl | he
      · exact hab
      · exact Nat.lt_trans hab (hall e he)
    · rintro ⟨ha, hall, hb, hall', hw⟩
      exact ⟨hall (b, r) (List.mem_cons_self ..), hb, hall', hw⟩

theorem Ring.mem_write {w : Ring} {n : Nat} {p : Image} {e : Nat × Image} (h : e ∈ w.write n p) : e = (n, p) ∨ e ∈ w := by
  induction w with
  | nil => simpa [Ring.write] using h
  | cons x w ih =>
    obtain ⟨a, q⟩ := x
    unfold Ring.write at h
    split at h
    · simpa using h
    · split at h
      · rcases List.mem_cons.1 h with rfl | h
        · exact .inl rfl
        · exact .inr (List.mem_cons_of_mem _ h)
      · rcases List.mem_cons.1 h with rfl | h
        · exact .inr (List.mem_cons_self ..)
        · rcases ih h with h | h
          · exact .inl h
          · exact .inr (List.mem_cons_of_mem _ h)

/-- A store to a slot below 61 keeps the canonical form. -/
theorem Ring.write_wf {w : Ring} {n : Nat} (p : Image) (hw : w.wf = true) (hn : n < 61) : (w.write n p).wf = true := by
  induction w with
  | nil => simpa [Ring.write, Ring.wf] using hn
  | cons e w ih =>
    obtain ⟨a, q⟩ := e
    obtain ⟨ha, hall, hw'⟩ := Ring.wf_cons.1 hw
    unfold Ring.write
    split
    · rename_i hlt
      refine Ring.wf_cons.2 ⟨hn, ?_, hw⟩
      intro e he
      rcases List.mem_cons.1 he with rfl | he
      · exact hlt
      · exact Nat.lt_trans hlt (hall e he)
    · split
      · rename_i h1 h2
        subst h2
        exact Ring.wf_cons.2 ⟨hn, hall, hw'⟩
      · rename_i h1 h2
        refine Ring.wf_cons.2 ⟨ha, ?_, ih hw'⟩
        intro e he
        rcases Ring.mem_write he with rfl | he
        · show a < n; omega
        · exact hall e he

/-- Storing what the slot holds changes nothing. -/
theorem Ring.write_read_same {w : Ring} {n : Nat} {p : Image} (hw : w.wf = true) (h : w.read n = some p) :
    w.write n p = w := by
  induction w with
  | nil => simp at h
  | cons e w ih =>
    obtain ⟨a, q⟩ := e
    obtain ⟨ha, hall, hw'⟩ := Ring.wf_cons.1 hw
    unfold Ring.read at h
    unfold Ring.write
    split at h
    · rename_i h1
      subst h1
      cases h
      simp
    · rename_i h1
      have hmem : ∀ (w : Ring), w.read n = some p → ∃ e ∈ w, e.1 = n := by
        intro w
        induction w with
        | nil => intro h; simp at h
        | cons e w ih =>
          intro h
          unfold Ring.read at h
          split at h
          · rename_i h2; exact ⟨e, List.mem_cons_self .., h2⟩
          · obtain ⟨x, hx, hn⟩ := ih h; exact ⟨x, List.mem_cons_of_mem _ hx, hn⟩
      obtain ⟨e, he, hn⟩ := hmem w h
      have := hall e he
      rw [if_neg (by omega), if_neg (by omega), ih hw' h]

/-- Where every stored image passes a test, so does every image loaded. -/
theorem Ring.read_mem {w : Ring} {n : Nat} {p : Image} (h : w.read n = some p) : (n, p) ∈ w := by
  induction w with
  | nil => simp at h
  | cons e w ih =>
    obtain ⟨a, q⟩ := e
    unfold Ring.read at h
    split at h
    · rename_i h1
      subst h1
      cases h
      exact List.mem_cons_self ..
    · exact List.mem_cons_of_mem _ (ih h)

end Sys2Proof.Machine
end

