-- ==== Sys2Proof/Laws/State.lean ====
section
/-! SUPPORT. What taking a trace of actions does to each field of the state: one lemma a field, in terms of what the ports
show of the trace. -/

namespace Sys2Proof.Machine

/-- The timer flag after a trace: the last timer command decides (R235). -/
def timerAfter (b : Bool) (tr : List Action) : Bool := (timerBits tr).getLast?.getD b

@[simp] theorem sends_nil : sends [] = [] := rfl
@[simp] theorem deliveries_nil : deliveries [] = [] := rfl
@[simp] theorem timerBits_nil : timerBits [] = [] := rfl
@[simp] theorem responses_nil : responses [] = [] := rfl
@[simp] theorem sends_send (p : Image) (tr) : sends (.send p :: tr) = p :: sends tr := rfl
@[simp] theorem sends_deliver (q) (tr) : sends (.deliver q :: tr) = sends tr := rfl
@[simp] theorem sends_tstart (d) (tr) : sends (.tstart d :: tr) = sends tr := rfl
@[simp] theorem sends_tstop (tr) : sends (.tstop :: tr) = sends tr := rfl
@[simp] theorem sends_done (st n) (tr) : sends (.done st n :: tr) = sends tr := rfl
@[simp] theorem deliveries_send (p : Image) (tr) : deliveries (.send p :: tr) = deliveries tr := rfl
@[simp] theorem deliveries_deliver (q) (tr) : deliveries (.deliver q :: tr) = q :: deliveries tr := rfl
@[simp] theorem deliveries_tstart (d) (tr) : deliveries (.tstart d :: tr) = deliveries tr := rfl
@[simp] theorem deliveries_tstop (tr) : deliveries (.tstop :: tr) = deliveries tr := rfl
@[simp] theorem deliveries_done (st n) (tr) : deliveries (.done st n :: tr) = deliveries tr := rfl
@[simp] theorem timerBits_send (p : Image) (tr) : timerBits (.send p :: tr) = timerBits tr := rfl
@[simp] theorem timerBits_deliver (q) (tr) : timerBits (.deliver q :: tr) = timerBits tr := rfl
@[simp] theorem timerBits_tstart (d) (tr) : timerBits (.tstart d :: tr) = true :: timerBits tr := rfl
@[simp] theorem timerBits_tstop (tr) : timerBits (.tstop :: tr) = false :: timerBits tr := rfl
@[simp] theorem timerBits_done (st n) (tr) : timerBits (.done st n :: tr) = timerBits tr := rfl
@[simp] theorem responses_send (p : Image) (tr) : responses (.send p :: tr) = responses tr := rfl
@[simp] theorem responses_deliver (q) (tr) : responses (.deliver q :: tr) = responses tr := rfl
@[simp] theorem responses_tstart (d) (tr) : responses (.tstart d :: tr) = responses tr := rfl
@[simp] theorem responses_tstop (tr) : responses (.tstop :: tr) = responses tr := rfl
@[simp] theorem responses_done (st n) (tr) : responses (.done st n :: tr) = (st.code, n) :: responses tr := rfl

@[simp] theorem sends_append (a b : List Action) : sends (a ++ b) = sends a ++ sends b := by
  induction a with
  | nil => rfl
  | cons x a ih => cases x <;> simp [ih]

@[simp] theorem deliveries_append (a b : List Action) : deliveries (a ++ b) = deliveries a ++ deliveries b := by
  induction a with
  | nil => rfl
  | cons x a ih => cases x <;> simp [ih]

@[simp] theorem timerBits_append (a b : List Action) : timerBits (a ++ b) = timerBits a ++ timerBits b := by
  induction a with
  | nil => rfl
  | cons x a ih => cases x <;> simp [ih]

@[simp] theorem responses_append (a b : List Action) : responses (a ++ b) = responses a ++ responses b := by
  induction a with
  | nil => rfl
  | cons x a ih => cases x <;> simp [ih]

@[simp] theorem sends_map_send (ps : List Image) : sends (ps.map .send) = ps := by
  induction ps with
  | nil => rfl
  | cons p ps ih => simp [ih]

@[simp] theorem deliveries_map_send (ps : List Image) : deliveries (ps.map .send) = [] := by
  induction ps with
  | nil => rfl
  | cons p ps ih => simp [ih]

@[simp] theorem timerBits_map_send (ps : List Image) : timerBits (ps.map .send) = [] := by
  induction ps with
  | nil => rfl
  | cons p ps ih => simp [ih]

@[simp] theorem responses_map_send (ps : List Image) : responses (ps.map .send) = [] := by
  induction ps with
  | nil => rfl
  | cons p ps ih => simp [ih]

/-- Everything a trace of the TXU does to the state, field by field. -/
theorem commit_txu (s : State) (tr : List Action) :
    commit .txu s tr = { s with
      linkToRxu := s.linkToRxu ++ sends tr
      delivered := s.delivered ++ deliveries tr
      timerRunning := timerAfter s.timerRunning tr
      trace := tr } := by
  have key : ∀ (tr : List Action) (s : State), tr.foldl (perform .txu) s = { s with
      linkToRxu := s.linkToRxu ++ sends tr
      delivered := s.delivered ++ deliveries tr
      timerRunning := timerAfter s.timerRunning tr } := by
    intro tr
    induction tr with
    | nil => intro s; simp [timerAfter]
    | cons x tr ih =>
      intro s
      cases x <;> simp [ih, perform, timerAfter, List.getLast?_cons]
  simp [commit, key]

/-- Everything a trace of the RXU does to the state, field by field. -/
theorem commit_rxu (s : State) (tr : List Action) :
    commit .rxu s tr = { s with
      linkToTxu := s.linkToTxu ++ sends tr
      delivered := s.delivered ++ deliveries tr
      timerRunning := timerAfter s.timerRunning tr
      trace := tr } := by
  have key : ∀ (tr : List Action) (s : State), tr.foldl (perform .rxu) s = { s with
      linkToTxu := s.linkToTxu ++ sends tr
      delivered := s.delivered ++ deliveries tr
      timerRunning := timerAfter s.timerRunning tr } := by
    intro tr
    induction tr with
    | nil => intro s; simp [timerAfter]
    | cons x tr ih =>
      intro s
      cases x <;> simp [ih, perform, timerAfter, List.getLast?_cons]
  simp [commit, key]

@[simp] theorem commit_trace (u : Side) (s : State) (tr : List Action) : (commit u s tr).trace = tr := rfl

@[simp] theorem commit_cfg (u : Side) (s : State) (tr : List Action) : (commit u s tr).cfg = s.cfg := by
  cases u <;> simp [commit_txu, commit_rxu]

@[simp] theorem commit_txu_field (u : Side) (s : State) (tr : List Action) : (commit u s tr).txu = s.txu := by
  cases u <;> simp [commit_txu, commit_rxu]

@[simp] theorem commit_rxu_field (u : Side) (s : State) (tr : List Action) : (commit u s tr).rxu = s.rxu := by
  cases u <;> simp [commit_txu, commit_rxu]

@[simp] theorem commit_pending (u : Side) (s : State) (tr : List Action) : (commit u s tr).pending = s.pending := by
  cases u <;> simp [commit_txu, commit_rxu]

@[simp] theorem commit_result (u : Side) (s : State) (tr : List Action) : (commit u s tr).result = s.result := by
  cases u <;> simp [commit_txu, commit_rxu]

@[simp] theorem commit_inputs (u : Side) (s : State) (tr : List Action) : (commit u s tr).inputs = s.inputs := by
  cases u <;> simp [commit_txu, commit_rxu]

@[simp] theorem setInFlight_cfg (s : State) (u : Side) (ps) : (s.setInFlight u ps).cfg = s.cfg := by cases u <;> rfl
@[simp] theorem setInFlight_txu (s : State) (u : Side) (ps) : (s.setInFlight u ps).txu = s.txu := by cases u <;> rfl
@[simp] theorem setInFlight_rxu (s : State) (u : Side) (ps) : (s.setInFlight u ps).rxu = s.rxu := by cases u <;> rfl
@[simp] theorem setInFlight_timerRunning (s : State) (u : Side) (ps) :
    (s.setInFlight u ps).timerRunning = s.timerRunning := by cases u <;> rfl
@[simp] theorem setInFlight_inFlight (s : State) (u : Side) (ps) : (s.setInFlight u ps).inFlight u = ps := by
  cases u <;> rfl

@[simp] theorem resetTxu_cfg (s : State) : (resetTxu s).cfg = s.cfg := rfl
@[simp] theorem resetTxu_txu (s : State) : (resetTxu s).txu = Txu.reset s.cfg := rfl
@[simp] theorem resetTxu_rxu (s : State) : (resetTxu s).rxu = s.rxu := rfl
@[simp] theorem resetTxu_timerRunning (s : State) : (resetTxu s).timerRunning = false := rfl
@[simp] theorem resetRxu_cfg (s : State) : (resetRxu s).cfg = s.cfg := rfl
@[simp] theorem resetRxu_txu (s : State) : (resetRxu s).txu = s.txu := rfl
@[simp] theorem resetRxu_rxu (s : State) : (resetRxu s).rxu = Rxu.reset := rfl
@[simp] theorem resetRxu_timerRunning (s : State) : (resetRxu s).timerRunning = s.timerRunning := rfl

/-- What an event at the TXU can answer (R270). -/
theorem runTxu_cases (i : Instr) (s : State) (h : Except Fault (Txu × List Action)) :
    (∃ t tr, i.wellFormed s.cfg = true ∧ s.txu.control = .idle ∧ h = .ok (t, tr) ∧
      runTxu i s h = .next (commit .txu { s with txu := t } tr)) ∨
    (∃ f, h = .error f ∧ runTxu i s h = .fault f) ∨
    (∃ r, runTxu i s h = .refused r) := by
  unfold runTxu
  split
  · rename_i hw
    split
    · exact .inr (.inr ⟨_, rfl⟩)
    · rename_i hc
      split
      · exact .inr (.inl ⟨_, rfl, rfl⟩)
      · exact .inl ⟨_, _, hw, hc, rfl, rfl⟩
  · exact .inr (.inr ⟨_, rfl⟩)

/-- An event at the TXU that answers a next state ran its handler from an IDLE unit on well-formed operands. -/
theorem runTxu_next {i : Instr} {s u : State} {h : Except Fault (Txu × List Action)} (hn : runTxu i s h = .next u) :
    ∃ t tr, i.wellFormed s.cfg = true ∧ s.txu.control = .idle ∧ h = .ok (t, tr) ∧
      u = commit .txu { s with txu := t } tr := by
  obtain ⟨t, tr, a, b, c, d⟩ | ⟨f, _, d⟩ | ⟨r, d⟩ := runTxu_cases i s h
  · rw [d] at hn; cases hn; exact ⟨t, tr, a, b, c, rfl⟩
  · rw [d] at hn; cases hn
  · rw [d] at hn; cases hn

theorem runTxu_idle {i : Instr} {s : State} {t : Txu} {tr : List Action} (hw : i.wellFormed s.cfg = true)
    (hc : s.txu.control = .idle) : runTxu i s (.ok (t, tr)) = .next (commit .txu { s with txu := t } tr) := by
  simp [runTxu, hw, hc]

/-- An event at the RXU that answers a next state ran its handler from an IDLE unit on well-formed operands. -/
theorem runRxu_next {i : Instr} {s u : State} {h : Rxu × List Action} (hn : runRxu i s h = .next u) :
    i.wellFormed s.cfg = true ∧ s.rxu.control = .idle ∧ u = commit .rxu { s with rxu := h.1 } h.2 := by
  unfold runRxu at hn
  split at hn
  · rename_i hw
    split at hn
    · cases hn
    · rename_i hc
      cases hn
      exact ⟨hw, hc, rfl⟩
  · cases hn

theorem runRxu_idle {i : Instr} {s : State} {h : Rxu × List Action} (hw : i.wellFormed s.cfg = true)
    (hc : s.rxu.control = .idle) : runRxu i s h = .next (commit .rxu { s with rxu := h.1 } h.2) := by
  simp [runRxu, hw, hc]

theorem runValue_next {i : Instr} {s u : State} {v : Value} (hn : runValue i s v = .next u) :
    i.wellFormed s.cfg = true ∧ u = { s with trace := [], result := v } := by
  unfold runValue at hn
  split at hn
  · rename_i hw; cases hn; exact ⟨hw, rfl⟩
  · cases hn

theorem runStep_next {i : Instr} {s u : State} {pre : Bool} {f : Fault} {h : Txu × List Action}
    (hn : runStep i s pre f h = .next u) :
    i.wellFormed s.cfg = true ∧ pre = true ∧ u = commit .txu { s with txu := h.1 } h.2 := by
  unfold runStep at hn
  split at hn
  · rename_i hw
    split at hn
    · rename_i hp; cases hn; exact ⟨hw, hp, rfl⟩
    · cases hn
  · cases hn

end Sys2Proof.Machine
end

