-- ==== Sys2Proof/Laws/Sender.lean ====
section
/-! SUPPORT. What the sender's shared operations do: admitting a list of chunks, DRAIN, the retire loop and the resend
loop, each said once. -/

namespace Sys2Proof.Machine

@[simp] theorem admitChunk_ackExpected (c : Config) (t : Txu) (q) : (t.admitChunk c q).1.ackExpected = t.ackExpected := rfl
@[simp] theorem admitChunk_nextToSend (c : Config) (t : Txu) (q) :
    (t.admitChunk c q).1.nextToSend = seqInc t.nextToSend := rfl
@[simp] theorem admitChunk_outstandingCount (c : Config) (t : Txu) (q) :
    (t.admitChunk c q).1.outstandingCount = t.outstandingCount + 1 := rfl
@[simp] theorem admitChunk_bufferedCount (c : Config) (t : Txu) (q) :
    (t.admitChunk c q).1.bufferedCount = t.bufferedCount := rfl
@[simp] theorem admitChunk_fifo (c : Config) (t : Txu) (q) : (t.admitChunk c q).1.fifo = t.fifo := rfl
@[simp] theorem admitChunk_timeoutInterval (c : Config) (t : Txu) (q) :
    (t.admitChunk c q).1.timeoutInterval = t.timeoutInterval := rfl
@[simp] theorem admitChunk_control (c : Config) (t : Txu) (q) : (t.admitChunk c q).1.control = t.control := rfl
@[simp] theorem admitChunk_win (c : Config) (t : Txu) (q) :
    (t.admitChunk c q).1.win = t.win.write t.nextToSend (mkData c t.nextToSend q) := rfl

@[simp] theorem enqueue_ackExpected (t : Txu) (q) : (t.enqueue q).ackExpected = t.ackExpected := rfl
@[simp] theorem enqueue_nextToSend (t : Txu) (q) : (t.enqueue q).nextToSend = t.nextToSend := rfl
@[simp] theorem enqueue_outstandingCount (t : Txu) (q) : (t.enqueue q).outstandingCount = t.outstandingCount := rfl
@[simp] theorem enqueue_bufferedCount (t : Txu) (q) : (t.enqueue q).bufferedCount = t.bufferedCount + 1 := rfl
@[simp] theorem enqueue_fifo (t : Txu) (q) : (t.enqueue q).fifo = t.fifo ++ [q] := rfl
@[simp] theorem enqueue_win (t : Txu) (q) : (t.enqueue q).win = t.win := rfl
@[simp] theorem enqueue_timeoutInterval (t : Txu) (q) : (t.enqueue q).timeoutInterval = t.timeoutInterval := rfl
@[simp] theorem enqueue_control (t : Txu) (q) : (t.enqueue q).control = t.control := rfl

/-- `t'` and `tr` are what admitting the chunks `qs` in order from `t` gives; the FIFO is not spoken of. -/
structure Admits (c : Config) (t : Txu) (qs : List Chunk) (t' : Txu) (tr : List Action) : Prop where
  ackExpected : t'.ackExpected = t.ackExpected
  nextToSend : t'.nextToSend = (t.nextToSend + qs.length) % 61
  outstandingCount : t'.outstandingCount = t.outstandingCount + qs.length
  timeoutInterval : t'.timeoutInterval = t.timeoutInterval
  control : t'.control = t.control
  stored : ∀ i, i < qs.length → t'.win.read ((t.nextToSend + i) % 61) =
    some (mkData c ((t.nextToSend + i) % 61) (qs.getD i []))
  kept : ∀ n, (∀ i, i < qs.length → n ≠ (t.nextToSend + i) % 61) → t'.win.read n = t.win.read n
  canonical : t.win.wf = true → t'.win.wf = true
  images : ∀ e ∈ t'.win, e ∈ t.win ∨ ∃ n q, q ∈ qs ∧ e.2 = mkData c n q
  sent : sends tr = (List.range qs.length).map (fun i => mkData c ((t.nextToSend + i) % 61) (qs.getD i []))
  timer : timerBits tr = if t.outstandingCount = 0 ∧ 0 < qs.length then [true] else []
  response : responses tr = []
  delivery : deliveries tr = []
  noStop : Action.tstop ∉ tr

theorem Admits.nil (c : Config) {t : Txu} (h : t.nextToSend < 61) : Admits c t [] t [] where
  ackExpected := rfl
  nextToSend := (Nat.mod_eq_of_lt h).symm
  outstandingCount := rfl
  timeoutInterval := rfl
  control := rfl
  stored := by simp
  kept := by simp
  canonical := id
  images := fun _ h => .inl h
  sent := rfl
  timer := by simp
  response := rfl
  delivery := rfl
  noStop := by simp

/-- The trace of one ADMIT. -/
theorem admitChunk_trace (c : Config) (t : Txu) (q : Chunk) :
    (t.admitChunk c q).2 = .send (mkData c t.nextToSend q) ::
      (if t.outstandingCount = 0 then [.tstart t.timeoutInterval] else []) := by
  simp [Txu.admitChunk, Txu.winEmpty]

/-- Admitting one chunk and then the others. -/
theorem Admits.cons {c : Config} {t t' : Txu} {q : Chunk} {qs : List Chunk} {tr : List Action} (hn : t.nextToSend < 61)
    (hlen : qs.length < 60) (h : Admits c (t.admitChunk c q).1 qs t' tr) :
    Admits c t (q :: qs) t' ((t.admitChunk c q).2 ++ tr) := by
  have shift : ∀ i, ((t.nextToSend + 1) % 61 + i) % 61 = (t.nextToSend + (i + 1)) % 61 := by intro i; omega
  have ns1 : (t.admitChunk c q).1.nextToSend = (t.nextToSend + 1) % 61 := rfl
  constructor
  · rw [h.ackExpected]; rfl
  · rw [h.nextToSend, ns1]; simp only [List.length_cons]; omega
  · rw [h.outstandingCount]; simp; omega
  · rw [h.timeoutInterval]; rfl
  · rw [h.control]; rfl
  · intro i hi
    cases i with
    | zero =>
      rw [h.kept]
      · simp [Nat.mod_eq_of_lt hn]
      · intro j hj; rw [ns1]; simp only [Nat.add_zero]; omega
    | succ i =>
      have := h.stored i (by simpa using hi)
      rw [ns1, shift] at this
      simpa using this
  · intro n hne
    rw [h.kept]
    · have := hne 0 (by simp)
      simp only [Nat.add_zero, Nat.mod_eq_of_lt hn] at this
      rw [admitChunk_win, Ring.read_write_other _ _ this]
    · intro j hj
      rw [ns1, shift]
      exact hne (j + 1) (by simpa using hj)
  · intro hw; exact h.canonical (Ring.write_wf _ hw hn)
  · intro e he
    rcases h.images e he with h1 | ⟨n, x, hx, he⟩
    · rcases Ring.mem_write h1 with rfl | h1
      · exact .inr ⟨_, q, by simp, rfl⟩
      · exact .inl h1
    · exact .inr ⟨n, x, List.mem_cons_of_mem _ hx, he⟩
  · rw [sends_append, h.sent, admitChunk_trace, List.length_cons, List.range_succ_eq_map]
    simp only [ns1, shift]
    split <;> simp [Function.comp_def, Nat.mod_eq_of_lt hn]
  · rw [timerBits_append, h.timer, admitChunk_trace]
    split <;> simp_all
  · rw [responses_append, h.response, admitChunk_trace]
    split <;> simp
  · rw [deliveries_append, h.delivery, admitChunk_trace]
    split <;> simp
  · rw [admitChunk_trace]
    have := h.noStop
    split <;> simp_all

/-- DRAIN: what it admits, and what it leaves in the FIFO. -/
theorem drain_admits (c : Config) (t : Txu) (hb : t.bufferedCount = t.fifo.length) (hn : t.nextToSend < 61) :
    Admits c t (t.fifo.take (5 - t.outstandingCount)) (t.drain c).1 (t.drain c).2 ∧
      (t.drain c).1.fifo = t.fifo.drop (5 - t.outstandingCount) ∧
      (t.drain c).1.bufferedCount = t.bufferedCount - min t.fifo.length (5 - t.outstandingCount) := by
  suffices H : ∀ (qs : List Chunk) (t : Txu), t.fifo = qs → t.bufferedCount = qs.length → t.nextToSend < 61 →
      Admits c t (qs.take (5 - t.outstandingCount)) (t.drainFrom c qs).1 (t.drainFrom c qs).2 ∧
      (t.drainFrom c qs).1.fifo = qs.drop (5 - t.outstandingCount) ∧
      (t.drainFrom c qs).1.bufferedCount = t.bufferedCount - min qs.length (5 - t.outstandingCount) from
    H t.fifo t rfl hb hn
  intro qs
  induction qs with
  | nil =>
    intro t hf _ hn
    simp only [Txu.drainFrom, List.take_nil, List.drop_nil]
    exact ⟨Admits.nil c hn, hf, by simp⟩
  | cons q qs ih =>
    intro t hf hb hn
    simp only [Txu.drainFrom]
    by_cases hr : t.outstandingCount < 5
    · have hcond : (t.winRoom && t.fifoNonempty) = true := by
        simp [Txu.winRoom, Txu.fifoNonempty, windowSize, hr, hb]
      rw [if_pos hcond]
      obtain ⟨k, hk⟩ : ∃ k, 5 - t.outstandingCount = k + 1 := ⟨4 - t.outstandingCount, by omega⟩
      have hk' : 5 - (t.outstandingCount + 1) = k := by omega
      obtain ⟨h1, h2, h3⟩ := ih (Txu.admitChunk c { t with fifo := qs, bufferedCount := t.bufferedCount - 1 } q).1 rfl
        (by simp [hb]) (seqInc_lt _)
      simp only [admitChunk_outstandingCount, hk'] at h1 h2 h3
      rw [hk, List.take_succ_cons, List.drop_succ_cons]
      refine ⟨?_, h2, ?_⟩
      · have hlen : (qs.take k).length < 60 := by simp; omega
        have h4 := Admits.cons (t := { t with fifo := qs, bufferedCount := t.bufferedCount - 1 }) hn hlen h1
        exact ⟨h4.ackExpected, h4.nextToSend, h4.outstandingCount, h4.timeoutInterval, h4.control, h4.stored, h4.kept,
          h4.canonical, h4.images, h4.sent, h4.timer, h4.response, h4.delivery, h4.noStop⟩
      · rw [h3]; simp only [List.length_cons, admitChunk_bufferedCount]; rw [hb]; simp only [List.length_cons]; omega
    · have hcond : (t.winRoom && t.fifoNonempty) = false := by simp [Txu.winRoom, windowSize, hr]
      have hz : 5 - t.outstandingCount = 0 := by omega
      rw [if_neg (by simp [hcond]), hz]
      simp only [List.take_zero, List.drop_zero]
      exact ⟨Admits.nil c hn, hf, by simp⟩

/-- DRAIN with a full window or an empty FIFO does nothing. -/
theorem drain_of_full (c : Config) {t : Txu} (h : 5 ≤ t.outstandingCount ∨ t.fifo = []) : t.drain c = (t, []) := by
  unfold Txu.drain
  cases hf : t.fifo with
  | nil => rfl
  | cons q qs =>
    have : ¬ t.outstandingCount < 5 := by
      rcases h with h | h
      · omega
      · rw [hf] at h; cases h
    simp [Txu.drainFrom, Txu.winRoom, windowSize, this]

/-- The retire loop, when the number is the window's `i`-th: it runs `i + 1` times. -/
theorem retire_inside (t : Txu) (i fuel : Nat) (ha : t.ackExpected < 61) (hn : t.nextToSend < 61)
    (hi : i < seqDist t.ackExpected t.nextToSend) (hf : i + 1 < fuel) :
    t.retire (windowSeq t.ackExpected i) fuel =
      { t with ackExpected := windowSeq t.ackExpected (i + 1), outstandingCount := t.outstandingCount - (i + 1) } := by
  induction i generalizing t fuel with
  | zero =>
    obtain ⟨f, rfl⟩ : ∃ f, fuel = f + 2 := ⟨fuel - 2, by omega⟩
    have h1 : between t.ackExpected (windowSeq t.ackExpected 0) t.nextToSend = true := by
      simp [between, windowSeq_lt, modN, seqDist_windowSeq ha, hi]
    have h2 : between (seqInc t.ackExpected) (windowSeq t.ackExpected 0) t.nextToSend = false := by
      rw [Bool.eq_false_iff, ne_eq, between_iff (seqInc_lt _) hn, windowSeq_zero ha, seqInc_eq ha]
      rw [seqDist_eq ha hn] at hi
      split at hi <;> split <;> omega
    simp only [Txu.retire, h1, if_true, h2]
    rfl
  | succ i ih =>
    obtain ⟨f, rfl⟩ : ∃ f, fuel = f + 1 := ⟨fuel - 1, by omega⟩
    have hd := seqDist_lt t.ackExpected t.nextToSend
    have h1 : between t.ackExpected (windowSeq t.ackExpected (i + 1)) t.nextToSend = true := by
      have := windowSeq_lt t.ackExpected (i + 1)
      simp only [between, modN, seqDist_windowSeq ha (show i + 1 < 61 by omega), this, decide_true, Bool.true_and,
        decide_eq_true_eq]
      exact hi
    simp only [Txu.retire, h1, if_true]
    have h3 := ih { t with ackExpected := seqInc t.ackExpected, outstandingCount := t.outstandingCount - 1 } f
      (seqInc_lt _) hn
      (by
        show i < seqDist (seqInc t.ackExpected) t.nextToSend
        rw [seqDist_eq (seqInc_lt _) hn, seqInc_eq ha]
        rw [seqDist_eq ha hn] at hi
        split at hi <;> split <;> split <;> omega)
      (by omega)
    simp only [windowSeq_seqInc] at h3
    rw [h3]
    simp only [Txu.mk.injEq, true_and, and_true]
    omega

/-- The retire loop outside the window does nothing. -/
theorem retire_outside (t : Txu) (s fuel : Nat) (h : between t.ackExpected s t.nextToSend = false) :
    t.retire s fuel = t := by
  cases fuel <;> simp [Txu.retire, h]

/-- The resend loop over slots that hold safe images, in a canonical ring: the ring stays, the images go out in order. -/
theorem resendSlots_safe (c : Config) (w : Ring) (slots : List Nat) (img : Nat → Image) (hw : w.wf = true)
    (h : ∀ n ∈ slots, w.read n = some (img n) ∧ (encodeChecksum c (img n)).1 = img n) :
    resendSlots c w slots = .ok (w, slots.map (fun n => .send (img n))) := by
  induction slots with
  | nil => rfl
  | cons n slots ih =>
    obtain ⟨h1, h2⟩ := h n (List.mem_cons_self ..)
    have ih' := ih (fun k hk => h k (List.mem_cons_of_mem _ hk))
    simp only [resendSlots, h1, h2, Ring.write_read_same hw h1, ih', List.map_cons]

/-- The resend loop faults only at a slot nothing has written. -/
theorem resendSlots_total (c : Config) (w : Ring) (slots : List Nat) (h : ∀ n ∈ slots, (w.read n).isSome = true) :
    ∃ w' tr, resendSlots c w slots = .ok (w', tr) := by
  induction slots generalizing w with
  | nil => exact ⟨_, _, rfl⟩
  | cons n slots ih =>
    obtain ⟨p, hp⟩ := Option.isSome_iff_exists.1 (h n (List.mem_cons_self ..))
    obtain ⟨w', tr, e⟩ := ih (w.write n (encodeChecksum c p).1) (by
      intro k hk
      by_cases hkn : k = n
      · subst hkn; simp
      · rw [Ring.read_write_other _ _ hkn]; exact h k (List.mem_cons_of_mem _ hk))
    exact ⟨w', .send (encodeChecksum c p).1 :: tr, by simp only [resendSlots, hp, e]⟩

end Sys2Proof.Machine
end

