-- ==== Sys2Proof/Laws/Safety.lean ====
section
/-! SUPPORT. The invariants as propositions, one field each, and the decidable forms equal to them. -/

namespace Sys2Proof.Machine

/-- The sender's invariants but I6, field by field: what holds in the middle of a handler too (R31). -/
structure Txu.Core (c : Config) (t : Txu) : Prop where
  ackLt : t.ackExpected < 61
  nextLt : t.nextToSend < 61
  count : t.outstandingCount = seqDist t.ackExpected t.nextToSend
  bounded : t.outstandingCount ≤ 5
  fifoLen : t.bufferedCount = t.fifo.length
  fifoCap : t.bufferedCount ≤ c.bufSize
  fifoChunks : ∀ q ∈ t.fifo, 1 ≤ q.length ∧ q.length ≤ c.maxPayload
  slots : ∀ i, i < t.outstandingCount → ∃ q, (1 ≤ q.length ∧ q.length ≤ c.maxPayload) ∧
    t.win.read (windowSeq t.ackExpected i) = some (mkData c (windowSeq t.ackExpected i) q)
  canonical : t.win.wf = true
  images : ∀ e ∈ t.win, e.2.length = c.pktSize
  interval : t.timeoutInterval = c.timeout

/-- The sender's invariants at the end of a handler (R31). -/
structure Txu.Safe (c : Config) (t : Txu) : Prop extends Txu.Core c t where
  full : 0 < t.bufferedCount → t.outstandingCount = 5

/-- A slot that holds some chunk's image. -/
theorem slotHolds_iff {c : Config} (h : c.legal = true) {w : Ring} {n : Nat} :
    slotHolds c w n = true ↔ ∃ q, (1 ≤ q.length ∧ q.length ≤ c.maxPayload) ∧ w.read n = some (mkData c n q) := by
  unfold slotHolds
  cases hr : w.read n with
  | none => simp
  | some p =>
    simp only [Bool.and_eq_true, decide_eq_true_eq, chunkFits_iff, Option.some.injEq]
    constructor
    · rintro ⟨h1, h2⟩; exact ⟨chunkOf p, h1, h2⟩
    · rintro ⟨q, h1, h2⟩
      have := chunkOf_mkData n h h1.2
      rw [← h2] at this
      rw [this]
      exact ⟨h1, h2⟩

/-- The sender's decidable invariant is the conjunction of the propositions. -/
theorem Txu.inv_iff {c : Config} (h : c.legal = true) (t : Txu) : t.inv c = true ↔ Txu.Safe c t := by
  unfold Txu.inv Txu.pointersInRange Txu.countIsDistance Txu.windowBounded Txu.fifoCounted Txu.windowHolds
    Txu.bufferedOnlyWhenFull Txu.windowSlots modN windowSize
  simp only [Bool.and_eq_true, decide_eq_true_eq, List.all_eq_true, List.mem_map, List.mem_range, slotHolds_iff h,
    chunkFits_iff, Config.imageFits]
  constructor
  · rintro ⟨⟨⟨⟨⟨⟨⟨⟨⟨a, b⟩, d⟩, e⟩, ⟨f, g⟩, i⟩, j⟩, k⟩, l⟩, m⟩, n⟩
    exact ⟨⟨a, b, d, e, f, g, i, fun x hx => j _ ⟨x, hx, rfl⟩, l, m, n⟩, k⟩
  · rintro ⟨⟨a, b, d, e, f, g, i, j, l, m, n⟩, k⟩
    exact ⟨⟨⟨⟨⟨⟨⟨⟨⟨a, b⟩, d⟩, e⟩, ⟨f, g⟩, i⟩, by rintro _ ⟨x, hx, rfl⟩; exact j x hx⟩, k⟩, l⟩, m⟩, n⟩

/-- The number after the window is `next_to_send`. -/
theorem Txu.Core.next_eq {c : Config} {t : Txu} (h : Txu.Core c t) :
    t.nextToSend = windowSeq t.ackExpected t.outstandingCount := by
  have h1 := h.ackLt
  have h2 := h.nextLt
  rw [h.count, seqDist_eq h1 h2]
  unfold windowSeq modN
  split <;> omega

/-- Admitting chunks within the window keeps the invariants; the FIFO is the caller's concern. -/
theorem Txu.Core.admits {c : Config} {t t' : Txu} {qs : List Chunk} {tr : List Action} (hl : c.legal = true)
    (h : Txu.Core c t) (ha : Admits c t qs t' tr) (hroom : t.outstandingCount + qs.length ≤ 5)
    (hq : ∀ q ∈ qs, 1 ≤ q.length ∧ q.length ≤ c.maxPayload) (f1 : t'.bufferedCount = t'.fifo.length)
    (f2 : t'.bufferedCount ≤ c.bufSize) (f3 : ∀ q ∈ t'.fifo, 1 ≤ q.length ∧ q.length ≤ c.maxPayload) :
    Txu.Core c t' where
  ackLt := by rw [ha.ackExpected]; exact h.ackLt
  nextLt := by rw [ha.nextToSend]; exact Nat.mod_lt _ (by decide)
  count := by
    have h1 := h.ackLt
    have h2 := h.next_eq
    rw [ha.outstandingCount, ha.nextToSend, ha.ackExpected, seqDist_eq h1 (Nat.mod_lt _ (by decide)), h2]
    unfold windowSeq modN
    split <;> omega
  bounded := by rw [ha.outstandingCount]; exact hroom
  fifoLen := f1
  fifoCap := f2
  fifoChunks := f3
  slots := by
    intro i hi
    rw [ha.outstandingCount] at hi
    rw [ha.ackExpected]
    have hne := h.next_eq
    by_cases hold : i < t.outstandingCount
    · obtain ⟨q, h1, h2⟩ := h.slots i hold
      refine ⟨q, h1, ?_⟩
      rw [ha.kept, h2]
      intro j hj
      rw [hne]
      unfold windowSeq modN
      omega
    · obtain ⟨j, rfl⟩ : ∃ j, i = t.outstandingCount + j := ⟨i - t.outstandingCount, by omega⟩
      have hj : j < qs.length := by omega
      have := ha.stored j hj
      have he : (t.nextToSend + j) % 61 = windowSeq t.ackExpected (t.outstandingCount + j) := by
        rw [hne]; unfold windowSeq modN; omega
      rw [he] at this
      exact ⟨qs.getD j [], hq _ (by simp [List.getD, List.getElem?_eq_getElem hj]), this⟩
  canonical := ha.canonical h.canonical
  images := by
    intro e he
    rcases ha.images e he with h1 | ⟨n, q, h1, h2⟩
    · exact h.images e h1
    · rw [h2]; exact mkData_length n hl (hq q h1).2
  interval := by rw [ha.timeoutInterval]; exact h.interval

/-- The whole state's invariants, field by field. -/
structure State.Safe (s : State) : Prop where
  legal : s.cfg.legal = true
  txu : Txu.Safe s.cfg s.txu
  expectedLt : s.rxu.expectedSeq < 61
  txuIdle : s.txu.control = .idle
  rxuIdle : s.rxu.control = .idle
  toRxu : ∀ p ∈ s.linkToRxu, p.length = s.cfg.pktSize
  toTxu : ∀ p ∈ s.linkToTxu, p.length = s.cfg.pktSize

theorem State.inv_iff (s : State) : s.inv = true ↔ State.Safe s := by
  unfold State.inv modN
  simp only [Bool.and_eq_true, decide_eq_true_eq, List.all_eq_true, Config.imageFits]
  constructor
  · rintro ⟨⟨⟨⟨⟨⟨a, b⟩, d⟩, e⟩, f⟩, g⟩, i⟩
    exact ⟨a, (Txu.inv_iff a _).1 b, d, e, f, g, i⟩
  · rintro ⟨a, b, d, e, f, g, i⟩
    exact ⟨⟨⟨⟨⟨⟨a, (Txu.inv_iff a _).2 b⟩, d⟩, e⟩, f⟩, g⟩, i⟩

end Sys2Proof.Machine
end

