-- ==== Sys2Proof/Laws/Handlers.lean ====
section
/-! SUPPORT. What the handlers do, each said once: TX.MSG's chunk loop, TX.PKT, TX.TMO, RX.PKT, the one frame every
event of a unit runs in, and what an instruction leaves of the link. -/

namespace Sys2Proof.Machine

/-! ### Every event of a unit runs in one frame -/

/-- The handler of an event at the TXU. -/
def txHandler (s : State) : Instr → Except Fault (Txu × List Action)
  | .txMsg m => .ok (s.txu.onMsg s.cfg m)
  | .txPktAck p | .txPktData p | .txPktK2 p | .txPktK3 p | .txPktUnsafe p => .ok (s.txu.onPkt s.cfg p)
  | .txTmo => s.txu.onTmo s.cfg
  | _ => .ok (s.txu, raiseBadOp)

theorem exec_atTxu (i : Instr) (s : State) (h : i.atTxu = true) : exec i s = runTxu i s (txHandler s i) := by
  cases i <;> first | rfl | (simp [Instr.atTxu, encode] at h)

/-- The handler of an event at the RXU. -/
def rxHandler (s : State) : Instr → Rxu × List Action
  | .rxPktAck p | .rxPktData p | .rxPktK2 p | .rxPktK3 p | .rxPktUnsafe p => s.rxu.onPkt s.cfg p
  | _ => (s.rxu, raiseBadOp)

theorem exec_atRxu (i : Instr) (s : State) (h : i.atRxu = true) : exec i s = runRxu i s (rxHandler s i) := by
  cases i <;> first | rfl | (simp [Instr.atRxu, encode] at h)

theorem safeOfKind_iff {c : Config} {k : Kind} {p : Image} :
    c.safeOfKind k p = true ↔ p.length = c.pktSize ∧ verifyChecksum c p = true ∧ kindField p = k := by
  simp [Config.safeOfKind, Config.imageFits, and_assoc]

/-! ### RX.PKT -/

/-- The three ways RX.PKT ends (R141). -/
theorem rxu_onPkt_cases (c : Config) (r : Rxu) (p : Image) :
    (verifyChecksum c p = false ∧ r.onPkt c p = (r, [.done .ok 0])) ∨
    (verifyChecksum c p = true ∧ ¬ (kindField p = kindData ∧ (seqField p).toNat = r.expectedSeq) ∧
      r.onPkt c p = (r, [.send (mkAck c (seqDec r.expectedSeq)), .done .ok 0])) ∨
    (verifyChecksum c p = true ∧ (kindField p = kindData ∧ (seqField p).toNat = r.expectedSeq) ∧
      r.onPkt c p = ({ r with expectedSeq := seqInc r.expectedSeq },
        [.deliver ((payField p).take (clampLen c p)), .send (mkAck c r.expectedSeq), .done .ok 0])) := by
  unfold Rxu.onPkt
  by_cases hv : verifyChecksum c p = true
  · by_cases hk : kindField p = kindData ∧ (seqField p).toNat = r.expectedSeq
    · exact .inr (.inr ⟨hv, hk, by rw [if_pos hv, if_pos hk]; rfl⟩)
    · exact .inr (.inl ⟨hv, hk, by rw [if_pos hv, if_neg hk]; rfl⟩)
  · exact .inl ⟨by simpa using hv, by rw [if_neg hv]; rfl⟩

/-! ### TX.MSG -/

/-- The chunk loop: the first chunks are admitted, the next ones enqueued, and the trace ends with the bytes taken
(R172, R173). -/
theorem takeChunks_spec (c : Config) : ∀ (qs : List Chunk) (t : Txu) (acc : Nat), t.nextToSend < 61 →
    t.bufferedCount = t.fifo.length → (0 < t.bufferedCount → t.outstandingCount = 5) → t.outstandingCount ≤ 5 →
    t.bufferedCount ≤ c.bufSize →
    let a := min (5 - t.outstandingCount) qs.length
    let b := min (c.bufSize - t.bufferedCount) (qs.length - a)
    ∃ tr, Admits c t (qs.take a) (t.takeChunks c acc qs).1 tr ∧
      (t.takeChunks c acc qs).1.fifo = t.fifo ++ (qs.drop a).take b ∧
      (t.takeChunks c acc qs).1.bufferedCount = t.bufferedCount + b ∧
      (t.takeChunks c acc qs).2 = tr ++ [.done (if a + b = qs.length then .ok else .overflow)
        (acc + ((qs.take (a + b)).map List.length).sum)] := by
  intro qs
  induction qs with
  | nil =>
    intro t acc hn hb hf h5 hc
    simp only [List.length_nil, Nat.min_zero, Nat.zero_sub, List.take_nil, List.drop_nil, Txu.takeChunks, finish]
    exact ⟨[], Admits.nil c hn, by simp, by simp, by simp⟩
  | cons q qs ih =>
    intro t acc hn hb hf h5 hc
    have hd : t.drain c = (t, []) := by
      apply drain_of_full
      by_cases h : 0 < t.bufferedCount
      · left; have := hf h; omega
      · right; apply List.eq_nil_of_length_eq_zero; omega
    simp only [Txu.takeChunks, hd]
    by_cases hr : t.outstandingCount < 5
    · have hb0 : t.bufferedCount = 0 := by
        by_contra h; have := hf (by omega); omega
      rw [if_pos (by simp [Txu.winRoom, windowSize, hr])]
      obtain ⟨tr, i1, i2, i3, i4⟩ := ih (t.admitChunk c q).1 (acc + q.length) (seqInc_lt _) hb (by simp [hb0])
        (by simp; omega) hc
      simp only [admitChunk_outstandingCount, admitChunk_bufferedCount, admitChunk_fifo] at i1 i2 i3 i4
      obtain ⟨k, hk⟩ : ∃ k, 5 - t.outstandingCount = k + 1 := ⟨4 - t.outstandingCount, by omega⟩
      have hk' : 5 - (t.outstandingCount + 1) = k := by omega
      simp only [hk'] at i1 i2 i3 i4
      have hmin : min (k + 1) (qs.length + 1) = min k qs.length + 1 := by omega
      simp only [List.length_cons, hk, hmin, List.take_succ_cons, List.drop_succ_cons, Nat.add_sub_add_right]
      refine ⟨(t.admitChunk c q).2 ++ tr, Admits.cons hn (by simp; omega) i1, i2, i3, ?_⟩
      rw [i4]
      have : ∀ x, min k qs.length + 1 + x = (min k qs.length + x) + 1 := by intro x; omega
      simp only [this, List.take_succ_cons, List.map_cons, List.sum_cons, List.nil_append, List.append_assoc,
        Nat.add_right_cancel_iff]
      simp only [← Nat.add_assoc]
    · have hz : 5 - t.outstandingCount = 0 := by omega
      rw [if_neg (by simp [Txu.winRoom, windowSize]; omega)]
      simp only [hz, Nat.zero_min, List.take_zero, List.drop_zero, Nat.sub_zero, Nat.zero_add]
      by_cases hroom : t.bufferedCount < c.bufSize
      · rw [if_pos (by simp [Txu.fifoRoom, hroom])]
        obtain ⟨tr, i1, i2, i3, i4⟩ := ih (t.enqueue q) (acc + q.length) hn (by simp [hb]) (by simp; omega) h5
          (by simp; omega)
        simp only [enqueue_outstandingCount, enqueue_bufferedCount, enqueue_fifo, hz, Nat.zero_min, List.take_zero,
          List.drop_zero, Nat.sub_zero, Nat.zero_add] at i1 i2 i3 i4
        have hmin : min (c.bufSize - t.bufferedCount) (qs.length + 1) =
            min (c.bufSize - (t.bufferedCount + 1)) qs.length + 1 := by omega
        simp only [List.length_cons, hmin, List.take_succ_cons]
        refine ⟨tr, ?_, ?_, ?_, ?_⟩
        · exact ⟨i1.ackExpected, i1.nextToSend, i1.outstandingCount, i1.timeoutInterval, i1.control, i1.stored, i1.kept,
            i1.canonical, i1.images, i1.sent, i1.timer, i1.response, i1.delivery, i1.noStop⟩
        · rw [i2]; simp
        · rw [i3]; omega
        · rw [i4]
          simp only [List.nil_append, List.map_cons, List.sum_cons, Nat.add_right_cancel_iff]
          simp only [← Nat.add_assoc]
      · rw [if_neg (by simp [Txu.fifoRoom]; omega)]
        have h0 : c.bufSize - t.bufferedCount = 0 := by omega
        simp only [h0, Nat.zero_min, List.take_zero, raiseOverflow]
        exact ⟨[], Admits.nil c hn, by simp, by simp, by simp⟩

/-- Where the FIFO is non-empty only with a full window, the chunk loop is the one without DRAIN (R174). -/
theorem takeChunks_withoutDrain (c : Config) : ∀ (qs : List Chunk) (t : Txu) (acc : Nat),
    t.bufferedCount = t.fifo.length → (0 < t.bufferedCount → t.outstandingCount = 5) → t.outstandingCount ≤ 5 →
    t.takeChunks c acc qs = t.takeWithoutDrain c acc qs := by
  intro qs
  induction qs with
  | nil => intro t acc _ _ _; rfl
  | cons q qs ih =>
    intro t acc hb hf h5
    have hd : t.drain c = (t, []) := by
      apply drain_of_full
      by_cases h : 0 < t.bufferedCount
      · exact .inl (by have := hf h; omega)
      · exact .inr (List.eq_nil_of_length_eq_zero (by omega))
    simp only [Txu.takeChunks, Txu.takeWithoutDrain, hd]
    by_cases hr : t.outstandingCount < 5
    · have hw : t.winRoom = true := by simp [Txu.winRoom, windowSize, hr]
      have h0 : ¬ 0 < t.bufferedCount := fun h => by have := hf h; omega
      simp only [hw, if_true]
      rw [ih (t.admitChunk c q).1 _ hb (fun h => absurd h h0) (by simp; omega)]
      simp
    · have hw : t.winRoom = false := by simp [Txu.winRoom, windowSize]; omega
      simp only [hw, Bool.false_eq_true, if_false, List.nil_append]
      rw [ih (t.enqueue q) _ (by simp [hb]) (fun _ => by simp; omega) h5]

/-- The outstanding chunks, oldest first. -/
def Txu.chunks (t : Txu) : List Chunk := t.windowSlots.map t.win.chunkAt

theorem chunks_length (t : Txu) : t.chunks.length = t.outstandingCount := by simp [Txu.chunks, Txu.windowSlots]

/-- Admitting chunks appends them to the outstanding ones (R176). -/
theorem chunks_admits {c : Config} {t t' : Txu} {qs : List Chunk} {tr : List Action} (hl : c.legal = true)
    (h : Txu.Core c t) (ha : Admits c t qs t' tr) (hq : ∀ q ∈ qs, 1 ≤ q.length ∧ q.length ≤ c.maxPayload)
    (hroom : t.outstandingCount + qs.length ≤ 5) : t'.chunks = t.chunks ++ qs := by
  unfold Txu.chunks Txu.windowSlots
  rw [ha.outstandingCount, ha.ackExpected, List.range_add]
  have hne := h.next_eq
  simp only [List.map_append, List.map_map]
  congr 1
  · apply List.map_congr_left
    intro i hi
    simp at hi
    simp only [Function.comp, Ring.chunkAt]
    rw [ha.kept]
    intro j hj
    rw [hne]
    unfold windowSeq modN
    omega
  · apply List.ext_getElem
    · simp
    · intro i h1 h2
      have := ha.stored i h2
      have he : (t.nextToSend + i) % 61 = windowSeq t.ackExpected (t.outstandingCount + i) := by
        rw [hne]; unfold windowSeq modN; omega
      rw [he] at this
      simp only [List.getElem_map, List.getElem_range, Function.comp, Ring.chunkAt, this]
      rw [chunkOf_mkData _ hl]
      · simp [List.getD, h2]
      · simpa [List.getD, h2] using (hq (qs[i]) (List.getElem_mem h2)).2

/-! ### TX.PKT -/

@[simp] theorem sends_restart (t : Txu) : sends t.restart = [] := by unfold Txu.restart; split <;> rfl

@[simp] theorem responses_restart (t : Txu) : responses t.restart = [] := by unfold Txu.restart; split <;> rfl

@[simp] theorem deliveries_restart (t : Txu) : deliveries t.restart = [] := by unfold Txu.restart; split <;> rfl

theorem timerBits_restart (t : Txu) : timerBits t.restart = if 0 < t.outstandingCount then [true] else [] := by
  unfold Txu.restart Txu.winEmpty
  by_cases h : t.outstandingCount = 0 <;> simp [h]

/-- Retiring packets keeps the invariants but I6. -/
theorem Txu.Core.retired {c : Config} {t : Txu} {i : Nat} (h : Txu.Core c t) (hi : i < t.outstandingCount) :
    Txu.Core c { t with
      ackExpected := windowSeq t.ackExpected (i + 1), outstandingCount := t.outstandingCount - (i + 1) } where
  ackLt := windowSeq_lt _ _
  nextLt := h.nextLt
  count := by
    show t.outstandingCount - (i + 1) = seqDist (windowSeq t.ackExpected (i + 1)) t.nextToSend
    have h1 := h.next_eq
    have h5 := h.bounded
    rw [seqDist_eq (windowSeq_lt _ _) h.nextLt, h1]
    have := h.ackLt
    unfold windowSeq modN
    split <;> omega
  bounded := by have := h.bounded; show t.outstandingCount - (i + 1) ≤ 5; omega
  fifoLen := h.fifoLen
  fifoCap := h.fifoCap
  fifoChunks := h.fifoChunks
  slots := by
    intro j hj
    have hj : j < t.outstandingCount - (i + 1) := hj
    obtain ⟨q, h1, h2⟩ := h.slots (i + 1 + j) (by omega)
    have : windowSeq (windowSeq t.ackExpected (i + 1)) j = windowSeq t.ackExpected (i + 1 + j) := by
      unfold windowSeq modN; omega
    exact ⟨q, h1, by rw [← this] at h2; exact h2⟩
  canonical := h.canonical
  images := h.images
  interval := h.interval

/-- A number inside the window is the window's `i`-th for one `i`. -/
theorem Txu.Core.inside {c : Config} {t : Txu} (h : Txu.Core c t) {x : Nat}
    (hb : between t.ackExpected x t.nextToSend = true) :
    ∃ i, i < t.outstandingCount ∧ x = windowSeq t.ackExpected i ∧ (x + 61 - t.ackExpected) % 61 = i := by
  have h1 := h.ackLt
  have h2 := h.nextLt
  have h3 := (between_iff h1 h2).1 hb
  refine ⟨(x + 61 - t.ackExpected) % 61, ?_, ?_, rfl⟩
  · rw [h.count, seqDist_eq h1 h2]; split <;> omega
  · unfold windowSeq modN; omega

/-- TX.PKT of a safe ACK inside the window: the retire loop's outcome `t1`, drained (R192 to R196). -/
theorem onPkt_inside {c : Config} {t : Txu} (h : Txu.Core c t) {p : Image} (hv : verifyChecksum c p = true)
    (hk : kindField p = 1) (hb : between t.ackExpected (seqField p).toNat t.nextToSend = true) :
    ∃ i, i < t.outstandingCount ∧ (seqField p).toNat = windowSeq t.ackExpected i ∧
      ((seqField p).toNat + 61 - t.ackExpected) % 61 = i ∧
      let t1 : Txu := { t with
        ackExpected := windowSeq t.ackExpected (i + 1), outstandingCount := t.outstandingCount - (i + 1) }
      t.onPkt c p = ((t1.drain c).1, [.tstop] ++ (t1.drain c).2 ++ (t1.drain c).1.restart ++ finish 0) ∧
        Txu.Core c t1 := by
  obtain ⟨i, h1, h2, h3⟩ := h.inside hb
  refine ⟨i, h1, h2, h3, ?_⟩
  simp only [Txu.onPkt, hv, hk, kindAck, and_self, if_true]
  have h5 := h.bounded
  rw [h2, retire_inside t i modN h.ackLt h.nextLt (by rw [← h.count]; exact h1) (by unfold modN; omega)]
  exact ⟨rfl, h.retired h1⟩

/-- DRAIN from a state with the invariants but I6: what it admits, by the number `k` of entries. -/
theorem drain_core (c : Config) (t : Txu) (h : Txu.Core c t) :
    let k := min t.bufferedCount (5 - t.outstandingCount)
    Admits c t (t.fifo.take k) (t.drain c).1 (t.drain c).2 ∧ (t.fifo.take k).length = k ∧
      (∀ i, i < k → (t.fifo.take k).getD i [] = t.fifo.getD i []) ∧ (t.drain c).1.fifo = t.fifo.drop k ∧
      (t.drain c).1.bufferedCount = t.bufferedCount - k := by
  obtain ⟨h1, h2, h3⟩ := drain_admits c t h.fifoLen h.nextLt
  intro k
  have hb := h.fifoLen
  have e1 : t.fifo.take k = t.fifo.take (5 - t.outstandingCount) := by
    by_cases h : 5 - t.outstandingCount ≤ t.fifo.length
    · congr 1; omega
    · rw [List.take_of_length_le (by omega), List.take_of_length_le (by omega)]
  refine ⟨by rw [e1]; exact h1, by simp; omega, ?_, ?_, by rw [h3, ← hb]⟩
  · intro i hi
    simp [List.getD, List.getElem?_take]
    rw [if_pos hi]
  · rw [h2]
    by_cases h : 5 - t.outstandingCount ≤ t.fifo.length
    · congr 1; omega
    · rw [List.drop_eq_nil_of_le (by omega), List.drop_eq_nil_of_le (by omega)]

/-- DRAIN restores I6 (R31). -/
theorem drain_safe {c : Config} {t : Txu} (hl : c.legal = true) (h : Txu.Core c t) : Txu.Safe c (t.drain c).1 := by
  obtain ⟨d1, d2, d3, d4, d5⟩ := drain_core c t h
  have hb := h.bounded
  have hf := h.fifoLen
  have hc := h.fifoCap
  refine ⟨h.admits hl d1 (by omega) (fun q hq => h.fifoChunks q (List.mem_of_mem_take hq)) ?_ ?_ ?_, ?_⟩
  · rw [d5, d4]; simp; omega
  · rw [d5]; omega
  · rw [d4]; intro q hq; exact h.fifoChunks q (List.mem_of_mem_drop hq)
  · rw [d5, d1.outstandingCount, d2]; omega

/-! ### TX.TMO -/

/-- TX.TMO from a state with the invariants but I6: the sender as it was, the window's images in order (R201, R203). -/
theorem onTmo_core {c : Config} {t : Txu} (hl : c.legal = true) (h : Txu.Core c t) :
    t.onTmo c = .ok (t, [.tstop] ++ t.windowSlots.map (fun n => .send (mkData c n (t.win.chunkAt n))) ++ t.restart ++
      finish 0) := by
  unfold Txu.onTmo
  rw [resendSlots_safe c t.win t.windowSlots (fun n => mkData c n (t.win.chunkAt n)) h.canonical]
  intro n hn
  simp only [Txu.windowSlots, List.mem_map, List.mem_range] at hn
  obtain ⟨i, hi, rfl⟩ := hn
  obtain ⟨q, h1, h2⟩ := h.slots i hi
  have : t.win.chunkAt (windowSeq t.ackExpected i) = q := by
    simp only [Ring.chunkAt, h2, chunkOf_mkData _ hl h1.2]
  rw [this]
  exact ⟨h2, encodeChecksum_mkData _ _ _⟩

/-! ### The configuration and the inputs -/

/-- No instruction writes the parameters or the inputs. -/
theorem exec_keeps {s t : State} {i : Instr} (h : exec i s = .next t) : t.cfg = s.cfg ∧ t.inputs = s.inputs := by
  by_cases ht : i.atTxu = true
  · rw [exec_atTxu i s ht] at h
    obtain ⟨_, _, hw, hc, he, rfl⟩ := runTxu_next h
    simp
  by_cases hr : i.atRxu = true
  · rw [exec_atRxu i s hr] at h
    obtain ⟨hw, hc, rfl⟩ := runRxu_next h
    simp
  have V : ∀ i v, runValue i s v = .next t → t.cfg = s.cfg ∧ t.inputs = s.inputs := by
    intro i v h
    obtain ⟨-, rfl⟩ := runValue_next h
    exact ⟨rfl, rfl⟩
  have W : ∀ i pre f hh, runStep i s pre f hh = .next t → t.cfg = s.cfg ∧ t.inputs = s.inputs := by
    intro i pre f hh h
    obtain ⟨-, -, rfl⟩ := runStep_next h
    simp
  cases i <;> simp [Instr.atTxu, Instr.atRxu, encode] at ht hr
  case tstart => cases h; simp
  case tstop => cases h; simp
  case admitChunk => exact W _ _ _ _ h
  case drain => exact W .drain true .admitWindowFull (s.txu.drain s.cfg) h
  case enqueue => exact W _ _ _ _ h
  case reset u =>
    simp only [exec, execReset] at h
    split at h <;> cases h <;> exact ⟨rfl, rfl⟩
  all_goals exact V _ _ h

/-! ### The link -/

theorem setInFlight_other (s : State) {u v : Side} (ps : List Image) (h : v ≠ u) :
    (s.setInFlight u ps).inFlight v = s.inFlight v := by
  cases u <;> cases v <;> first | rfl | exact absurd rfl h

@[simp] theorem inFlight_inputs (s : State) (u : Side) (l : List Input) :
    ({ s with inputs := l } : State).inFlight u = s.inFlight u := by cases u <;> rfl

/-- No port carries a reset (R260: `rst` is an input of its own). -/
theorem decode_ne_reset {c : Config} {port : Port} {bytes : List Byte} {i : Instr} (h : decode c port bytes = .ok i)
    (v : ResetTarget) : i ≠ .reset v := by
  rintro rfl
  unfold decode at h
  split at h
  · simp only [Decode.txCommand, Decode.messageOperand, Decode.packetOperand, Decode.txPacket] at h
    repeat' split at h
    all_goals first | cases h | (unfold Decode.noOperand at h; split at h <;> cases h)
  · simp only [Decode.rxCommand, Decode.messageOperand, Decode.packetOperand, Decode.rxPacket] at h
    repeat' split at h
    all_goals first | cases h | (unfold Decode.noOperand at h; split at h <;> cases h)
  · simp only [Decode.timerCommand] at h
    repeat' split at h
    all_goals cases h
  · cases h
  · simp only [Decode.wireImage] at h
    repeat' split at h
    all_goals cases h
  · cases h

/-- No instruction but the joint reset takes an image out of the link: each direction keeps what it holds, in order, and
what is sent is added at the end (R232). -/
theorem exec_links {s t : State} {i : Instr} (h : exec i s = .next t) (hi : i ≠ .reset .system) (u : Side) :
    ∃ ps, t.inFlight u = s.inFlight u ++ ps := by
  have keeps : ∀ {t : State}, t.linkToRxu = s.linkToRxu → t.linkToTxu = s.linkToTxu →
      ∃ ps, t.inFlight u = s.inFlight u ++ ps := fun h1 h2 => ⟨[], by cases u <;> simp [State.inFlight, h1, h2]⟩
  have tx : ∀ (x : Txu) tr, ∃ ps, (commit .txu { s with txu := x } tr).inFlight u = s.inFlight u ++ ps := by
    intro x tr
    rw [commit_txu]
    cases u
    · exact ⟨[], by simp [State.inFlight]⟩
    · exact ⟨sends tr, rfl⟩
  by_cases ht : i.atTxu = true
  · rw [exec_atTxu i s ht] at h
    obtain ⟨_, _, hw, hc, he, rfl⟩ := runTxu_next h
    exact tx _ _
  by_cases hr : i.atRxu = true
  · rw [exec_atRxu i s hr] at h
    obtain ⟨hw, hc, rfl⟩ := runRxu_next h
    rw [commit_rxu]
    cases u
    · exact ⟨sends _, rfl⟩
    · exact ⟨[], by simp [State.inFlight]⟩
  have V : ∀ i v, runValue i s v = .next t → ∃ ps, t.inFlight u = s.inFlight u ++ ps := by
    intro i v h
    obtain ⟨-, rfl⟩ := runValue_next h
    exact keeps rfl rfl
  have W : ∀ i pre f hh, runStep i s pre f hh = .next t → ∃ ps, t.inFlight u = s.inFlight u ++ ps := by
    intro i pre f hh h
    obtain ⟨-, -, rfl⟩ := runStep_next h
    exact tx _ _
  cases i <;> simp [Instr.atTxu, Instr.atRxu, encode] at ht hr
  case tstart => cases h; exact keeps rfl rfl
  case tstop => cases h; exact keeps rfl rfl
  case admitChunk => exact W _ _ _ _ h
  case drain => exact W .drain true .admitWindowFull (s.txu.drain s.cfg) h
  case enqueue => exact W _ _ _ _ h
  case reset v =>
    simp only [exec, execReset] at h
    split at h <;> first | (cases h; exact keeps rfl rfl) | exact absurd rfl hi | cases h
  all_goals exact V _ _ h

end Sys2Proof.Machine
end

