-- ==== Sys2Proof/Laws/PerInstr.lean ====
section
/-! SUPPORT. The transaction that presents an instruction has the shape its port carries, one lemma a constructor. -/

open Sys2Proof Sys2Proof.Machine

namespace Sys2Proof.Laws.PortShape

/-- What a port can carry: on a command port a 2-bit code and its operand, an image of `PKT_SIZE` bytes with code 1 and
nothing with codes 2 and 3; on the link an image; on the timer port one bit (R65, R92, R99). -/
def Fits (c : Config) : Port → List Byte → Prop
  | .txu, b => ∃ code operand, b = code :: operand ∧ code.toNat < 4 ∧ (code = 1 → operand.length = c.pktSize) ∧
      (2 ≤ code.toNat → operand = [])
  | .rxu, b => ∃ code operand, b = code :: operand ∧ code.toNat < 4 ∧ (code = 1 → operand.length = c.pktSize) ∧
      (2 ≤ code.toNat → operand = [])
  | .link, b => b.length = c.pktSize
  | .timer, b => ∃ code, b = [code] ∧ code.toNat < 2

/-- A well-formed instruction's transaction fits its port. -/
def Statement (i : Instr) : Prop :=
  ∀ (c : Config) (port : Port) (bytes : List Byte), c.legal = true → i.wellFormed c = true →
    encode c i = some (port, bytes) → Fits c port bytes

/-- A packet operand has the port's size. -/
theorem imageFits_of_safeOfKind {c : Config} {k : Kind} {p : Image} (h : c.safeOfKind k p = true) :
    p.length = c.pktSize := by
  simp only [Config.safeOfKind, Config.imageFits, Bool.and_eq_true, decide_eq_true_eq] at h
  exact h.1.1

theorem txMsg (m : Message) : Statement (.txMsg m) := by
  intro c port bytes hl hw he
  cases he
  exact ⟨0, m, rfl, by decide, fun h => absurd h (by decide), fun h => absurd h (by decide)⟩

theorem txPktAck (p : Image) : Statement (.txPktAck p) := by
  intro c port bytes hl hw he
  cases he
  exact ⟨1, p, rfl, by decide, fun _ => imageFits_of_safeOfKind hw, fun h => absurd h (by decide)⟩

theorem txPktData (p : Image) : Statement (.txPktData p) := by
  intro c port bytes hl hw he
  cases he
  exact ⟨1, p, rfl, by decide, fun _ => imageFits_of_safeOfKind hw, fun h => absurd h (by decide)⟩

theorem txPktK2 (p : Image) : Statement (.txPktK2 p) := by
  intro c port bytes hl hw he
  cases he
  exact ⟨1, p, rfl, by decide, fun _ => imageFits_of_safeOfKind hw, fun h => absurd h (by decide)⟩

theorem txPktK3 (p : Image) : Statement (.txPktK3 p) := by
  intro c port bytes hl hw he
  cases he
  exact ⟨1, p, rfl, by decide, fun _ => imageFits_of_safeOfKind hw, fun h => absurd h (by decide)⟩

theorem txPktUnsafe (p : Image) : Statement (.txPktUnsafe p) := by
  intro c port bytes hl hw he
  cases he
  simp only [Instr.wellFormed, Config.imageFits, Bool.and_eq_true, decide_eq_true_eq] at hw
  exact ⟨1, p, rfl, by decide, fun _ => hw.1, fun h => absurd h (by decide)⟩

theorem txTmo : Statement .txTmo := by
  intro c port bytes hl hw he
  cases he
  exact ⟨2, [], rfl, by decide, fun h => absurd h (by decide), fun _ => rfl⟩

theorem txRsvd : Statement .txRsvd := by
  intro c port bytes hl hw he
  cases he
  exact ⟨3, [], rfl, by decide, fun h => absurd h (by decide), fun _ => rfl⟩

theorem rxPktData (p : Image) : Statement (.rxPktData p) := by
  intro c port bytes hl hw he
  cases he
  exact ⟨1, p, rfl, by decide, fun _ => imageFits_of_safeOfKind hw, fun h => absurd h (by decide)⟩

theorem rxPktAck (p : Image) : Statement (.rxPktAck p) := by
  intro c port bytes hl hw he
  cases he
  exact ⟨1, p, rfl, by decide, fun _ => imageFits_of_safeOfKind hw, fun h => absurd h (by decide)⟩

theorem rxPktK2 (p : Image) : Statement (.rxPktK2 p) := by
  intro c port bytes hl hw he
  cases he
  exact ⟨1, p, rfl, by decide, fun _ => imageFits_of_safeOfKind hw, fun h => absurd h (by decide)⟩

theorem rxPktK3 (p : Image) : Statement (.rxPktK3 p) := by
  intro c port bytes hl hw he
  cases he
  exact ⟨1, p, rfl, by decide, fun _ => imageFits_of_safeOfKind hw, fun h => absurd h (by decide)⟩

theorem rxPktUnsafe (p : Image) : Statement (.rxPktUnsafe p) := by
  intro c port bytes hl hw he
  cases he
  simp only [Instr.wellFormed, Config.imageFits, Bool.and_eq_true, decide_eq_true_eq] at hw
  exact ⟨1, p, rfl, by decide, fun _ => hw.1, fun h => absurd h (by decide)⟩

theorem rxMsg (m : Message) : Statement (.rxMsg m) := by
  intro c port bytes hl hw he
  cases he
  exact ⟨0, m, rfl, by decide, fun h => absurd h (by decide), fun h => absurd h (by decide)⟩

theorem rxTmo : Statement .rxTmo := by
  intro c port bytes hl hw he
  cases he
  exact ⟨2, [], rfl, by decide, fun h => absurd h (by decide), fun _ => rfl⟩

theorem rxRsvd : Statement .rxRsvd := by
  intro c port bytes hl hw he
  cases he
  exact ⟨3, [], rfl, by decide, fun h => absurd h (by decide), fun _ => rfl⟩

theorem pack (l : Byte) (k : Kind) (s : WireSeq) (v : Word32) (q : List Byte) : Statement (.pack l k s v q) := by
  intro c port bytes hl hw he
  cases he
  have hb := legal_bounds hl
  simp only [Instr.wellFormed, decide_eq_true_eq] at hw
  simp only [Fits, packImage_length]
  omega

theorem mkData (s : Nat) (q : Chunk) : Statement (.mkData s q) := by
  intro c port bytes hl hw he
  cases he
  simp only [Instr.wellFormed, Bool.and_eq_true] at hw
  exact mkData_length s hl (chunkFits_iff.1 hw.2).2

theorem mkAck (s : Nat) : Statement (.mkAck s) := by
  intro c port bytes hl hw he
  cases he
  exact mkAck_length s hl

theorem tstart : Statement .tstart := by
  intro c port bytes hl hw he
  cases he
  exact ⟨1, rfl, by decide⟩

theorem tstop : Statement .tstop := by
  intro c port bytes hl hw he
  cases he
  exact ⟨0, rfl, by decide⟩

theorem chk (stream : List Byte) : Statement (.chk stream) := by
  intro c port bytes hl hw he
  cases he

theorem encodeChecksum (p : Image) : Statement (.encodeChecksum p) := by
  intro c port bytes hl hw he
  cases he

theorem verifyChecksum (p : Image) : Statement (.verifyChecksum p) := by
  intro c port bytes hl hw he
  cases he

theorem clampLen (p : Image) : Statement (.clampLen p) := by
  intro c port bytes hl hw he
  cases he

theorem seqInc (x : Nat) : Statement (.seqInc x) := by
  intro c port bytes hl hw he
  cases he

theorem seqDec (x : Nat) : Statement (.seqDec x) := by
  intro c port bytes hl hw he
  cases he

theorem between (lo : Nat) (x : Nat) (hi : Nat) : Statement (.between lo x hi) := by
  intro c port bytes hl hw he
  cases he

theorem fragment (m : Message) : Statement (.fragment m) := by
  intro c port bytes hl hw he
  cases he

theorem admitChunk (q : Chunk) : Statement (.admitChunk q) := by
  intro c port bytes hl hw he
  cases he

theorem drain : Statement .drain := by
  intro c port bytes hl hw he
  cases he

theorem enqueue (q : Chunk) : Statement (.enqueue q) := by
  intro c port bytes hl hw he
  cases he

theorem reset (u : ResetTarget) : Statement (.reset u) := by
  intro c port bytes hl hw he
  cases he

end Sys2Proof.Laws.PortShape
end

