-- ==== Sys2Proof/Tests/Slice0.lean ====
section
/-! SUPPORT. Tests: ill-formed terms the checks refuse, words decoded, one or two steps an instruction with the results of
spec/95_test_vectors.md, and a state that meets the hypotheses of each statement. -/

namespace Sys2Proof.Tests

open Sys2Proof Sys2Proof.Machine

/-! ### Helpers -/

/-- The outcome is a next state with the property. -/
def nextIs (o : Host.Outcome State Fault Refusal) (f : State → Bool) : Bool :=
  match o with
  | .next t => f t
  | .fault _ => false
  | .refused _ => false

/-- The outcome is a next state with this trace, these sender registers (ae, ns, oc, bc) and this `expected_seq`. -/
def ends (o : Host.Outcome State Fault Refusal) (tr : List Action) (ae ns oc bc e : Nat) : Bool :=
  nextIs o fun t => decide (t.trace = tr ∧ t.txu.ackExpected = ae ∧ t.txu.nextToSend = ns ∧
    t.txu.outstandingCount = oc ∧ t.txu.bufferedCount = bc ∧ t.rxu.expectedSeq = e)

/-- The outcome is a next state with this value. -/
def answers (o : Host.Outcome State Fault Refusal) (v : Value) : Bool := nextIs o fun t => decide (t.result = v)

/-- The window of the chunks `qs` from number `a` on. -/
def window (c : Config) (a : Nat) : List Chunk → Ring
  | [] => []
  | q :: qs => (window c ((a + 1) % 61) qs).write a (mkData c a q)

/-- A state with the chunks `qs` outstanding from number `a` on, `fifo` buffered, and `expected_seq = e`. -/
def mid (c : Config) (a : Nat) (qs fifo : List Chunk) (e : Nat) : State :=
  let s := State.resetWith c
  { s with
    txu := { s.txu with
      ackExpected := a, nextToSend := (a + qs.length) % 61, outstandingCount := qs.length
      bufferedCount := fifo.length, win := window c a qs, fifo := fifo }
    rxu := { s.rxu with expectedSeq := e }
    timerRunning := decide (0 < qs.length) }

/-- Reset with `PKT_SIZE` = 10. -/
def start : State := State.resetWith Config.small

/-- The start of V51: two packets outstanding, "ABCD" and "EFG". -/
def two : State := mid Config.small 0 [[0x41, 0x42, 0x43, 0x44], [0x45, 0x46, 0x47]] [] 0

/-- Five one-byte packets outstanding from number 58 on, two chunks buffered: a full window that wraps. -/
def full : State := mid Config.small 58 [[1], [2], [3], [4], [5]] [[6], [7]] 60

/-- `BUF_SIZE` = 3. -/
def buf3 : Config := { Config.small with bufSize := 3 }

/-- `PKT_SIZE` = 7, the smallest. -/
def tiny : Config := { Config.small with pktSize := 7 }

/-- A signed length byte. -/
def signed : Config := { Config.small with lenSigned := true }

/-- `MSG_MAX` = 2. -/
def bounded : Config := { Config.small with msgMax := some 2 }

/-- `ACK(n)` in ten bytes (V19). -/
def ack (n : Byte) : Image := [0, 0x40 + n, 0, 0x40 + n, 0, 0, 0, 0, 0, 0]

/-- `DATA(3, "Hi")` (V32). -/
def hi3 : Image := [0x02, 0x03, 0x4A, 0x6C, 0, 0, 0x48, 0x69, 0, 0]

/-! ### The well-formedness check refuses -/

theorem test_wf_message : (Instr.txMsg [1, 2, 3]).wellFormed bounded = false := by decide
theorem test_wf_message_rx : (Instr.rxMsg [1, 2, 3]).wellFormed bounded = false := by decide
theorem test_wf_packet_size : (Instr.txPktUnsafe [1, 2, 3]).wellFormed Config.small = false := by decide
theorem test_wf_packet_kind : (Instr.txPktAck hi3).wellFormed Config.small = false := by decide
theorem test_wf_packet_unsafe : (Instr.rxPktData (hi3.set 7 0x6D)).wellFormed Config.small = false := by decide
theorem test_wf_packet_safe : (Instr.rxPktUnsafe hi3).wellFormed Config.small = false := by decide
theorem test_wf_pack : (Instr.pack 1 0 0 0 [1]).wellFormed Config.small = false := by decide
theorem test_wf_mkData_seq : (Instr.mkData 61 [1]).wellFormed Config.small = false := by decide
theorem test_wf_mkData_empty : (Instr.mkData 0 []).wellFormed Config.small = false := by decide
theorem test_wf_mkData_long : (Instr.mkData 0 [1, 2, 3, 4, 5]).wellFormed Config.small = false := by decide
theorem test_wf_mkAck : (Instr.mkAck 61).wellFormed Config.small = false := by decide
theorem test_wf_chk : (Instr.chk [1]).wellFormed Config.small = false := by decide
theorem test_wf_encode : (Instr.encodeChecksum []).wellFormed Config.small = false := by decide
theorem test_wf_verify : (Instr.verifyChecksum []).wellFormed Config.small = false := by decide
theorem test_wf_clamp : (Instr.clampLen []).wellFormed Config.small = false := by decide
theorem test_wf_seqInc : (Instr.seqInc 61).wellFormed Config.small = false := by decide
theorem test_wf_seqDec : (Instr.seqDec 61).wellFormed Config.small = false := by decide
theorem test_wf_between : (Instr.between 61 0 0).wellFormed Config.small = false ∧
    (Instr.between 0 64 0).wellFormed Config.small = false ∧
    (Instr.between 0 0 61).wellFormed Config.small = false := by decide
theorem test_wf_fragment : (Instr.fragment [1, 2, 3]).wellFormed bounded = false := by decide
theorem test_wf_admit : (Instr.admitChunk []).wellFormed Config.small = false := by decide
theorem test_wf_enqueue : (Instr.enqueue [1, 2, 3, 4, 5]).wellFormed Config.small = false := by decide
theorem test_illegal_config : ({ Config.small with pktSize := 6 } : Config).legal = false ∧
    ({ Config.small with pktSize := 262 } : Config).legal = false ∧
    ({ signed with pktSize := 134 } : Config).legal = false := by decide

/-! ### Decoding (R91, R92, R99 to R102), words written bit by bit -/

/-- The decoder's answer, as an option. -/
def reads (c : Config) (port : Port) (bytes : List Byte) : Option Instr :=
  match decode c port bytes with
  | .ok i => some i
  | .error _ => none

/-- Event code 01, then len 00000010, kind 00 and seq 000011, the checksum 0x00006C4A little-endian, "Hi", padding. -/
theorem test_decode_rx_data : reads Config.small .rxu
    [0b00000001, 0b00000010, 0b00000011, 0b01001010, 0b01101100, 0, 0, 0x48, 0x69, 0, 0] = some (.rxPktData hi3) := by
  decide

/-- Kind 01, seq 111100. -/
theorem test_decode_tx_ack : reads Config.small .txu [0b00000001, 0, 0b01111100, 0, 0b01111100, 0, 0, 0, 0, 0, 0] =
    some (.txPktAck (ack 60)) := by decide

/-- Kind 10 and kind 11 (V53, V53b). -/
theorem test_decode_reserved_kinds :
    reads Config.small .txu [1, 0, 0b10000000, 0, 0x80, 0, 0, 0, 0, 0, 0] =
      some (.txPktK2 [0, 0x80, 0, 0x80, 0, 0, 0, 0, 0, 0]) ∧
    reads Config.small .rxu [1, 0, 0b11000001, 0, 0xC1, 0, 0, 0, 0, 0, 0] =
      some (.rxPktK3 [0, 0xC1, 0, 0xC1, 0, 0, 0, 0, 0, 0]) := by decide

/-- The checksum is tested before the kind (V54). -/
theorem test_decode_unsafe : reads Config.small .txu [1, 0, 0x40, 0, 0x40, 0, 0, 0x10, 0, 0, 0] =
    some (.txPktUnsafe [0, 0x40, 0, 0x40, 0, 0, 0x10, 0, 0, 0]) := by decide

theorem test_decode_events : reads Config.small .txu [0, 0x41] = some (.txMsg [0x41]) ∧
    reads Config.small .txu [2] = some .txTmo ∧ reads Config.small .txu [3] = some .txRsvd ∧
    reads Config.small .rxu [0, 0x41] = some (.rxMsg [0x41]) ∧ reads Config.small .rxu [2] = some .rxTmo ∧
    reads Config.small .rxu [3] = some .rxRsvd := by decide

theorem test_decode_wire : reads Config.small .link [0x04, 0x01, 0x90, 0x8F, 0, 0, 0x45, 0x46, 0x47, 0x48] =
      some (.mkData 1 [0x45, 0x46, 0x47, 0x48]) ∧
    reads Config.small .link (ack 2) = some (.mkAck 2) ∧
    reads Config.small .link [0x09, 0x84, 1, 2, 3, 4, 5, 6, 7, 8] = some (.pack 9 2 4 0x04030201 [5, 6, 7, 8]) := by
  decide

theorem test_decode_timer : reads Config.small .timer [1] = some .tstart ∧
    reads Config.small .timer [0] = some .tstop := by decide

theorem test_decode_refuses : reads Config.small .txu [] = none ∧ reads Config.small .txu [4] = none ∧
    reads Config.small .rxu [2, 0] = none ∧ reads Config.small .txu (1 :: hi3.drop 1) = none ∧
    reads bounded .txu [0, 1, 2, 3] = none ∧ reads Config.small .timer [2] = none ∧
    reads Config.small .link [] = none := by decide

/-- The mnemonic of the row a table word is read as. -/
def tableRow (nbits w : Nat) : Option String := (decodeTableWord nbits w).bind Decode.rowName

theorem test_table_rows : tableRow 16 0x000 = some "TX.MSG" ∧ tableRow 16 0x140 = some "TX.PKT.ACK" ∧
    tableRow 16 0x100 = some "TX.PKT.DATA" ∧ tableRow 16 0x180 = some "TX.PKT.K2" ∧
    tableRow 16 0x1C0 = some "TX.PKT.K3" ∧ tableRow 16 0x200 = some "TX.TMO" ∧
    tableRow 16 0x300 = some "TX.RSVD" := by decide

theorem test_table_timer : decodeTableWord 8 1 = some .tstart ∧ decodeTableWord 8 0 = some .tstop := by decide

theorem test_table_ack : decodeTableWord 16 0x40 = some (.mkAck 0) := by decide

/-- The first step after reset runs the word placed, on both an event and a timer word. -/
theorem test_fetch_tmo : nextIs (step (State.reset.withFetchWord 16 0x200))
    (fun t => decide (t.trace = [.tstop, .done .ok 0])) = true := by decide

theorem test_fetch_tstart : nextIs (step (State.reset.withFetchWord 8 1)) (fun t => t.timerRunning) = true := by decide

/-- No two rows of one port take the same transaction: they differ under both masks, or in the checksum's condition. -/
theorem test_rows_disjoint : Decode.rows.Pairwise (fun r q => r.port ≠ q.port ∨
    r.mtch &&& q.mask ≠ q.mtch &&& r.mask ∨ (r.safe.isSome ∧ q.safe.isSome ∧ r.safe ≠ q.safe)) := by decide

/-! ### The TXU -/

/-- V46. -/
theorem test_txMsg : ends (exec (.txMsg [0x41, 0x42, 0x43, 0x44, 0x45, 0x46, 0x47, 0x48, 0x49, 0x4A]) start)
    [.send [0x04, 0x00, 0x88, 0x86, 0, 0, 0x41, 0x42, 0x43, 0x44], .tstart 0,
      .send [0x04, 0x01, 0x90, 0x8F, 0, 0, 0x45, 0x46, 0x47, 0x48],
      .send [0x02, 0x02, 0x4B, 0x4C, 0, 0, 0x49, 0x4A, 0, 0], .done .ok 10] 0 3 3 0 0 = true := by decide

/-- V47. -/
theorem test_txMsg_overflow : nextIs (exec (.txMsg [0x31, 0x32, 0x33, 0x34, 0x35, 0x36, 0x37, 0x38, 0x39])
    (mid Config.small 0 [[1], [2], [3], [4], [5]] [[0x46]] 0))
    (fun t => decide (t.trace = [.done .overflow 4] ∧ t.txu.bufferedCount = 2 ∧
      t.txu.fifo = [[0x46], [0x31, 0x32, 0x33, 0x34]])) = true := by decide

/-- V50: one ACK retires five, the drain admits three, two TSTARTs. -/
theorem test_txPktAck : ends (exec (.txPktAck (ack 4))
    (mid buf3 0 [[0x41], [0x42], [0x43], [0x44], [0x45]] [[0x46], [0x47], [0x48]] 0))
    [.tstop, .send [0x01, 0x05, 0x47, 0x05, 0, 0, 0x46, 0, 0, 0], .tstart 0,
      .send [0x01, 0x06, 0x48, 0x06, 0, 0, 0x47, 0, 0, 0], .send [0x01, 0x07, 0x49, 0x07, 0, 0, 0x48, 0, 0, 0],
      .tstart 0, .done .ok 0] 5 8 3 0 0 = true := by decide

/-- V51: number 61 is outside every window; the timer is restarted. -/
theorem test_txPktAck_outside : ends (exec (.txPktAck (ack 61)) two) [.tstop, .tstart 0, .done .ok 0] 0 2 2 0 0 = true := by
  decide

/-- V52. -/
theorem test_txPktData : ends (exec (.txPktData (zeros 10)) two) [.done .ok 0] 0 2 2 0 0 = true := by decide
/-- V53. -/
theorem test_txPktK2 : ends (exec (.txPktK2 [0, 0x80, 0, 0x80, 0, 0, 0, 0, 0, 0]) two) [.done .ok 0] 0 2 2 0 0 = true := by
  decide
/-- V53b. -/
theorem test_txPktK3 : ends (exec (.txPktK3 [0, 0xC1, 0, 0xC1, 0, 0, 0, 0, 0, 0]) two) [.done .ok 0] 0 2 2 0 0 = true := by
  decide
/-- V54. -/
theorem test_txPktUnsafe : ends (exec (.txPktUnsafe [0, 0x40, 0, 0x40, 0, 0, 0x10, 0, 0, 0]) two)
    [.done .ok 0] 0 2 2 0 0 = true := by decide

/-- P3 step 8: four packets from number 59 on, across the wrap. -/
theorem test_txTmo : ends (exec .txTmo (mid Config.small 59 [[0x65, 0x66, 0x67, 0x68], [0x69, 0x6A, 0x6B, 0x6C],
      [0x6D, 0x6E, 0x6F, 0x70], [0x71, 0x72]] [] 59))
    [.tstop, .send [0x04, 0x3B, 0xD0, 0x09, 0x01, 0, 0x65, 0x66, 0x67, 0x68],
      .send [0x04, 0x3C, 0xD8, 0x12, 0x01, 0, 0x69, 0x6A, 0x6B, 0x6C],
      .send [0x04, 0x00, 0xE0, 0xDE, 0, 0, 0x6D, 0x6E, 0x6F, 0x70],
      .send [0x02, 0x01, 0x73, 0x73, 0, 0, 0x71, 0x72, 0, 0], .tstart 0, .done .ok 0] 59 2 4 0 59 = true := by decide

/-- V49. -/
theorem test_txRsvd : ends (exec .txRsvd two) [.done .badOp 0] 0 2 2 0 0 = true := by decide

/-! ### The RXU -/

/-- V36: the length is clamped. -/
theorem test_rxPktData : ends (exec (.rxPktData [0x09, 0x04, 0x0D, 0x0A, 0, 0, 1, 2, 3, 4]) (mid Config.small 0 [] [] 4))
    [.deliver [1, 2, 3, 4], .send (ack 4), .done .ok 0] 0 0 0 0 5 = true := by decide
/-- V39d: the wrap. -/
theorem test_rxPktData_wrap : ends (exec (.rxPktData [0x01, 0x3C, 0x78, 0x3C, 0, 0, 0x77, 0, 0, 0])
    (mid Config.small 0 [] [] 60)) [.deliver [0x77], .send (ack 60), .done .ok 0] 0 0 0 0 0 = true := by decide
/-- V34. -/
theorem test_rxPktAck : ends (exec (.rxPktAck (ack 4)) (mid Config.small 0 [] [] 4))
    [.send (ack 3), .done .ok 0] 0 0 0 0 4 = true := by decide
/-- V35. -/
theorem test_rxPktK2 : ends (exec (.rxPktK2 [0x01, 0x84, 0x56, 0x84, 0, 0, 0x55, 0, 0, 0]) (mid Config.small 0 [] [] 4))
    [.send (ack 3), .done .ok 0] 0 0 0 0 4 = true := by decide
/-- R146 with `expected_seq` 0: the number before is 60. -/
theorem test_rxPktK3 : ends (exec (.rxPktK3 [0, 0xC1, 0, 0xC1, 0, 0, 0, 0, 0, 0]) start)
    [.send (ack 60), .done .ok 0] 0 0 0 0 0 = true := by decide
/-- V31. -/
theorem test_rxPktUnsafe : ends (exec (.rxPktUnsafe [0x02, 0x03, 0x4A, 0x6C, 0, 0, 0x48, 0x6D, 0, 0])
    (mid Config.small 0 [] [] 3)) [.done .ok 0] 0 0 0 0 3 = true := by decide
/-- V39f. -/
theorem test_rx_reserved : ends (exec (.rxMsg [1]) start) [.done .badOp 0] 0 0 0 0 0 = true ∧
    ends (exec .rxTmo start) [.done .badOp 0] 0 0 0 0 0 = true ∧
    ends (exec .rxRsvd start) [.done .badOp 0] 0 0 0 0 0 = true := by decide

/-! ### The codec, sequence arithmetic, fragmentation -/

/-- V2 in ten bytes. -/
theorem test_pack : answers (exec (.pack 2 0 3 0x00006C4A [0x48, 0x69, 0, 0]) start) (.image hi3) = true := by decide
/-- V16. -/
theorem test_mkData : answers (exec (.mkData 0 [0x41, 0x42, 0x43, 0x44]) start)
    (.image [0x04, 0x00, 0x88, 0x86, 0, 0, 0x41, 0x42, 0x43, 0x44]) = true := by decide
/-- V15: an odd number of covered bytes. -/
theorem test_mkData_odd : answers (exec (.mkData 1 [0x78, 0x79, 0x7A])
    (State.resetWith { Config.small with pktSize := 9 }))
    (.image [0x03, 0x01, 0xF5, 0x7A, 0, 0, 0x78, 0x79, 0x7A]) = true := by decide
/-- V19. -/
theorem test_mkAck : answers (exec (.mkAck 60) start) (.image [0, 0x7C, 0, 0x7C, 0, 0, 0, 0, 0, 0]) = true := by decide
/-- The covered bytes of V17. -/
theorem test_chk : answers (exec (.chk [0x04, 0x01, 0x45, 0x46, 0x47, 0x48]) start) (.word 0x00008F90) = true := by decide
/-- V14. -/
theorem test_chk_largest : wordSum16 (List.replicate 60 0xFF) = 0x001DFFE2 := by decide
/-- V18, from an image with other checksum bytes. -/
theorem test_encodeChecksum : answers (exec (.encodeChecksum [0x02, 0x02, 9, 9, 9, 9, 0x49, 0x4A, 0, 0]) start)
    (.imageAndSum [0x02, 0x02, 0x4B, 0x4C, 0, 0, 0x49, 0x4A, 0, 0] 0x00004C4B) = true := by decide
/-- V10, V11, V12 in ten bytes. -/
theorem test_verifyChecksum_flips : answers (exec (.verifyChecksum (hi3.set 6 0x49)) start) (.bool false) = true ∧
    answers (exec (.verifyChecksum (hi3.set 1 0x43)) start) (.bool false) = true ∧
    answers (exec (.verifyChecksum (hi3.set 2 0x4B)) start) (.bool false) = true := by decide
/-- V13 in ten bytes: two words exchanged. -/
theorem test_verifyChecksum_swap : answers (exec (.verifyChecksum [0x02, 0x03, 0x4A, 0x6C, 0, 0, 0, 0, 0x48, 0x69]) start)
    (.bool true) = true := by decide
/-- V21, V23, V25. -/
theorem test_clampLen : answers (exec (.clampLen (hi3.set 0 0x03)) start) (.nat 3) = true ∧
    answers (exec (.clampLen (hi3.set 0 0x09)) start) (.nat 4) = true ∧
    answers (exec (.clampLen (hi3.set 0 0x80)) start) (.nat 4) = true := by decide
/-- V24, V25, V27, signed. -/
theorem test_clampLen_signed : answers (exec (.clampLen (hi3.set 0 0x7F)) (State.resetWith signed)) (.nat 4) = true ∧
    answers (exec (.clampLen (hi3.set 0 0x80)) (State.resetWith signed)) (.nat 0) = true ∧
    answers (exec (.clampLen (hi3.set 0 0xFF)) (State.resetWith signed)) (.nat 0) = true := by decide
/-- V61. -/
theorem test_seqInc : answers (exec (.seqInc 59) start) (.nat 60) = true ∧
    answers (exec (.seqInc 60) start) (.nat 0) = true := by decide
/-- V61. -/
theorem test_seqDec : answers (exec (.seqDec 0) start) (.nat 60) = true ∧
    answers (exec (.seqDec 60) start) (.nat 59) = true := by decide
/-- V60, the members. -/
theorem test_between_true : [(0, 0, 1), (0, 4, 5), (10, 14, 15), (58, 60, 2), (58, 0, 2), (58, 1, 2), (59, 60, 3),
    (60, 60, 0)].all (fun v => answers (exec (.between v.1 v.2.1 v.2.2) start) (.bool true)) = true := by decide
/-- V60, the others. -/
theorem test_between_false : [(0, 0, 0), (3, 3, 3), (0, 1, 1), (0, 5, 5), (10, 9, 15), (58, 2, 2), (58, 57, 2),
    (59, 3, 3), (60, 0, 0), (5, 61, 10), (0, 61, 5), (0, 63, 5)].all
    (fun v => answers (exec (.between v.1 v.2.1 v.2.2) start) (.bool false)) = true := by decide
/-- V46: 4 + 4 + 2. -/
theorem test_fragment : answers (exec (.fragment [1, 2, 3, 4, 5, 6, 7, 8, 9, 10]) start)
    (.chunks [[1, 2, 3, 4], [5, 6, 7, 8], [9, 10]]) = true ∧
    answers (exec (.fragment []) start) (.chunks []) = true := by decide

/-! ### Admission steps, timer, reset, environment -/

/-- V16 and R168. -/
theorem test_admit : ends (exec (.admitChunk [0x41, 0x42, 0x43, 0x44]) start)
    [.send [0x04, 0x00, 0x88, 0x86, 0, 0, 0x41, 0x42, 0x43, 0x44], .tstart 0] 0 1 1 0 0 = true := by decide
/-- P2 step 10's drain: one place, two entries. -/
theorem test_drain : ends (exec .drain (mid Config.small 1 [[0x31], [0x32], [0x33], [0x34]] [[0x35], [0x36]] 1))
    [.send [0x01, 0x05, 0x36, 0x05, 0, 0, 0x35, 0, 0, 0]] 1 6 5 1 1 = true := by decide
/-- R171. -/
theorem test_enqueue : nextIs (exec (.enqueue [9]) (mid Config.small 0 [] [[8]] 0))
    (fun t => decide (t.txu.fifo = [[8], [9]] ∧ t.txu.bufferedCount = 2 ∧ t.trace = [])) = true := by decide
/-- R235. -/
theorem test_timer : nextIs (exec .tstart start) (fun t => t.timerRunning) = true ∧
    nextIs (exec .tstop two) (fun t => !t.timerRunning) = true := by decide
/-- R261, R262. -/
theorem test_reset : ends (exec (.reset .txu) full) [] 0 0 0 0 60 = true ∧
    ends (exec (.reset .rxu) full) [] 58 2 5 2 0 = true ∧
    ends (exec (.reset .system) full) [] 0 0 0 0 0 = true := by decide
/-- P1 steps 1 and 2, through the link. -/
theorem test_link : nextIs (step { two with
      linkToRxu := [[0x04, 0x00, 0x88, 0x86, 0, 0, 0x41, 0x42, 0x43, 0x44]], inputs := [.deliver .rxu 0] })
    (fun t => decide (t.delivered = [[0x41, 0x42, 0x43, 0x44]] ∧ t.linkToTxu = [ack 0] ∧ t.linkToRxu = [] ∧
      t.rxu.expectedSeq = 1)) = true := by decide
/-- R236: a stopped timer does not fire, a running one runs TX.TMO. -/
theorem test_fire : nextIs (step { start with inputs := [.fire] }) (fun _ => true) = false ∧
    nextIs (step { two with inputs := [.fire] }) (fun t => t.timerRunning && decide (t.linkToRxu.length = 2)) = true := by
  decide
/-- R238: the producer keeps what an OVERFLOW leaves. -/
theorem test_producer : nextIs (step { full with pending := [[1, 2, 3]], inputs := [.present true] })
    (fun t => decide (t.pending = [[1, 2, 3]])) = true ∧
    nextIs (step { full with pending := [[1, 2, 3]], inputs := [.present false] })
    (fun t => decide (t.pending = [])) = true := by decide

/-! ### Witnesses: states and operands that meet the hypotheses of each statement, clause by clause -/

/-- The outcome is a next state. -/
def runs (o : Host.Outcome State Fault Refusal) : Bool := nextIs o fun _ => true

/-- A next state exists where the outcome is one. -/
theorem runs_next {o : Host.Outcome State Fault Refusal} (h : runs o = true) : ∃ t, o = .next t := by
  cases o with
  | next t => exact ⟨t, rfl⟩
  | fault f => cases h
  | refused r => cases h

/-- A safe image of kind 2 (V53), and of kind 3 (V53b). -/
def kind2 : Image := [0, 0x80, 0, 0x80, 0, 0, 0, 0, 0, 0]

def kind3 : Image := [0, 0xC1, 0, 0xC1, 0, 0, 0, 0, 0, 0]

/-- One operand tuple of every event. -/
def events : List Instr :=
  [.txMsg [1], .txPktAck (ack 58), .txPktData hi3, .txPktK2 kind2, .txPktK3 kind3, .txPktUnsafe (hi3.set 6 0), .txTmo,
    .txRsvd, .rxPktData hi3, .rxPktAck (ack 3), .rxPktK2 kind2, .rxPktK3 kind3, .rxPktUnsafe (hi3.set 6 0), .rxMsg [1],
    .rxTmo, .rxRsvd]

/-- One operand tuple of every operation without state. -/
def values : List Instr :=
  [.pack 1 0 0 0 [1, 2, 3, 4], .mkData 60 [1], .mkAck 60, .chk [1, 2, 3, 4, 5, 6], .encodeChecksum hi3,
    .verifyChecksum hi3, .clampLen hi3, .seqInc 60, .seqDec 0, .between 60 63 0, .fragment [1]]

/-- The rest, but for ADMIT and ENQUEUE. -/
def others : List Instr := [.tstart, .tstop, .drain, .reset .txu, .reset .rxu, .reset .system]

/-- Every instruction but ADMIT and ENQUEUE. -/
def samples : List Instr := List.append events (List.append values others)

theorem witness_EveryInstructionCompletes : samples.all (fun i => i.wellFormed full.cfg) = true ∧
    full.txu.control = .idle ∧ full.rxu.control = .idle ∧
    (∀ n ∈ full.txu.windowSlots, (full.txu.win.read n).isSome = true) ∧
    samples.all (fun i => runs (exec i full)) = true ∧
    (Instr.admitChunk [1]).wellFormed two.cfg = true ∧ two.txu.outstandingCount < 5 ∧
    (Instr.enqueue [1]).wellFormed two.cfg = true ∧ two.txu.bufferedCount < two.cfg.bufSize := by decide

theorem witness_StepRunsPresentedInstruction :
    ({ two with inputs := [.word .txu [2]] } : State).inputs = .word .txu [2] :: [] ∧
    reads two.cfg .txu [2] = some .txTmo ∧
    ({ two with inputs := [.word .txu [4], .fire] } : State).inputs = .word .txu [4] :: [.fire] ∧
    reads two.cfg .txu [4] = none := by decide

/-- All three ways: an event, a PACK that is read as itself, and PACKs of an ACK image and of a DATA image. -/
theorem witness_DecodeInvertsEncode : Config.small.legal = true ∧
    (Instr.rxPktData hi3).wellFormed Config.small = true ∧
    encode Config.small (.rxPktData hi3) = some (.rxu, 1 :: hi3) ∧
    (Instr.pack 9 2 63 1 [1, 2, 3, 4]).wellFormed Config.small = true ∧
    encode Config.small (.pack 9 2 63 1 [1, 2, 3, 4]) = some (.link, [9, 0xBF, 1, 0, 0, 0, 1, 2, 3, 4]) ∧
    (Instr.pack 0 1 60 0x7C00 (zeros 4)).wellFormed Config.small = true ∧
    encode Config.small (.pack 0 1 60 0x7C00 (zeros 4)) = some (.link, mkAck Config.small 60) ∧
    (Instr.pack 2 0 3 0x6C4A [0x48, 0x69, 0, 0]).wellFormed Config.small = true ∧
    encode Config.small (.pack 2 0 3 0x6C4A [0x48, 0x69, 0, 0]) =
      some (.link, mkData Config.small 3 [0x48, 0x69]) := by decide

theorem witness_EncodeInvertsDecode : Config.small.legal = true ∧
    reads Config.small .link hi3 = some (.mkData 3 [0x48, 0x69]) ∧
    reads Config.small .txu (1 :: ack 60) = some (.txPktAck (ack 60)) := by decide

theorem witness_DecodedRowIsTheOnlyTableRow : reads Config.small .txu (1 :: ack 60) = some (.txPktAck (ack 60)) ∧
    (⟨"TX.PKT.ACK", .txu, 0x140, 0x3C0, some true⟩ : Decode.Row) ∈ Decode.rows ∧
    (⟨"TX.PKT.UNSAFE", .txu, 0x100, 0x300, some false⟩ : Decode.Row) ∈ Decode.rows ∧
    reads Config.small .rxu [2] = some .rxTmo := by decide

theorem witness_EncodeChecksumStoresValue : hi3.length = start.cfg.pktSize ∧ start.cfg.legal = true := by decide

theorem witness_VerifyComparesWithStoredField : hi3.length = start.cfg.pktSize ∧
    (hi3.set 2 0).length = start.cfg.pktSize := by decide

/-- The shortest image with a header, and a whole one. -/
theorem witness_SafeImagesAreTheEncodedOnes : 6 ≤ (zeros 6).length ∧ 6 ≤ hi3.length := by decide

theorem twoPow_ne_zero {k : Nat} (hk : k < 8) : BitVec.twoPow 8 k ≠ 0 := by
  revert k; decide

theorem flip_ne (b : Byte) {k : Nat} (hk : k < 8) : b ^^^ BitVec.twoPow 8 k ≠ b := by
  intro h
  have h2 := congrArg (b ^^^ ·) h
  simp only [← BitVec.xor_assoc, BitVec.xor_self, BitVec.zero_xor] at h2
  exact twoPow_ne_zero hk h2

theorem toNat_pair (a b : Byte) : (a ++ b).toNat = a.toNat * 256 + b.toNat := by
  rw [BitVec.toNat_append, ← Nat.shiftLeft_add_eq_or_of_lt b.isLt, Nat.shiftLeft_eq]

/-- With `PKT_SIZE` = 7 the default checksum meets the premise of SingleBitFlipIsDetected. -/
theorem tiny_singleBit : SingleBitSensitive 3 wordSum16 := by
  intro stream i b k hl hi hk h
  match stream, hl with
  | [x, y, z], _ =>
    have hx := (x ^^^ BitVec.twoPow 8 k).isLt
    have hy := (y ^^^ BitVec.twoPow 8 k).isLt
    have hz := (z ^^^ BitVec.twoPow 8 k).isLt
    have h := congrArg BitVec.toNat h
    match i with
    | 0 =>
      simp only [List.getElem?_cons_zero, Option.some.injEq] at hi
      subst hi
      simp only [List.set_cons_zero, wordSum16, BitVec.toNat_add, BitVec.truncate_eq_setWidth, BitVec.toNat_setWidth,
        toNat_pair] at h
      exact flip_ne x hk (BitVec.eq_of_toNat_eq (by omega))
    | 1 =>
      simp only [List.getElem?_cons_succ, List.getElem?_cons_zero, Option.some.injEq] at hi
      subst hi
      simp only [List.set_cons_succ, List.set_cons_zero, wordSum16, BitVec.toNat_add, BitVec.truncate_eq_setWidth,
        BitVec.toNat_setWidth, toNat_pair] at h
      exact flip_ne y hk (BitVec.eq_of_toNat_eq (by omega))
    | 2 =>
      simp only [List.getElem?_cons_succ, List.getElem?_cons_zero, Option.some.injEq] at hi
      subst hi
      simp only [List.set_cons_succ, List.set_cons_zero, wordSum16, BitVec.toNat_add, BitVec.truncate_eq_setWidth,
        BitVec.toNat_setWidth, toNat_pair] at h
      exact flip_ne z hk (BitVec.eq_of_toNat_eq (by omega))
    | n + 3 => simp at hi

/-- A header byte, the payload byte. -/
theorem witness_SingleBitFlipIsDetected : tiny.legal = true ∧ (zeros 7).length = tiny.pktSize ∧
    SingleBitSensitive (tiny.pktSize - 4) (chk tiny) ∧
    (1 < 2 ∨ 6 ≤ 1) ∧ (encodeChecksum tiny (zeros 7)).1[1]? = some 0 ∧ (6 < 2 ∨ 6 ≤ 6) ∧
    (encodeChecksum tiny (zeros 7)).1[6]? = some 0 ∧ 7 < 8 :=
  ⟨by decide, by decide, tiny_singleBit, by decide, by decide, by decide, by decide, by decide⟩

theorem witness_ChecksumFieldChangeIsDetected : 6 ≤ hi3.length ∧ (hi3.set 5 1).length = hi3.length ∧
    hi3.set 5 1 ≠ (encodeChecksum Config.small hi3).1 ∧ (∀ n, n < 2 ∨ 6 ≤ n → (hi3.set 5 1)[n]? = hi3[n]?) :=
  ⟨by decide, by decide, by decide, fun n hn => by rw [List.getElem?_set_ne (by omega)]⟩

/-- Its premise, for one stream. -/
theorem witness_DefaultChecksumIsSingleBitSensitive : [1, 2, 3].length = 3 ∧ ([1, 2, 3] : List Byte)[2]? = some 3 ∧
    7 < 8 := by decide

theorem witness_PackAndAccessorsInvert : [1, 2, 3, 4].length = start.cfg.maxPayload ∧ 6 ≤ hi3.length := by decide

theorem witness_MkDataBuildsSafeImage : start.cfg.legal = true ∧ 60 < 61 ∧ 1 ≤ [1].length ∧
    [1, 2, 3, 4].length ≤ start.cfg.maxPayload := by decide

theorem witness_MkAckBuildsSafeImage : start.cfg.legal = true ∧ 60 < 61 := by decide

/-- The unsigned clause, and both signed ones at their boundary. -/
theorem witness_ClampLenBoundsTheLengthByte : hi3.length = start.cfg.pktSize ∧ start.cfg.lenSigned = false ∧
    (State.resetWith signed).cfg.lenSigned = true ∧ (lenField (hi3.set 0 0x7F)).toNat < 128 ∧
    128 ≤ (lenField (hi3.set 0 0x80)).toNat := by decide

theorem witness_DefaultChecksumAddsWords : [1, 2, 3, 4, 5, 6].length = start.cfg.pktSize - 4 ∧
    start.cfg.chkChoice = .wordSum16 := by decide

theorem witness_SequenceStepsModulo61 : 0 < 61 ∧ 60 < 61 := by decide

theorem witness_BetweenIsCircularMembership : 60 < 61 ∧ 63 < 64 ∧ 0 < 61 := by decide

theorem witness_FragmentsJoinToTheMessage : start.cfg.legal = true ∧ start.cfg.messageFits [1, 2, 3, 4, 5] = true := by
  decide

/-- With an empty window, and with one place left. -/
theorem witness_AdmitFillsNextSlotAndSends : start.cfg.chunkFits [1] = true ∧ start.txu.outstandingCount < 5 ∧
    (mid Config.small 58 [[1], [2], [3], [4]] [] 58).txu.outstandingCount = 4 := by decide

/-- One place, two entries; the last number. -/
theorem witness_DrainAdmitsWhileRoom :
    (mid Config.small 56 [[1], [2], [3], [4]] [[5], [6]] 56).txu.fifoCounted Config.small = true ∧
    (mid Config.small 56 [[1], [2], [3], [4]] [[5], [6]] 56).txu.nextToSend = 60 := by decide

theorem witness_EnqueueAppendsAtTail : two.cfg.chunkFits [1] = true ∧ two.txu.bufferedCount < two.cfg.bufSize := by
  decide

theorem witness_AdmissionWithoutRoomStops : full.cfg.chunkFits [1] = true ∧ 5 ≤ full.txu.outstandingCount ∧
    full.cfg.bufSize ≤ full.txu.bufferedCount := by decide

/-- A full window with one of two FIFO places taken. -/
def fullButOne : State := mid Config.small 58 [[1], [2], [3], [4], [5]] [[6]] 60

/-- DRAIN with a full window and a buffered chunk, and with an empty FIFO; ADMIT with one place left; ENQUEUE with one
place left. -/
theorem witness_DrainInsideMsgIsIdle : full.txu.fifoCounted Config.small = true ∧
    full.txu.bufferedOnlyWhenFull = true ∧
    (mid Config.small 58 [[1], [2], [3], [4]] [] 58).txu.fifoCounted Config.small = true ∧
    (mid Config.small 58 [[1], [2], [3], [4]] [] 58).txu.bufferedOnlyWhenFull = true ∧
    (mid Config.small 58 [[1], [2], [3], [4]] [] 58).txu.outstandingCount = 4 ∧
    fullButOne.txu.fifoCounted Config.small = true ∧ fullButOne.txu.bufferedOnlyWhenFull = true ∧
    Config.small.chunkFits [1] = true ∧ fullButOne.txu.outstandingCount = 5 ∧
    fullButOne.txu.bufferedCount + 1 = Config.small.bufSize ∧
    fullButOne.inv = true ∧ fullButOne.cfg.messageFits [1, 2, 3, 4, 5] = true := by decide

theorem full_inv : full.inv = true := by decide

theorem two_inv : two.inv = true := by decide

/-- Room for three in the window and two in the FIFO; one chunk too many; no room at all. -/
theorem witness_MsgFillsWindowThenFifo : two.inv = true ∧ two.cfg.messageFits (zeros 24) = true ∧
    full.inv = true ∧ full.cfg.messageFits [1] = true := ⟨two_inv, by decide, full_inv, by decide⟩

theorem witness_MsgAppendsAcceptedBytesToStream : two.inv = true ∧ two.cfg.messageFits (zeros 24) = true :=
  ⟨two_inv, by decide⟩

theorem witness_EmptyMessageSendsNothing : full.txu.control = .idle := by decide

/-- With room for all, and with room for none. -/
theorem witness_ProducerKeepsWhatOverflowLeaves :
    ({ two with pending := [[1]], inputs := [.present true] } : State).inv = true ∧
    two.cfg.messageFits [1] = true ∧
    ({ full with pending := [[1], [2]], inputs := [.present true] } : State).inv = true ∧
    full.cfg.messageFits [1] = true := by decide

theorem witness_ExhaustedBufferOverflows : full.txu.control = .idle ∧ full.cfg.messageFits [1] = true ∧
    ([1] : Message) ≠ [] ∧ full.txu.outstandingCount = 5 ∧ full.txu.bufferedCount = full.cfg.bufSize := by decide

theorem witness_NonAckPacketsAreIgnored : two.txu.control = .idle ∧
    (Instr.txPktData hi3).wellFormed two.cfg = true ∧
    (Instr.txPktK2 [0, 0x80, 0, 0x80, 0, 0, 0, 0, 0, 0]).wellFormed two.cfg = true ∧
    (Instr.txPktK3 [0, 0xC1, 0, 0xC1, 0, 0, 0, 0, 0, 0]).wellFormed two.cfg = true ∧
    (Instr.txPktUnsafe (hi3.set 6 0)).wellFormed two.cfg = true := by decide

/-- The oldest and the newest packet of a window that wraps. -/
theorem witness_AckRetiresUpToItsNumber : full.inv = true ∧ full.cfg.safeOfKind 1 (ack 58) = true ∧
    between full.txu.ackExpected (seqField (ack 58)).toNat full.txu.nextToSend = true ∧
    full.cfg.safeOfKind 1 (ack 1) = true ∧
    between full.txu.ackExpected (seqField (ack 1)).toNat full.txu.nextToSend = true :=
  ⟨full_inv, by decide, by decide, by decide, by decide⟩

theorem witness_AckRemovesPrefixOfStream : full.inv = true ∧ full.cfg.safeOfKind 1 (ack 0) = true ∧
    between full.txu.ackExpected (seqField (ack 0)).toNat full.txu.nextToSend = true :=
  ⟨full_inv, by decide, by decide⟩

/-- Just below, just above, and a number no packet has. -/
theorem witness_AckOutsideWindowOnlyRestartsTimer : full.inv = true ∧
    [57, 2, 61, 63].all (fun n => full.cfg.safeOfKind 1 (ack n) &&
      !between full.txu.ackExpected (seqField (ack n)).toNat full.txu.nextToSend) = true := ⟨full_inv, by decide⟩

theorem witness_TimeoutResendsWholeWindow : full.inv = true ∧ 4 < full.txu.outstandingCount := ⟨full_inv, by decide⟩

theorem witness_SpuriousTimeoutOnlyStopsTimer : start.txu.control = .idle ∧ start.txu.outstandingCount = 0 := by decide

theorem witness_ReservedCodesAnswerBadOp : two.txu.control = .idle ∧ two.rxu.control = .idle ∧
    Instr.txRsvd.wellFormed two.cfg = true ∧ (Instr.rxMsg [1]).wellFormed two.cfg = true ∧
    Instr.rxTmo.wellFormed two.cfg = true ∧ Instr.rxRsvd.wellFormed two.cfg = true := by decide

theorem witness_UnsafePacketIsDropped : start.rxu.control = .idle ∧ (hi3.set 6 0).length = start.cfg.pktSize ∧
    verifyChecksum start.cfg (hi3.set 6 0) = false := by decide

/-- An ordinary packet, and the all-zero image (R276). -/
theorem witness_ExpectedPacketIsDeliveredAndAcked : start.rxu.control = .idle ∧
    (mid Config.small 0 [] [] 3).cfg.safeOfKind 0 hi3 = true ∧ (seqField hi3).toNat = 3 ∧
    start.cfg.safeOfKind 0 (zeros 10) = true ∧ (seqField (zeros 10)).toNat = start.rxu.expectedSeq := by decide

/-- Another number, number 61, and the three other kinds. -/
theorem witness_OtherSafePacketsGetDuplicateAck : start.rxu.control = .idle ∧ start.rxu.expectedSeq < 61 ∧
    (Instr.rxPktData hi3).wellFormed start.cfg = true ∧ (seqField hi3).toNat ≠ start.rxu.expectedSeq ∧
    (Instr.rxPktData [0x01, 0x3D, 0x56, 0x3D, 0, 0, 0x55, 0, 0, 0]).wellFormed start.cfg = true ∧
    (Instr.rxPktAck (ack 0)).wellFormed start.cfg = true ∧
    (Instr.rxPktK2 [0, 0x80, 0, 0x80, 0, 0, 0, 0, 0, 0]).wellFormed start.cfg = true ∧
    (Instr.rxPktK3 [0, 0xC1, 0, 0xC1, 0, 0, 0, 0, 0, 0]).wellFormed start.cfg = true := by decide

theorem witness_DeliveredBytesAreTheAdmittedChunk : full.cfg.legal = true ∧ full.cfg.chunkFits [1, 2, 3, 4] = true ∧
    full.rxu.control = .idle ∧ full.rxu.expectedSeq = 60 := by decide

theorem witness_TxEventsLeaveReceiverAlone : Instr.atTxu .txTmo = true ∧ ∃ t, exec .txTmo full = .next t :=
  ⟨rfl, runs_next (by decide)⟩

theorem witness_RxEventsLeaveSenderAlone : Instr.atRxu (.rxPktData hi3) = true ∧
    ∃ t, exec (.rxPktData hi3) full = .next t := ⟨rfl, runs_next (by decide)⟩

theorem witness_RxPacketTraceShapes : (∃ t, exec (.rxPktData hi3) full = .next t) ∧
    (∃ t, exec (.rxPktData hi3) (mid Config.small 0 [] [] 3) = .next t) ∧
    (∃ t, exec (.rxPktUnsafe (hi3.set 6 0)) full = .next t) ∧ (∃ t, exec (.rxPktAck (ack 1)) full = .next t) ∧
    (∃ t, exec (.rxPktK2 [0, 0x80, 0, 0x80, 0, 0, 0, 0, 0, 0]) full = .next t) ∧
    (∃ t, exec (.rxPktK3 [0, 0xC1, 0, 0xC1, 0, 0, 0, 0, 0, 0]) full = .next t) :=
  ⟨runs_next (by decide), runs_next (by decide), runs_next (by decide), runs_next (by decide), runs_next (by decide),
    runs_next (by decide)⟩

/-- Two states with different senders and the same outputs of the receiver. -/
theorem witness_ReceiverIndependentOfSender : Instr.atRxu (.rxPktData hi3) = true ∧
    (mid Config.small 58 [[1]] [] 3).rxu = (mid Config.small 0 [] [] 3).rxu ∧
    (mid Config.small 58 [[1]] [] 3).cfg = (mid Config.small 0 [] [] 3).cfg ∧
    (mid Config.small 58 [[1]] [] 3).txu ≠ (mid Config.small 0 [] [] 3).txu ∧
    (mid Config.small 58 [[1]] [] 3).delivered = (mid Config.small 0 [] [] 3).delivered ∧
    (mid Config.small 58 [[1]] [] 3).linkToTxu = (mid Config.small 0 [] [] 3).linkToTxu ∧
    ∃ t, exec (.rxPktData hi3) (mid Config.small 58 [[1]] [] 3) = .next t :=
  ⟨rfl, rfl, rfl, by decide, rfl, rfl, runs_next (by decide)⟩

theorem witness_TxTraceDiscipline : Instr.atTxu (.txPktAck (ack 0)) = true ∧ full.inv = true ∧
    ∃ t, exec (.txPktAck (ack 0)) full = .next t := ⟨rfl, full_inv, runs_next (by decide)⟩

theorem witness_ValueOperationsTouchNoState : values.all (fun i => runs (exec i full)) = true := by decide

/-- `full` with its sender, or its receiver, in the middle of a handler. -/
def txBusy : State := { full with txu := { full.txu with control := .busy } }

def rxBusy : State := { full with rxu := { full.rxu with control := .busy } }

theorem witness_BusyUnitTakesNoEvent : Instr.txTmo.wellFormed txBusy.cfg = true ∧ Instr.atTxu .txTmo = true ∧
    txBusy.txu.control = .busy ∧ txBusy.rxu.control = .idle ∧ Instr.rxTmo.wellFormed rxBusy.cfg = true ∧
    Instr.atRxu .rxTmo = true ∧ rxBusy.rxu.control = .busy ∧ rxBusy.txu.control = .idle := by decide

/-- Running and IDLE; stopped; BUSY. -/
theorem witness_FiringRunsTimeoutInOneStep : ({ two with inputs := [.fire] } : State).inputs = .fire :: [] ∧
    two.timerRunning = true ∧ two.txu.control = .idle ∧ start.timerRunning = false ∧
    ({ two.txu with control := .busy } : Txu).control = .busy := by decide

/-- Each unit IDLE while the other is BUSY, and both IDLE. -/
theorem witness_ResetRestoresLaunchValues : rxBusy.txu.control = .idle ∧ rxBusy.rxu.control = .busy ∧
    txBusy.rxu.control = .idle ∧ txBusy.txu.control = .busy ∧
    full.txu.control = .idle ∧ full.rxu.control = .idle := by decide

/-- Two images in flight in each direction. -/
def inFlight2 (ins : List Input) : State :=
  { two with linkToRxu := [ack 0, hi3], linkToTxu := [hi3, ack 0], inputs := ins }

/-- Each of the four moves on the second of two images, in each direction; a move on a third, which is not there; and a
step that is no move of the direction. -/
theorem witness_LinkMovesAreTheContracts :
    ((inFlight2 []).inFlight .rxu)[1]? = some hi3 ∧ ((inFlight2 []).inFlight .txu)[1]? = some (ack 0) ∧
    (inFlight2 [.drop .txu 1]).inputs = .drop .txu 1 :: [] ∧
    (inFlight2 [.duplicate .txu 1]).inputs = .duplicate .txu 1 :: [] ∧
    (zeros 10).length = two.cfg.pktSize ∧
    (inFlight2 [.corrupt .txu 1 (zeros 10)]).inputs = .corrupt .txu 1 (zeros 10) :: [] ∧
    hi3.length = two.cfg.pktSize ∧ (ack 0).length = two.cfg.pktSize ∧
    (inFlight2 [.deliver .rxu 1]).inputs = .deliver .rxu 1 :: [] ∧
    (inFlight2 [.deliver .txu 1]).inputs = .deliver .txu 1 :: [] ∧
    ((inFlight2 []).inFlight .rxu)[2]? = none ∧ ((inFlight2 []).inFlight .txu)[2]? = none ∧
    (inFlight2 [.deliver .txu 2]).inputs = .deliver .txu 2 :: [] ∧
    Input.movesLink .txu (.deliver .rxu 1) = false := by decide

theorem witness_LinkMovesAreTheContracts_held : ∃ t, step (inFlight2 [.deliver .rxu 1]) = .next t :=
  runs_next (by decide)

/-- The ACK direction moves: lost, copied, and delivered to the TXU, which retires the packet it acknowledges. -/
theorem test_link_ack_direction :
    nextIs (step (inFlight2 [.drop .txu 0])) (fun t => decide (t.linkToTxu = [ack 0] ∧ t.linkToRxu = [ack 0, hi3])) = true ∧
    nextIs (step (inFlight2 [.duplicate .txu 0])) (fun t => decide (t.linkToTxu = [hi3, ack 0, hi3])) = true ∧
    nextIs (step (inFlight2 [.deliver .txu 1]))
      (fun t => decide (t.linkToTxu = [hi3] ∧ t.txu.ackExpected = 1 ∧ t.txu.outstandingCount = 1)) = true := by decide

/-- The second image of each direction. -/
theorem witness_EveryDeliveryIsHandled :
    ({ two with linkToRxu := [ack 0, zeros 10], linkToTxu := [ack 1, hi3], inputs := [.deliver .rxu 1] } : State).inv =
      true ∧
    1 < (({ two with linkToRxu := [ack 0, zeros 10], linkToTxu := [ack 1, hi3] } : State).inFlight .rxu).length ∧
    1 < (({ two with linkToRxu := [ack 0, zeros 10], linkToTxu := [ack 1, hi3] } : State).inFlight .txu).length := by
  decide

theorem witness_ResetStateIsSafe : Config.reference.legal = true ∧ Config.small.legal = true := by decide

theorem witness_StepKeepsSafety : ({ full with inputs := [.word .txu (1 :: ack 0)] } : State).inv = true ∧
    ∃ t, step { full with inputs := [.word .txu (1 :: ack 0)] } = .next t := ⟨by decide, runs_next (by decide)⟩

theorem witness_SafeStatesNeverFault : ({ full with inputs := [.fire] } : State).inv = true := by decide

theorem witness_StepKeepsTimerMatching : full.inv = true ∧ full.timerMatches = true ∧
    (∀ bytes, ({ full with inputs := [.word .txu (1 :: ack 1)] } : State).inputs.head? ≠ some (.word .timer bytes)) ∧
    ∃ t, step { full with inputs := [.word .txu (1 :: ack 1)] } = .next t :=
  ⟨full_inv, by decide, fun _ h => by simp at h, runs_next (by decide)⟩

/-- The receiver has two of the five outstanding packets; a stale DATA image, the expected one, a corrupted one and two
ACKs are in flight. -/
def flight : State :=
  { full with
    linkToRxu := [mkData Config.small 59 [2], hi3.set 6 0, mkData Config.small 60 [3]]
    linkToTxu := [ack 57, ack 58, ack 59], delivered := [[1], [2]], inputs := [.deliver .rxu 0] }

theorem witness_OrderlyStepKeepsStream : flight.inv = true ∧ flight.inOrder = true ∧
    (∀ i, flight.inputs.head? = some i → i.orderly flight.cfg = true) ∧
    flight.accepted = [1, 2, 3, 4, 5, 6, 7] ∧ ∃ t, step flight = .next t :=
  ⟨by decide, by decide, by intro i h; cases h; rfl, by decide, runs_next (by decide)⟩

/-- Three steps: a message, its packet's delivery, the acknowledgement; then nothing is left in the sender. -/
theorem witness_DeliveredIsPrefixOfAccepted : Config.small.legal = true ∧
    (∀ i ∈ [Input.word .txu [0, 7, 8], .deliver .rxu 0, .deliver .txu 0], i.orderly Config.small = true) ∧
    (match runSteps 3 { State.resetWith Config.small with
        inputs := [Input.word .txu [0, 7, 8], .deliver .rxu 0, .deliver .txu 0] } with
      | none => false
      | some r => decide (r.2 = [7, 8] ∧ r.1.delivered = [[7, 8]] ∧ r.1.txu.outstandingCount = 0 ∧
          r.1.txu.bufferedCount = 0)) = true := by decide

end Sys2Proof.Tests
end

section
/-! The receiver's noninterference (spec 00_scope.md R2, 10_state.md R34): an event at the RXU is a function of the receiver
and the parameters, and its effects are added to the receiver's own outputs. -/

namespace Sys2Proof.Machine

/-- The handler of an event at the RXU reads the receiver and the parameters alone (R34). -/
theorem rxHandler_congr {s s' : State} (hr : s.rxu = s'.rxu) (hc : s.cfg = s'.cfg) (i : Instr) :
    rxHandler s i = rxHandler s' i := by
  unfold rxHandler
  rw [hr, hc]

/-- An event at the RXU that answers a next state: the unit was IDLE, the operands well formed, and the next state is
the handler's receiver with the handler's trace taken. -/
theorem exec_atRxu_next {i : Instr} {s t : State} (hi : i.atRxu = true) (h : exec i s = .next t) :
    i.wellFormed s.cfg = true ∧ s.rxu.control = .idle ∧
      t = commit .rxu { s with rxu := (rxHandler s i).1 } (rxHandler s i).2 := by
  rw [exec_atRxu i s hi] at h
  exact runRxu_next h

/-- An event at an IDLE RXU, on well-formed operands, answers a next state. -/
theorem exec_atRxu_idle {i : Instr} {s : State} (hi : i.atRxu = true) (hw : i.wellFormed s.cfg = true)
    (hc : s.rxu.control = .idle) :
    exec i s = .next (commit .rxu { s with rxu := (rxHandler s i).1 } (rxHandler s i).2) := by
  rw [exec_atRxu i s hi]
  exact runRxu_idle hw hc

@[simp] theorem commit_rxu_delivered (s : State) (tr : List Action) :
    (commit .rxu s tr).delivered = s.delivered ++ deliveries tr := by rw [commit_rxu]

@[simp] theorem commit_rxu_linkToTxu (s : State) (tr : List Action) :
    (commit .rxu s tr).linkToTxu = s.linkToTxu ++ sends tr := by rw [commit_rxu]

/-- Settles O45: both runs take the trace of one and the same handler result, each at its own outputs. -/
theorem receiverIndependentOfSender : Obligations.ReceiverIndependentOfSender := by
  intro i s s' t hi hr hc h
  obtain ⟨hw, hidle, rfl⟩ := exec_atRxu_next hi h
  have hrun := exec_atRxu_idle hi (hc ▸ hw) (hr ▸ hidle)
  rw [← rxHandler_congr hr hc i] at hrun
  refine ⟨_, hrun, ?_, ?_, ?_, fun hd => ?_, fun hl => ?_⟩
  · simp
  · simp [hc]
  · simp
  · simp [hd]
  · simp [hl]

end Sys2Proof.Machine
end

section
/-! Frames of the two units' events: what every handler of the TXU leaves of the sender, whatever the sender holds, and
that an event of one unit leaves the other unit and its outputs alone (spec 10_state.md R20, R34, R41;
43_sender_ack_timeout.md R208). -/

namespace Sys2Proof.Machine

/-- The part of a handler's outcome that no handler of the TXU changes: S8 and the control state; and nothing is handed
to the upper layer of the receiver. -/
structure TxFrame (t : Txu) (h : Txu × List Action) : Prop where
  interval : h.1.timeoutInterval = t.timeoutInterval
  control : h.1.control = t.control
  delivery : deliveries h.2 = []

theorem TxFrame.seq {t : Txu} {a b : Txu × List Action} (h1 : TxFrame t a) (h2 : TxFrame a.1 b) :
    TxFrame t (b.1, a.2 ++ b.2) where
  interval := h2.interval.trans h1.interval
  control := h2.control.trans h1.control
  delivery := by rw [deliveries_append, h1.delivery, h2.delivery, List.append_nil]

/-- Actions that deliver nothing, on an unchanged sender. -/
theorem TxFrame.still (t : Txu) {tr : List Action} (h : deliveries tr = []) : TxFrame t (t, tr) := ⟨rfl, rfl, h⟩

theorem admitChunk_frame (c : Config) (t : Txu) (q : Chunk) : TxFrame t (t.admitChunk c q) where
  interval := rfl
  control := rfl
  delivery := by rw [admitChunk_trace]; split <;> rfl

theorem drainFrom_frame (c : Config) : ∀ (qs : List Chunk) (t : Txu), TxFrame t (t.drainFrom c qs) := by
  intro qs
  induction qs with
  | nil => exact fun t => .still t rfl
  | cons q qs ih =>
    intro t
    unfold Txu.drainFrom
    split
    · obtain ⟨h1, h2, h3⟩ := (admitChunk_frame c { t with fifo := qs, bufferedCount := t.bufferedCount - 1 } q).seq (ih _)
      exact ⟨h1, h2, h3⟩
    · exact .still t rfl

theorem drain_frame (c : Config) (t : Txu) : TxFrame t (t.drain c) := drainFrom_frame c t.fifo t

theorem takeChunks_frame (c : Config) : ∀ (qs : List Chunk) (t : Txu) (acc : Nat), TxFrame t (t.takeChunks c acc qs) := by
  intro qs
  induction qs with
  | nil => exact fun t acc => .still t rfl
  | cons q qs ih =>
    intro t acc
    have hd := drain_frame c t
    dsimp only [Txu.takeChunks]
    split
    · exact (hd.seq (admitChunk_frame c _ q)).seq (ih _ _)
    · split
      · obtain ⟨h1, h2, h3⟩ := ih ((t.drain c).1.enqueue q) (acc + q.length)
        exact hd.seq ⟨h1, h2, h3⟩
      · exact hd.seq (.still (tr := raiseOverflow acc) _ rfl)

theorem retire_frame (x : Nat) : ∀ (fuel : Nat) (t : Txu), TxFrame t (t.retire x fuel, []) := by
  intro fuel
  induction fuel with
  | zero => exact fun t => .still t rfl
  | succ fuel ih =>
    intro t
    unfold Txu.retire
    split
    · obtain ⟨h1, h2, h3⟩ :=
        ih { t with ackExpected := seqInc t.ackExpected, outstandingCount := t.outstandingCount - 1 }
      exact ⟨h1, h2, h3⟩
    · exact .still t rfl

theorem onPkt_frame (c : Config) (t : Txu) (p : Image) : TxFrame t (t.onPkt c p) := by
  unfold Txu.onPkt
  split
  · obtain ⟨h1, h2, h3⟩ := (retire_frame (seqField p).toNat modN t).seq (drain_frame c _)
    exact ⟨h1, h2, by simpa [finish] using h3⟩
  · exact .still t rfl

/-- The resend loop only sends. -/
theorem resendSlots_delivery {c : Config} : ∀ {slots : List Nat} {w w' : Ring} {tr : List Action},
    resendSlots c w slots = .ok (w', tr) → deliveries tr = [] := by
  intro slots
  induction slots with
  | nil => intro w w' tr h; cases h; rfl
  | cons n slots ih =>
    intro w w' tr h
    unfold resendSlots at h
    split at h
    · cases h
    · dsimp only at h
      split at h
      · cases h
      · next hr => cases h; rw [deliveries_send]; exact ih hr

theorem onTmo_frame {c : Config} {t : Txu} {h : Txu × List Action} (he : t.onTmo c = .ok h) : TxFrame t h := by
  unfold Txu.onTmo at he
  split at he
  · cases he
  · next hr =>
    cases he
    exact ⟨rfl, rfl, by simp [finish, resendSlots_delivery hr]⟩

/-- Every handler of the TXU, in every state. -/
theorem txHandler_frame {s : State} {i : Instr} {h : Txu × List Action} (he : txHandler s i = .ok h) :
    TxFrame s.txu h := by
  cases i with
  | txMsg m => cases he; exact takeChunks_frame ..
  | txPktAck p | txPktData p | txPktK2 p | txPktK3 p | txPktUnsafe p => cases he; exact onPkt_frame ..
  | txTmo => exact onTmo_frame he
  | _ => cases he; exact .still _ rfl

/-- An event at the TXU that answers a next state: the unit was IDLE, the operands well formed, and the next state is
the handler's sender with the handler's trace taken. -/
theorem exec_atTxu_next {i : Instr} {s u : State} (hi : i.atTxu = true) (h : exec i s = .next u) :
    ∃ t tr, i.wellFormed s.cfg = true ∧ s.txu.control = .idle ∧ txHandler s i = .ok (t, tr) ∧
      u = commit .txu { s with txu := t } tr := by
  rw [exec_atTxu i s hi] at h
  exact runTxu_next h

/-- Settles O42: the handler has the frame, and taking its trace adds to the link and to nothing of the receiver. -/
theorem txEventsLeaveReceiverAlone : Obligations.TxEventsLeaveReceiverAlone := by
  intro i s u hi h
  obtain ⟨t, tr, -, -, hh, rfl⟩ := exec_atTxu_next hi h
  obtain ⟨hint, hctl, hdel⟩ := txHandler_frame hh
  rw [commit_txu]
  exact ⟨rfl, rfl, by rw [hdel, List.append_nil], rfl, rfl, rfl, rfl, hint, hctl, ⟨sends tr, rfl⟩, hdel⟩

/-- A trace without a timer command leaves the timer as it is. -/
theorem timerAfter_silent {tr : List Action} (b : Bool) (h : timerBits tr = []) : timerAfter b tr = b := by
  simp [timerAfter, h]

/-- A handler of the RXU commands no timer and keeps the control state. -/
theorem rxHandler_frame (s : State) (i : Instr) :
    (rxHandler s i).1.control = s.rxu.control ∧ timerBits (rxHandler s i).2 = [] := by
  have hpkt : ∀ p, (s.rxu.onPkt s.cfg p).1.control = s.rxu.control ∧ timerBits (s.rxu.onPkt s.cfg p).2 = [] := by
    intro p
    obtain ⟨-, h⟩ | ⟨-, -, h⟩ | ⟨-, -, h⟩ := rxu_onPkt_cases s.cfg s.rxu p <;> simp [h]
  cases i with
  | rxPktAck p | rxPktData p | rxPktK2 p | rxPktK3 p | rxPktUnsafe p => exact hpkt p
  | _ => exact ⟨rfl, rfl⟩

/-- Settles O43: the handler commands no timer, and taking its trace adds to the receiver's own outputs. -/
theorem rxEventsLeaveSenderAlone : Obligations.RxEventsLeaveSenderAlone := by
  intro i s t hi h
  obtain ⟨-, -, rfl⟩ := exec_atRxu_next hi h
  obtain ⟨hctl, hbits⟩ := rxHandler_frame s i
  rw [commit_rxu]
  exact ⟨rfl, timerAfter_silent _ hbits, rfl, rfl, rfl, rfl, rfl, hctl, hbits⟩

end Sys2Proof.Machine
end

section
/-! The invariants through one handler: each keeps the sender's invariants, sends images of `PKT_SIZE` bytes only and
leaves the timer running exactly while something is outstanding; and the launch state has them all (spec 10_state.md
R31, R43; 43_sender_ack_timeout.md R196, R201, R208). -/

namespace Sys2Proof.Machine

/-! ### Chunks and images have the sizes of the configuration -/

/-- Every piece FRAGMENT cuts off is a chunk (R165). -/
theorem fragmentSteps_sized {n : Nat} (hn : 0 < n) : ∀ (k : Nat) (m : Message),
    ∀ q ∈ fragmentSteps n k m, 1 ≤ q.length ∧ q.length ≤ n := by
  intro k
  induction k with
  | zero => intro m q hq; simp [fragmentSteps] at hq
  | succ k ih =>
    intro m q hq
    cases m with
    | nil => simp [fragmentSteps] at hq
    | cons b m =>
      rcases List.mem_cons.1 hq with rfl | hq
      · simp only [List.length_take, List.length_cons]; omega
      · exact ih _ q hq

theorem fragment_sized {c : Config} (hl : c.legal = true) (m : Message) :
    ∀ q ∈ fragment c m, 1 ≤ q.length ∧ q.length ≤ c.maxPayload := by
  obtain ⟨-, -, -, hpos, -, -⟩ := legal_bounds hl
  exact fragmentSteps_sized hpos m.length m

/-- Admitting chunks sends images of `PKT_SIZE` bytes. -/
theorem Admits.sends_sized {c : Config} {t t' : Txu} {qs : List Chunk} {tr : List Action} (h : Admits c t qs t' tr)
    (hl : c.legal = true) (hq : ∀ q ∈ qs, q.length ≤ c.maxPayload) : ∀ p ∈ sends tr, p.length = c.pktSize := by
  intro p hp
  rw [h.sent] at hp
  obtain ⟨i, hi, rfl⟩ := List.mem_map.1 hp
  have hi : i < qs.length := List.mem_range.1 hi
  exact mkData_length _ hl (hq _ (by simp [List.getD, hi]))

/-- The chunk read from a slot of the outstanding window fits a packet. -/
theorem Txu.Core.chunkAt_sized {c : Config} {t : Txu} (h : Txu.Core c t) (hl : c.legal = true) {n : Nat}
    (hn : n ∈ t.windowSlots) : (t.win.chunkAt n).length ≤ c.maxPayload := by
  obtain ⟨i, hi, rfl⟩ := List.mem_map.1 hn
  obtain ⟨q, hq, hr⟩ := h.slots i (List.mem_range.1 hi)
  simp only [Ring.chunkAt, hr, chunkOf_mkData _ hl hq.2]
  exact hq.2

/-! ### What every handler of the TXU keeps -/

/-- From a sender `t` with the timer at `b`, the outcome `h` of a handler is safe: the invariants hold, what is sent has
`PKT_SIZE` bytes, and I7 holds of the timer after the trace. -/
structure TxKeeps (c : Config) (b : Bool) (h : Txu × List Action) : Prop where
  safe : Txu.Safe c h.1
  sized : ∀ p ∈ sends h.2, p.length = c.pktSize
  timer : timerAfter b h.2 = decide (0 < h.1.outstandingCount)

/-- TX.MSG: only the first packet of an empty window starts the timer (R168, R172). -/
theorem onMsg_keeps {c : Config} {t : Txu} (hl : c.legal = true) (h : Txu.Safe c t) (m : Message) :
    TxKeeps c (decide (0 < t.outstandingCount)) (t.onMsg c m) := by
  unfold Txu.onMsg
  have hq := fragment_sized hl m
  have h5 := h.bounded
  have hcap := h.fifoCap
  obtain ⟨tr, hadm, hfifo, hcount, htr⟩ :=
    takeChunks_spec c (fragment c m) t 0 h.nextLt h.fifoLen h.full h5 h.fifoCap
  have hqs : ∀ n, ∀ q ∈ (fragment c m).take n, 1 ≤ q.length ∧ q.length ≤ c.maxPayload :=
    fun n q hmem => hq q (List.mem_of_mem_take hmem)
  have hout := hadm.outstandingCount
  rw [List.length_take] at hout
  refine ⟨⟨h.admits hl hadm ?_ (hqs _) ?_ ?_ ?_, ?_⟩, ?_, ?_⟩
  · rw [List.length_take]; omega
  · rw [hcount, hfifo, h.fifoLen]
    simp only [List.length_append, List.length_take, List.length_drop]
    omega
  · rw [hcount]; omega
  · rw [hfifo]
    intro q hmem
    rcases List.mem_append.1 hmem with hold | hnew
    · exact h.fifoChunks q hold
    · exact hq q (List.mem_of_mem_drop (List.mem_of_mem_take hnew))
  · have hfull := h.full
    rw [hcount, hout]; omega
  · rw [htr]
    simpa using hadm.sends_sized hl (fun q hmem => (hqs _ q hmem).2)
  · have hbits := hadm.timer
    rw [List.length_take] at hbits
    rw [htr, hout, timerAfter, timerBits_append, hbits]
    split <;> simp <;> omega

/-- A trace that stops the timer first and restarts it last leaves it running exactly where something is outstanding,
whatever it did before (R196, R201). -/
theorem timerAfter_restart {t : Txu} {tr : List Action} (b : Bool) (h : t.outstandingCount = 0 → timerBits tr = []) :
    timerAfter b ([.tstop] ++ tr ++ t.restart ++ finish 0) = decide (0 < t.outstandingCount) := by
  by_cases h0 : t.outstandingCount = 0
  · simp [timerAfter, timerBits_restart, finish, h0, h h0]
  · have hpos : 0 < t.outstandingCount := by omega
    have hbits : timerBits ([.tstop] ++ tr ++ t.restart ++ finish 0) = (false :: timerBits tr) ++ [true] := by
      simp [timerBits_restart, finish, hpos]
    rw [timerAfter, hbits, List.getLast?_concat, decide_eq_true hpos, Option.getD_some]

/-- The retire loop keeps the invariants but I6. -/
theorem Txu.Core.retire {c : Config} {t : Txu} (h : Txu.Core c t) (x : Nat) : Txu.Core c (t.retire x modN) := by
  cases hb : between t.ackExpected x t.nextToSend with
  | false => rw [retire_outside t x modN hb]; exact h
  | true =>
    obtain ⟨i, hi, rfl, -⟩ := h.inside hb
    have h5 := h.bounded
    rw [retire_inside t i modN h.ackLt h.nextLt (h.count ▸ hi) (by unfold modN; omega)]
    exact h.retired hi

/-- TX.PKT: an ACK retires, drains and restarts the timer; everything else changes nothing (R190 to R196). -/
theorem onPkt_keeps {c : Config} {t : Txu} (hl : c.legal = true) (h : Txu.Safe c t) (p : Image) :
    TxKeeps c (decide (0 < t.outstandingCount)) (t.onPkt c p) := by
  unfold Txu.onPkt
  split
  · have hcore := h.toCore.retire (seqField p).toNat
    obtain ⟨hadm, hlen, -, -, -⟩ := drain_core c _ hcore
    refine ⟨drain_safe hl hcore, ?_, timerAfter_restart _ ?_⟩
    · simpa [finish] using hadm.sends_sized hl
        (fun q hq => (hcore.fifoChunks q (List.mem_of_mem_take hq)).2)
    · intro h0
      have hout := hadm.outstandingCount
      rw [hadm.timer, if_neg (by omega)]
  · exact ⟨h, by simp [finish], by simp [finish, timerAfter]⟩

/-- TX.TMO: the window goes out again, the sender stays, and the timer is restarted whatever it did (R201, R208). -/
theorem onTmo_keeps {c : Config} {t : Txu} (hl : c.legal = true) (h : Txu.Safe c t) (b : Bool) :
    ∃ k, t.onTmo c = .ok k ∧ TxKeeps c b k := by
  refine ⟨_, onTmo_core hl h.toCore, h, ?_, timerAfter_restart b fun _ => ?_⟩
  all_goals
    rw [show t.windowSlots.map (fun n => Action.send (mkData c n (t.win.chunkAt n))) =
      (t.windowSlots.map fun n => mkData c n (t.win.chunkAt n)).map .send by simp [Function.comp_def]]
  · intro p hp
    simp only [sends_append, sends_map_send, sends_tstop, sends_restart, finish, sends_done, sends_nil, List.nil_append,
      List.append_nil, List.mem_map] at hp
    obtain ⟨n, hn, rfl⟩ := hp
    exact mkData_length n hl (h.chunkAt_sized hl hn)
  · exact timerBits_map_send _

/-- Every handler of the TXU, from a safe state; TX.TMO needs nothing of the timer. -/
theorem txHandler_keeps {s : State} (hs : State.Safe s) (i : Instr) {b : Bool}
    (hb : b = decide (0 < s.txu.outstandingCount) ∨ i = .txTmo) :
    ∃ h, txHandler s i = .ok h ∧ TxKeeps s.cfg b h := by
  by_cases hi : i = .txTmo
  · subst hi; exact onTmo_keeps hs.legal hs.txu b
  obtain rfl := hb.resolve_right hi
  cases i with
  | txMsg m => exact ⟨_, rfl, onMsg_keeps hs.legal hs.txu m⟩
  | txPktAck p | txPktData p | txPktK2 p | txPktK3 p | txPktUnsafe p =>
    exact ⟨_, rfl, onPkt_keeps hs.legal hs.txu p⟩
  | txTmo => exact absurd rfl hi
  | _ => exact ⟨_, rfl, hs.txu, nofun, rfl⟩

/-! ### What every handler of the RXU keeps -/

/-- The receiver's register stays in 0..60 and what is sent has `PKT_SIZE` bytes (R22, R65). -/
theorem rxHandler_keeps {s : State} (hs : State.Safe s) (i : Instr) :
    (rxHandler s i).1.expectedSeq < 61 ∧ ∀ p ∈ sends (rxHandler s i).2, p.length = s.cfg.pktSize := by
  have hpkt : ∀ p, (s.rxu.onPkt s.cfg p).1.expectedSeq < 61 ∧
      ∀ a ∈ sends (s.rxu.onPkt s.cfg p).2, a.length = s.cfg.pktSize := by
    intro p
    obtain ⟨-, h⟩ | ⟨-, -, h⟩ | ⟨-, -, h⟩ := rxu_onPkt_cases s.cfg s.rxu p
    · simp [h, hs.expectedLt]
    · simp [h, hs.expectedLt, mkAck_length _ hs.legal]
    · simp [h, seqInc_lt, mkAck_length _ hs.legal]
  cases i with
  | rxPktAck p | rxPktData p | rxPktK2 p | rxPktK3 p | rxPktUnsafe p => exact hpkt p
  | _ => exact ⟨hs.expectedLt, nofun⟩

/-! ### Reset -/

theorem Txu.reset_safe (c : Config) : Txu.Safe c (Txu.reset c) where
  ackLt := by simp [Txu.reset]
  nextLt := by simp [Txu.reset]
  count := by simp [Txu.reset, seqDist]
  bounded := by simp [Txu.reset]
  fifoLen := rfl
  fifoCap := Nat.zero_le _
  fifoChunks := by simp [Txu.reset]
  slots := by simp [Txu.reset]
  canonical := rfl
  images := by simp [Txu.reset]
  interval := rfl
  full := by simp [Txu.reset]

theorem State.resetWith_safe {c : Config} (hl : c.legal = true) : State.Safe (State.resetWith c) where
  legal := hl
  txu := Txu.reset_safe c
  expectedLt := by simp [State.resetWith, Rxu.reset]
  txuIdle := rfl
  rxuIdle := rfl
  toRxu := by simp [State.resetWith]
  toTxu := by simp [State.resetWith]

/-- Settles O55: the launch state's registers are 0 and its lists are empty. -/
theorem resetStateIsSafe : Obligations.ResetStateIsSafe := by
  intro c hl
  have hnone : (State.resetWith c).txu.windowSlots = [] := rfl
  refine ⟨(State.inv_iff _).2 (State.resetWith_safe hl), rfl, ?_, ?_⟩
  · simp [State.inOrder, State.received, State.resetWith, Txu.reset, Rxu.reset, seqDist]
  · rw [State.accepted, hnone, List.drop_nil]; rfl

end Sys2Proof.Machine
end

section
/-! What a port can present: which instructions each port's bytes decode to (spec 30_encoding.md R91, R92, R99 to
R101). -/

namespace Sys2Proof

namespace Decode

theorem messageOperand_ok {c : Config} {mk : Message → Instr} {m : Message} {i : Instr}
    (h : messageOperand c mk m = .ok i) : i = mk m := by
  unfold messageOperand at h
  split at h <;> cases h
  rfl

theorem noOperand_ok {j i : Instr} {operand : List Byte} (h : noOperand j operand = .ok i) : i = j := by
  cases operand <;> cases h
  rfl

theorem packetOperand_ok {c : Config} {sub : Image → Instr} {p : Image} {i : Instr}
    (h : packetOperand c sub p = .ok i) : i = sub p := by
  unfold packetOperand at h
  split at h <;> cases h
  rfl

theorem txPacket_atTxu (c : Config) (p : Image) : (txPacket c p).atTxu = true := by
  unfold txPacket
  repeat' split
  all_goals rfl

theorem rxPacket_atRxu (c : Config) (p : Image) : (rxPacket c p).atRxu = true := by
  unfold rxPacket
  repeat' split
  all_goals rfl

theorem txCommand_atTxu {c : Config} {code : Byte} {operand : List Byte} {i : Instr}
    (h : txCommand c code operand = .ok i) : i.atTxu = true := by
  unfold txCommand at h
  split at h
  · rw [messageOperand_ok h]; rfl
  split at h
  · rw [packetOperand_ok h]; exact txPacket_atTxu c operand
  split at h
  · rw [noOperand_ok h]; rfl
  split at h
  · rw [noOperand_ok h]; rfl
  · cases h

theorem rxCommand_atRxu {c : Config} {code : Byte} {operand : List Byte} {i : Instr}
    (h : rxCommand c code operand = .ok i) : i.atRxu = true := by
  unfold rxCommand at h
  split at h
  · rw [messageOperand_ok h]; rfl
  split at h
  · rw [packetOperand_ok h]; exact rxPacket_atRxu c operand
  split at h
  · rw [noOperand_ok h]; rfl
  split at h
  · rw [noOperand_ok h]; rfl
  · cases h

theorem timerCommand_ok {code : Byte} {i : Instr} (h : timerCommand code = .ok i) : i = .tstart ∨ i = .tstop := by
  unfold timerCommand at h
  split at h
  · cases h; exact .inl rfl
  split at h
  · cases h; exact .inr rfl
  · cases h

/-- An image on the link port stands for an operation without state. -/
theorem exec_wireImage (c : Config) (p : Image) (s : Machine.State) :
    ∃ v, Machine.exec (wireImage c p) s = Machine.runValue (wireImage c p) s v := by
  unfold wireImage
  dsimp only
  split
  · exact ⟨_, rfl⟩
  split <;> exact ⟨_, rfl⟩

end Decode

/-- What the bytes of each port decode to: an event of the unit, a command of the timer, or an operation without state. -/
theorem decode_ok {c : Config} {port : Port} {bytes : List Byte} {i : Instr} (h : decode c port bytes = .ok i) :
    (port = .txu ∧ i.atTxu = true) ∨ (port = .rxu ∧ i.atRxu = true) ∨
    (port = .timer ∧ (i = .tstart ∨ i = .tstop)) ∨
    (port = .link ∧ ∀ s, ∃ v, Machine.exec i s = Machine.runValue i s v) := by
  unfold decode at h
  split at h
  · exact .inl ⟨rfl, Decode.txCommand_atTxu h⟩
  · exact .inr (.inl ⟨rfl, Decode.rxCommand_atRxu h⟩)
  · exact .inr (.inr (.inl ⟨rfl, Decode.timerCommand_ok h⟩))
  · cases h
  · split at h <;> cases h
    exact .inr (.inr (.inr ⟨rfl, Decode.exec_wireImage c _⟩))
  · cases h

end Sys2Proof
end

section
/-! What a step can be, said once: a refusal, a move that runs no handler, an event of a unit, a firing of the timer, a
raw timer command, or a reset (spec 60_exceptions.md R228, R232 to R238; 70_reset_and_hazards.md R260). -/

namespace Sys2Proof.Machine

/-- `t` has the parameters and the two units of `s`, and the link holds no image of another size than it did. -/
structure SameUnits (s t : State) : Prop where
  cfg : t.cfg = s.cfg
  txu : t.txu = s.txu
  rxu : t.rxu = s.rxu
  links : ∀ u, ∀ p ∈ t.inFlight u, p ∈ s.inFlight u ∨ p.length = s.cfg.pktSize

/-- A move that runs no handler and commands no timer leads from `s` to `t`. -/
structure Quiet (s t : State) : Prop extends SameUnits s t where
  timer : t.timerRunning = s.timerRunning

/-- The outcome `o'` is `o`, a next state being left by a further quiet move: the producer's, after a handler (R238). -/
inductive Follows : Host.Outcome State Fault Refusal → Host.Outcome State Fault Refusal → Prop where
  | next {t t' : State} (h : Quiet t t') : Follows (.next t) (.next t')
  | fault (f : Fault) : Follows (.fault f) (.fault f)
  | refused (r : Refusal) : Follows (.refused r) (.refused r)

/-- The ways a step from `s` can answer. -/
inductive StepShape (s : State) : Host.Outcome State Fault Refusal → Prop where
  /-- Nothing happens. -/
  | refused (r : Refusal) : StepShape s (.refused r)
  /-- A move that runs no handler, or an operation without state. -/
  | quiet {t : State} (h : Quiet s t) : StepShape s (.next t)
  /-- An event of the TXU. -/
  | tx {i : Instr} {s' : State} {o : Host.Outcome State Fault Refusal} (hi : i.atTxu = true) (h : Quiet s s')
      (ho : Follows (exec i s') o) : StepShape s o
  /-- An event of the RXU. -/
  | rx {i : Instr} {s' : State} {o : Host.Outcome State Fault Refusal} (hi : i.atRxu = true) (h : Quiet s s')
      (ho : exec i s' = o) : StepShape s o
  /-- The timer fires. -/
  | fire {s' : State} {o : Host.Outcome State Fault Refusal} (h : SameUnits s s') (ho : exec .txTmo s' = o) :
      StepShape s o
  /-- A raw word of the timer port. -/
  | timer {bytes : List Byte} {t : State} (hw : s.inputs.head? = some (.word .timer bytes)) (h : SameUnits s t) :
      StepShape s (.next t)
  /-- A reset. -/
  | reset {u : ResetTarget} {s' : State} {o : Host.Outcome State Fault Refusal} (h : Quiet s s')
      (ho : execReset u s' = o) : StepShape s o

/-! ### Quiet moves -/

theorem SameUnits.refl (s : State) : SameUnits s s := ⟨rfl, rfl, rfl, fun _ _ => .inl⟩

theorem SameUnits.trans {s t u : State} (h : SameUnits s t) (k : SameUnits t u) : SameUnits s u where
  cfg := k.cfg.trans h.cfg
  txu := k.txu.trans h.txu
  rxu := k.rxu.trans h.rxu
  links v p hp := (k.links v p hp).elim (h.links v p) (fun hlen => .inr (h.cfg ▸ hlen))

theorem Quiet.trans {s t u : State} (h : Quiet s t) (k : Quiet t u) : Quiet s u :=
  ⟨h.toSameUnits.trans k.toSameUnits, k.timer.trans h.timer⟩

theorem Follows.refl (o : Host.Outcome State Fault Refusal) : Follows o o := by
  cases o with
  | next t => exact .next ⟨.refl t, rfl⟩
  | fault f => exact .fault f
  | refused r => exact .refused r

theorem Follows.next_inv {o : Host.Outcome State Fault Refusal} {t : State} (h : Follows o (.next t)) :
    ∃ t1, o = .next t1 ∧ Quiet t1 t := by
  cases h with
  | next h => exact ⟨_, rfl, h⟩

theorem Follows.fault_inv {o : Host.Outcome State Fault Refusal} {f : Fault} (h : Follows o (.fault f)) :
    o = .fault f := by
  cases h
  rfl

theorem quiet_inputs (s : State) (ins : List Input) : Quiet s { s with inputs := ins } :=
  ⟨⟨rfl, rfl, rfl, fun u _ hp => .inl (inFlight_inputs s u ins ▸ hp)⟩, rfl⟩

theorem quiet_pending (s : State) (ms : List Message) : Quiet s { s with pending := ms } :=
  ⟨⟨rfl, rfl, rfl, fun u _ hp => .inl (by cases u <;> exact hp)⟩, rfl⟩

theorem quiet_trace (s : State) (tr : List Action) : Quiet s { s with trace := tr } :=
  ⟨⟨rfl, rfl, rfl, fun u _ hp => .inl (by cases u <;> exact hp)⟩, rfl⟩

theorem quiet_result (s : State) (v : Value) : Quiet s { s with result := v } :=
  ⟨⟨rfl, rfl, rfl, fun u _ hp => .inl (by cases u <;> exact hp)⟩, rfl⟩

theorem sameUnits_timer (s : State) (b : Bool) : SameUnits s { s with timerRunning := b } :=
  ⟨rfl, rfl, rfl, fun u _ hp => .inl (by cases u <;> exact hp)⟩

/-- Exchanging the images in one direction for images of it and others of the right size. -/
theorem quiet_setInFlight (s : State) (u : Side) {ps : List Image}
    (h : ∀ p ∈ ps, p ∈ s.inFlight u ∨ p.length = s.cfg.pktSize) : Quiet s (s.setInFlight u ps) where
  cfg := setInFlight_cfg ..
  txu := setInFlight_txu ..
  rxu := setInFlight_rxu ..
  timer := setInFlight_timerRunning ..
  links v p hp := by
    by_cases hv : v = u
    · subst hv; exact h p (setInFlight_inFlight s v ps ▸ hp)
    · exact .inl (setInFlight_other s ps hv ▸ hp)

/-- Taking an image out of a direction. -/
theorem quiet_eraseIdx (s : State) (u : Side) (k : Nat) :
    Quiet s (s.setInFlight u ((s.inFlight u).eraseIdx k)) :=
  quiet_setInFlight s u fun _ hp => .inl (List.mem_of_mem_eraseIdx hp)

/-! ### The shape of a step -/

/-- A move of the link on its `k`-th image, after a quiet move: it puts images of the link or of the right size there. -/
theorem linkMove_shape {s s' : State} (hq : Quiet s s') (u : Side) (k : Nat) {f : Image → List Image}
    (hf : ∀ p, (s'.inFlight u)[k]? = some p → ∀ q ∈ f p, q ∈ s'.inFlight u ∨ q.length = s'.cfg.pktSize) :
    StepShape s (linkMove s' u k f) := by
  unfold linkMove
  split
  · exact .refused _
  · next p hp => exact .quiet ((hq.trans (quiet_setInFlight s' u (hf p hp))).trans (quiet_trace _ _))

/-- A transaction presented after a quiet move; on the timer port it is the word at the head of the inputs. -/
theorem present_shape {s s' : State} (hq : Quiet s s') {port : Port} {bytes : List Byte}
    (ht : port = .timer → s.inputs.head? = some (.word .timer bytes)) : StepShape s (present port bytes s') := by
  unfold present
  cases hd : decode s'.cfg port bytes with
  | error e => exact .refused _
  | ok i =>
    obtain ⟨-, hi⟩ | ⟨-, hi⟩ | ⟨hp, hi⟩ | ⟨-, hv⟩ := decode_ok hd
    · exact .tx hi hq (.refl _)
    · exact .rx hi hq rfl
    · obtain rfl | rfl := hi
      · exact .timer (ht hp) ((hq.toSameUnits.trans (sameUnits_timer s' true)).trans (quiet_trace _ _).toSameUnits)
      · exact .timer (ht hp) ((hq.toSameUnits.trans (sameUnits_timer s' false)).trans (quiet_trace _ _).toSameUnits)
    · obtain ⟨v, hv⟩ := hv s'
      show StepShape s (exec i s')
      rw [hv]
      unfold runValue
      split
      · exact .quiet ((hq.trans (quiet_trace s' [])).trans (quiet_result _ v))
      · exact .refused _

theorem linkDeliver_shape {s s' : State} (hq : Quiet s s') (u : Side) (k : Nat) :
    StepShape s (linkDeliver s' u k) := by
  unfold linkDeliver
  split
  · exact .refused _
  · exact present_shape (hq.trans (quiet_eraseIdx s' u k)) (fun h => by cases u <;> cases h)

theorem timerFire_shape {s s' : State} (hq : Quiet s s') : StepShape s (timerFire s') := by
  unfold timerFire
  split
  · exact .fire (hq.toSameUnits.trans (sameUnits_timer s' false)) rfl
  · exact .refused _

theorem producerPresent_shape {s s' : State} (hq : Quiet s s') (again : Bool) :
    StepShape s (producerPresent again s') := by
  unfold producerPresent
  split
  · exact .refused _
  · next m rest hm =>
    have hq' := hq.trans (quiet_pending s' rest)
    cases hd : decode s'.cfg .txu (0 :: m) with
    | error e => simp only [present, hd]; exact .refused _
    | ok i =>
      have hi : i.atTxu = true := Decode.txCommand_atTxu hd
      simp only [present, hd]
      refine .tx hi hq' ?_
      cases exec i { s' with pending := rest } with
      | next t =>
        dsimp only
        split
        · exact .next (quiet_pending t _)
        · exact .refl _
      | fault f => exact .refl _
      | refused r => exact .refl _

/-- Every outcome of a step has one of the shapes. -/
theorem step_shape {s : State} {o : Host.Outcome State Fault Refusal} (h : step s = o) : StepShape s o := by
  subst h
  unfold step
  split
  · exact .quiet ⟨.refl s, rfl⟩
  next i rest hin =>
  have hq := quiet_inputs s rest
  cases i with
  | word port bytes => exact present_shape hq (fun h => by rw [hin, h]; rfl)
  | rst u => exact .reset hq rfl
  | fire => exact timerFire_shape hq
  | deliver u k => exact linkDeliver_shape hq u k
  | drop u k => exact linkMove_shape hq u k fun _ _ _ hmem => .inl (List.mem_of_mem_eraseIdx hmem)
  | duplicate u k =>
    refine linkMove_shape hq u k fun _ hp q hmem => ?_
    rcases List.mem_append.1 hmem with hold | hnew
    · exact .inl hold
    · obtain rfl := List.mem_singleton.1 hnew
      exact .inl (List.mem_of_getElem? hp)
  | corrupt u k p =>
    dsimp only [takeInput]
    split
    · next hfit =>
      refine linkMove_shape hq u k fun _ _ q hmem => ?_
      rcases List.mem_or_eq_of_mem_set hmem with hold | rfl
      · exact .inl hold
      · exact .inr (of_decide_eq_true hfit)
    · exact .refused _
  | submit m =>
    dsimp only [takeInput]
    split
    · exact .quiet ((hq.trans (quiet_pending _ _)).trans (quiet_trace _ _))
    · exact .refused _
  | present again => exact producerPresent_shape hq again

end Sys2Proof.Machine
end

section
/-! Every step keeps the invariants, and from a safe state none ends in a fault (spec 10_state.md R22, R31, R43;
60_exceptions.md R220; 43_sender_ack_timeout.md R208). -/

namespace Sys2Proof.Machine

/-- The safety of a state speaks of the parameters, the units and the sizes in the link alone. -/
theorem SameUnits.safe {s t : State} (h : SameUnits s t) (hs : State.Safe s) : State.Safe t where
  legal := h.cfg ▸ hs.legal
  txu := by rw [h.cfg, h.txu]; exact hs.txu
  expectedLt := h.rxu ▸ hs.expectedLt
  txuIdle := h.txu ▸ hs.txuIdle
  rxuIdle := h.rxu ▸ hs.rxuIdle
  toRxu p hp := by rw [h.cfg]; exact (h.links .rxu p hp).elim (hs.toRxu p) id
  toTxu p hp := by rw [h.cfg]; exact (h.links .txu p hp).elim (hs.toTxu p) id

theorem timerMatches_iff (s : State) : s.timerMatches = true ↔ s.timerRunning = decide (0 < s.txu.outstandingCount) :=
  decide_eq_true_iff

theorem Quiet.timerMatches {s t : State} (h : Quiet s t) (hm : s.timerMatches = true) : t.timerMatches = true := by
  rw [timerMatches_iff, h.timer, h.txu]
  exact (timerMatches_iff s).1 hm

/-- An event of the TXU from a safe state leaves a safe state, and a timer that matches where it did before or the event
is the timeout, which needs nothing of it (R208). -/
theorem exec_atTxu_keeps {i : Instr} {s t : State} (hi : i.atTxu = true) (hs : State.Safe s)
    (h : exec i s = .next t) :
    State.Safe t ∧ (s.timerMatches = true ∨ i = .txTmo → t.timerMatches = true) := by
  obtain ⟨x, tr, -, -, hh, rfl⟩ := exec_atTxu_next hi h
  have hctl := (txHandler_frame hh).control
  have keeps : ∀ {b}, b = decide (0 < s.txu.outstandingCount) ∨ i = .txTmo → TxKeeps s.cfg b (x, tr) := by
    intro b hb
    obtain ⟨k, hk, hkeeps⟩ := txHandler_keeps hs i hb
    cases hh.symm.trans hk
    exact hkeeps
  constructor
  · obtain ⟨hsafe, hsized, -⟩ := keeps (.inl rfl)
    rw [commit_txu]
    exact ⟨hs.legal, hsafe, hs.expectedLt, hctl.trans hs.txuIdle, hs.rxuIdle,
      fun p hp => (List.mem_append.1 hp).elim (hs.toRxu p) (hsized p), hs.toTxu⟩
  · intro hm
    rw [commit_txu, timerMatches_iff]
    exact (keeps (hm.imp_left (timerMatches_iff s).1)).timer

/-- An event of the RXU from a safe state leaves a safe state. -/
theorem exec_atRxu_safe {i : Instr} {s t : State} (hi : i.atRxu = true) (hs : State.Safe s)
    (h : exec i s = .next t) : State.Safe t := by
  obtain ⟨-, -, rfl⟩ := exec_atRxu_next hi h
  obtain ⟨hlt, hsized⟩ := rxHandler_keeps hs i
  obtain ⟨hctl, -⟩ := rxHandler_frame s i
  rw [commit_rxu]
  exact ⟨hs.legal, hs.txu, hlt, hs.txuIdle, hctl.trans hs.rxuIdle, hs.toRxu,
    fun p hp => (List.mem_append.1 hp).elim (hs.toTxu p) (hsized p)⟩

/-- An event of the RXU touches neither the timer nor the sender's count (R208). -/
theorem exec_atRxu_timerMatches {i : Instr} {s t : State} (hi : i.atRxu = true) (hm : s.timerMatches = true)
    (h : exec i s = .next t) : t.timerMatches = true := by
  obtain ⟨htxu, htimer, -⟩ := rxEventsLeaveSenderAlone i s t hi h
  rw [timerMatches_iff, htimer, htxu]
  exact (timerMatches_iff s).1 hm

theorem exec_atTxu_ne_fault {i : Instr} {s : State} (hi : i.atTxu = true) (hs : State.Safe s) (f : Fault) :
    exec i s ≠ .fault f := by
  intro hf
  rw [exec_atTxu i s hi] at hf
  obtain ⟨k, hk, -⟩ := txHandler_keeps hs i (.inl rfl)
  obtain ⟨_, _, -, -, -, hr⟩ | ⟨g, he, -⟩ | ⟨r, hr⟩ := runTxu_cases i s (txHandler s i)
  · cases hf.symm.trans hr
  · cases hk.symm.trans he
  · cases hf.symm.trans hr

theorem exec_atRxu_ne_fault {i : Instr} (s : State) (hi : i.atRxu = true) (f : Fault) : exec i s ≠ .fault f := by
  rw [exec_atRxu i s hi]
  unfold runRxu
  repeat' split
  all_goals exact fun h => by cases h

/-- A reset that answers a next state is one of the three; no reset faults (R260). -/
theorem execReset_next {u : ResetTarget} {s t : State} (h : execReset u s = .next t) :
    t = resetTxu s ∨ t = resetRxu s ∨ t = resetSystem s := by
  unfold execReset at h
  split at h <;> cases h <;> simp

theorem execReset_ne_fault (u : ResetTarget) (s : State) (f : Fault) : execReset u s ≠ .fault f := by
  unfold execReset
  split <;> exact fun h => by cases h

theorem resetTxu_safe {s : State} (hs : State.Safe s) : State.Safe (resetTxu s) :=
  ⟨hs.legal, Txu.reset_safe s.cfg, hs.expectedLt, rfl, hs.rxuIdle, hs.toRxu, hs.toTxu⟩

theorem resetRxu_safe {s : State} (hs : State.Safe s) : State.Safe (resetRxu s) :=
  ⟨hs.legal, hs.txu, Nat.zero_lt_succ 60, hs.txuIdle, rfl, hs.toRxu, hs.toTxu⟩

theorem resetSystem_safe {s : State} (hs : State.Safe s) : State.Safe (resetSystem s) := by
  obtain ⟨hl, htxu, hlt, hti, hri, -, -⟩ := resetRxu_safe (resetTxu_safe hs)
  exact ⟨hl, htxu, hlt, hti, hri, nofun, nofun⟩

theorem execReset_safe {u : ResetTarget} {s t : State} (hs : State.Safe s) (h : execReset u s = .next t) :
    State.Safe t := by
  obtain rfl | rfl | rfl := execReset_next h
  · exact resetTxu_safe hs
  · exact resetRxu_safe hs
  · exact resetSystem_safe hs

/-- A reset of the TXU stops its timer with it (R261). -/
theorem execReset_timerMatches {u : ResetTarget} {s t : State} (hm : s.timerMatches = true)
    (h : execReset u s = .next t) : t.timerMatches = true := by
  obtain rfl | rfl | rfl := execReset_next h
  · rfl
  · exact hm
  · rfl

/-- Settles O56: by the shape of the step. -/
theorem stepKeepsSafety : Obligations.StepKeepsSafety := by
  intro s t hs h
  rw [State.inv_iff] at hs ⊢
  cases step_shape h with
  | quiet hq => exact hq.safe hs
  | tx hi hq hf =>
    obtain ⟨t1, h1, hq1⟩ := Follows.next_inv hf
    exact hq1.safe (exec_atTxu_keeps hi (hq.safe hs) h1).1
  | rx hi hq ho => exact exec_atRxu_safe hi (hq.safe hs) ho
  | fire hu ho => exact (exec_atTxu_keeps rfl (hu.safe hs) ho).1
  | timer _ hu => exact hu.safe hs
  | reset hq ho => exact execReset_safe (hq.safe hs) ho

/-- Settles O57: only the TXU's handlers could fault, and from a safe state none does. -/
theorem safeStatesNeverFault : Obligations.SafeStatesNeverFault := by
  intro s f hs h
  rw [State.inv_iff] at hs
  cases step_shape h with
  | tx hi hq hf => exact exec_atTxu_ne_fault hi (hq.safe hs) f (Follows.fault_inv hf)
  | rx hi hq ho => exact exec_atRxu_ne_fault _ hi f ho
  | fire hu ho => exact exec_atTxu_ne_fault rfl (hu.safe hs) f ho
  | reset hq ho => exact execReset_ne_fault _ _ f ho

/-- Settles O58: every handler of the TXU leaves the timer matching, a firing too, and no other move touches it. -/
theorem stepKeepsTimerMatching : Obligations.StepKeepsTimerMatching := by
  intro s t hs hm hraw h
  rw [State.inv_iff] at hs
  cases step_shape h with
  | quiet hq => exact hq.timerMatches hm
  | tx hi hq hf =>
    obtain ⟨t1, h1, hq1⟩ := Follows.next_inv hf
    exact hq1.timerMatches ((exec_atTxu_keeps hi (hq.safe hs) h1).2 (.inl (hq.timerMatches hm)))
  | rx hi hq ho => exact exec_atRxu_timerMatches hi (hq.timerMatches hm) ho
  | fire hu ho => exact (exec_atTxu_keeps rfl (hu.safe hs) ho).2 (.inr rfl)
  | timer hw _ => exact absurd hw (hraw _)
  | reset hq ho => exact execReset_timerMatches (hq.timerMatches hm) ho

end Sys2Proof.Machine
end

section
/-! A step on a presented transaction: the input at the head is consumed, and what its bytes decode to is run or the port
refuses them (spec 20_memory.md R67, 30_encoding.md R92, 60_exceptions.md R228, R245).
A driven `rst` is an input of its own (70_reset_and_hazards.md R260). -/

namespace Sys2Proof.Machine

theorem step_nil {s : State} (h : s.inputs = []) : step s = .next s := by
  unfold step
  rw [h]

theorem step_cons {s : State} {i : Input} {rest : List Input} (h : s.inputs = i :: rest) :
    step s = takeInput i { s with inputs := rest } := by
  unfold step
  rw [h]

/-- The input is consumed first, and the transaction presented to what is left. -/
theorem step_word {s : State} {port : Port} {bytes : List Byte} {rest : List Input}
    (h : s.inputs = .word port bytes :: rest) : step s = present port bytes { s with inputs := rest } :=
  step_cons h

/-- A driven reset is the instruction RESET (R260). -/
theorem step_rst {s : State} {u : ResetTarget} {rest : List Input} (h : s.inputs = .rst u :: rest) :
    step s = exec (.reset u) { s with inputs := rest } :=
  step_cons h

theorem present_ok {port : Port} {bytes : List Byte} {s : State} {i : Instr} (h : decode s.cfg port bytes = .ok i) :
    present port bytes s = exec i s := by
  unfold present
  rw [h]

theorem present_error {port : Port} {bytes : List Byte} {s : State} {e : DecodeError}
    (h : decode s.cfg port bytes = .error e) : present port bytes s = .refused (.portRefuses e) := by
  unfold present
  rw [h]

/-- Settles O2: by the input at the head of the list, and for a transaction by what its bytes decode to. Consuming the
input leaves the parameters, and so the decoding, alone. -/
theorem stepRunsPresentedInstruction : Obligations.StepRunsPresentedInstruction := by
  intro s port bytes rest hin
  exact ⟨fun i hi => (step_word hin).trans (present_ok hi), fun e he => (step_word hin).trans (present_error he),
    step_nil rfl, fun u => step_rst rfl⟩

end Sys2Proof.Machine
end

section
/-! The fields of a packet image: what each accessor reads of a PACK, PACK of an image's own fields, and the images
MKDATA and MKACK build as PACKs of their fields (spec 30_encoding.md R91 to R98, 40_codec.md R124, R128, R129). -/

namespace Sys2Proof.Machine

/-! ### The accessors on a PACK -/

@[simp] theorem lenField_packImage (l : Byte) (k : Kind) (s : WireSeq) (v : Word32) (q : List Byte) :
    lenField (packImage l k s v q) = l := rfl

@[simp] theorem kindField_packImage (l : Byte) (k : Kind) (s : WireSeq) (v : Word32) (q : List Byte) :
    kindField (packImage l k s v q) = k := BitVec.extractLsb'_append_eq_left

@[simp] theorem seqField_packImage (l : Byte) (k : Kind) (s : WireSeq) (v : Word32) (q : List Byte) :
    seqField (packImage l k s v q) = s := BitVec.extractLsb'_append_eq_right

/-- The four bytes of a stored value, joined again (R62). -/
theorem join_bytesLe32 (v : Word32) :
    v.extractLsb' 24 8 ++ v.extractLsb' 16 8 ++ v.extractLsb' 8 8 ++ v.extractLsb' 0 8 = v := by
  rw [BitVec.extractLsb'_append_extractLsb'_eq_extractLsb' (show 24 = 16 + 8 from rfl),
    BitVec.extractLsb'_append_extractLsb'_eq_extractLsb' (show 16 = 8 + 8 from rfl)]
  exact BitVec.extractLsb'_append_extractLsb'

@[simp] theorem chkField_packImage (l : Byte) (k : Kind) (s : WireSeq) (v : Word32) (q : List Byte) :
    chkField (packImage l k s v q) = v := join_bytesLe32 v

@[simp] theorem payField_packImage (l : Byte) (k : Kind) (s : WireSeq) (v : Word32) (q : List Byte) :
    payField (packImage l k s v q) = q := rfl

/-! ### PACK of an image's own fields -/

/-- The four bytes a 32-bit value was joined of (R62, R96). -/
theorem bytesLe32_join (x0 x1 x2 x3 : Byte) : bytesLe32 (x3 ++ x2 ++ x1 ++ x0) = [x0, x1, x2, x3] := by
  have h0 : (x3 ++ x2 ++ x1 ++ x0).extractLsb' 0 8 = x0 := BitVec.extractLsb'_append_eq_right
  have h1 : (x3 ++ x2 ++ x1 ++ x0).extractLsb' 8 8 = x1 := by
    rw [BitVec.extractLsb'_append_eq_of_le (le_refl 8)]
    exact BitVec.extractLsb'_append_eq_right
  have h2 : (x3 ++ x2 ++ x1 ++ x0).extractLsb' 16 8 = x2 := by
    rw [BitVec.extractLsb'_append_eq_of_le (by decide), BitVec.extractLsb'_append_eq_of_le (le_refl 8)]
    exact BitVec.extractLsb'_append_eq_right
  have h3 : (x3 ++ x2 ++ x1 ++ x0).extractLsb' 24 8 = x3 := by
    rw [BitVec.extractLsb'_append_eq_of_le (by decide), BitVec.extractLsb'_append_eq_of_le (by decide)]
    exact BitVec.extractLsb'_append_eq_left
  unfold bytesLe32
  rw [h0, h1, h2, h3]

/-- An image with a header is PACK of its own fields (R98). -/
theorem packImage_fields {p : Image} (h : 6 ≤ p.length) :
    packImage (lenField p) (kindField p) (seqField p) (chkField p) (payField p) = p := by
  match p, h with
  | a :: b :: x0 :: x1 :: x2 :: x3 :: r, _ =>
    have hb : b.extractLsb' 6 2 ++ b.extractLsb' 0 6 = b := BitVec.extractLsb'_append_extractLsb'
    change a :: (b.extractLsb' 6 2 ++ b.extractLsb' 0 6) :: (bytesLe32 (x3 ++ x2 ++ x1 ++ x0) ++ r) = _
    rw [hb, bytesLe32_join]
    rfl

/-- Settles O13: field by field; exec of PACK runs on any payload region of the right size. -/
theorem packAndAccessorsInvert : Obligations.PackAndAccessorsInvert := by
  refine ⟨fun s l k q v pay hpay => ⟨?_, lenField_packImage .., kindField_packImage .., seqField_packImage ..,
    chkField_packImage .., payField_packImage ..⟩, fun p hp => packImage_fields hp⟩
  have hw : (Instr.pack l k q v pay).wellFormed s.cfg = true := decide_eq_true hpay
  exact if_pos hw

/-! ### The images the building operations make -/

/-- ENCODE_CHECKSUM of a PACK changes the checksum field alone (R124). -/
theorem encodeChecksum_packImage (c : Config) (l : Byte) (k : Kind) (s : WireSeq) (v : Word32) (q : List Byte) :
    (encodeChecksum c (packImage l k s v q)).1 = packImage l k s (chk c (l :: (k ++ s) :: q)) q :=
  encodeChecksum_cons c ..

@[simp] theorem kindField_mkData (c : Config) (n : Nat) (q : Chunk) : kindField (mkData c n q) = kindData := by
  rw [mkData, encodeChecksum_packImage, kindField_packImage]

@[simp] theorem kindField_mkAck (c : Config) (n : Nat) : kindField (mkAck c n) = kindAck := by
  rw [mkAck, encodeChecksum_packImage, kindField_packImage]

theorem seqField_mkData (c : Config) {n : Nat} (q : Chunk) (hn : n < 61) : (seqField (mkData c n q)).toNat = n := by
  rw [mkData, encodeChecksum_packImage, seqField_packImage, BitVec.toNat_ofNat]
  exact Nat.mod_eq_of_lt (by omega)

theorem seqField_mkAck (c : Config) {n : Nat} (hn : n < 61) : (seqField (mkAck c n)).toNat = n := by
  rw [mkAck, encodeChecksum_packImage, seqField_packImage, BitVec.toNat_ofNat]
  exact Nat.mod_eq_of_lt (by omega)

/-- No image is both an ACK that MKACK builds and a packet that MKDATA builds: the kinds differ (R94). -/
theorem mkData_ne_mkAck (c : Config) (n m : Nat) (q : Chunk) : mkData c n q ≠ mkAck c m := by
  intro h
  have hk := congrArg kindField h
  rw [kindField_mkData, kindField_mkAck] at hk
  exact absurd hk (by decide)

end Sys2Proof.Machine
end

section
/-! Decoding and encoding: what each operand form and each port accepts, said as an equivalence; the sub-decode of a
packet and of a wire image by cases; and from these the two directions of the inversion (spec 30_encoding.md R91 to R101). -/

namespace Sys2Proof

namespace Decode

open Machine

/-! ### The operand forms -/

theorem messageOperand_iff {c : Config} {mk : Message → Instr} {m : Message} {i : Instr} :
    messageOperand c mk m = .ok i ↔ c.messageFits m = true ∧ i = mk m := by
  cases h : c.messageFits m <;> simp [messageOperand, h, eq_comm]

theorem noOperand_iff {j i : Instr} {operand : List Byte} :
    noOperand j operand = .ok i ↔ operand = [] ∧ i = j := by
  cases operand <;> simp [noOperand, eq_comm]

theorem packetOperand_iff {c : Config} {sub : Image → Instr} {p : Image} {i : Instr} :
    packetOperand c sub p = .ok i ↔ c.imageFits p = true ∧ i = sub p := by
  cases h : c.imageFits p <;> simp [packetOperand, h, eq_comm]

/-! ### The sub-decode of a packet -/

theorem kind_cases : ∀ k : Kind, k = 0 ∨ k = 1 ∨ k = 2 ∨ k = 3 := by decide

/-- The five rows of a TXU packet: a checksum that fails, or a safe image of one of the four kinds (R100). -/
theorem txPacket_cases (c : Config) (p : Image) :
    (verifyChecksum c p = false ∧ txPacket c p = .txPktUnsafe p) ∨
    (verifyChecksum c p = true ∧ kindField p = 0 ∧ txPacket c p = .txPktData p) ∨
    (verifyChecksum c p = true ∧ kindField p = 1 ∧ txPacket c p = .txPktAck p) ∨
    (verifyChecksum c p = true ∧ kindField p = 2 ∧ txPacket c p = .txPktK2 p) ∨
    (verifyChecksum c p = true ∧ kindField p = 3 ∧ txPacket c p = .txPktK3 p) := by
  cases hv : verifyChecksum c p
  · simp [txPacket, hv]
  · obtain hk | hk | hk | hk := kind_cases (kindField p) <;> simp [txPacket, hv, hk]

/-- The five rows of an RXU packet (R101). -/
theorem rxPacket_cases (c : Config) (p : Image) :
    (verifyChecksum c p = false ∧ rxPacket c p = .rxPktUnsafe p) ∨
    (verifyChecksum c p = true ∧ kindField p = 0 ∧ rxPacket c p = .rxPktData p) ∨
    (verifyChecksum c p = true ∧ kindField p = 1 ∧ rxPacket c p = .rxPktAck p) ∨
    (verifyChecksum c p = true ∧ kindField p = 2 ∧ rxPacket c p = .rxPktK2 p) ∨
    (verifyChecksum c p = true ∧ kindField p = 3 ∧ rxPacket c p = .rxPktK3 p) := by
  cases hv : verifyChecksum c p
  · simp [rxPacket, hv]
  · obtain hk | hk | hk | hk := kind_cases (kindField p) <;> simp [rxPacket, hv, hk]

/-- The row a TXU packet is decoded to accepts the packet, and the packet presents it. -/
theorem txPacket_presented {c : Config} {p : Image} (h : c.imageFits p = true) :
    (txPacket c p).wellFormed c = true ∧ encode c (txPacket c p) = some (.txu, 1 :: p) := by
  obtain ⟨hv, e⟩ | ⟨hv, hk, e⟩ | ⟨hv, hk, e⟩ | ⟨hv, hk, e⟩ | ⟨hv, hk, e⟩ := txPacket_cases c p <;>
    simp [encode, Instr.wellFormed, Config.safeOfKind, *]

/-- The row an RXU packet is decoded to accepts the packet, and the packet presents it. -/
theorem rxPacket_presented {c : Config} {p : Image} (h : c.imageFits p = true) :
    (rxPacket c p).wellFormed c = true ∧ encode c (rxPacket c p) = some (.rxu, 1 :: p) := by
  obtain ⟨hv, e⟩ | ⟨hv, hk, e⟩ | ⟨hv, hk, e⟩ | ⟨hv, hk, e⟩ | ⟨hv, hk, e⟩ := rxPacket_cases c p <;>
    simp [encode, Instr.wellFormed, Config.safeOfKind, *]

/-! ### The command ports and the timer port -/

/-- What the TXU's command port takes, by event code (R92, R100). -/
theorem txCommand_iff {c : Config} {code : Byte} {operand : List Byte} {i : Instr} :
    txCommand c code operand = .ok i ↔
      (code = 0 ∧ c.messageFits operand = true ∧ i = .txMsg operand) ∨
      (code = 1 ∧ c.imageFits operand = true ∧ i = txPacket c operand) ∨
      (code = 2 ∧ operand = [] ∧ i = .txTmo) ∨ (code = 3 ∧ operand = [] ∧ i = .txRsvd) := by
  unfold txCommand
  split
  · simp [messageOperand_iff, *]
  split
  · simp [packetOperand_iff, *]
  split
  · simp [noOperand_iff, *]
  split
  · simp [noOperand_iff, *]
  next h0 h1 h2 h3 => simp only [h0, h1, h2, h3, false_and, or_false, reduceCtorEq]

/-- What the RXU's command port takes, by event code (R92, R101). -/
theorem rxCommand_iff {c : Config} {code : Byte} {operand : List Byte} {i : Instr} :
    rxCommand c code operand = .ok i ↔
      (code = 0 ∧ c.messageFits operand = true ∧ i = .rxMsg operand) ∨
      (code = 1 ∧ c.imageFits operand = true ∧ i = rxPacket c operand) ∨
      (code = 2 ∧ operand = [] ∧ i = .rxTmo) ∨ (code = 3 ∧ operand = [] ∧ i = .rxRsvd) := by
  unfold rxCommand
  split
  · simp [messageOperand_iff, *]
  split
  · simp [packetOperand_iff, *]
  split
  · simp [noOperand_iff, *]
  split
  · simp [noOperand_iff, *]
  next h0 h1 h2 h3 => simp only [h0, h1, h2, h3, false_and, or_false, reduceCtorEq]

theorem timerCommand_iff {code : Byte} {i : Instr} :
    timerCommand code = .ok i ↔ (code = 1 ∧ i = .tstart) ∨ (code = 0 ∧ i = .tstop) := by
  unfold timerCommand
  split
  · simp [*, eq_comm]
  split
  · simp [*, eq_comm]
  next h1 h0 => simp only [h0, h1, false_and, or_false, reduceCtorEq]

/-! ### The link port -/

/-- The building operation a wire image stands for: its image is the given one (R98). -/
theorem wireImage_cases (c : Config) (p : Image) :
    (∃ n, n < 61 ∧ p = mkAck c n ∧ wireImage c p = .mkAck n) ∨
    (∃ n q, n < 61 ∧ c.chunkFits q = true ∧ p = mkData c n q ∧ wireImage c p = .mkData n q) ∨
    wireImage c p = .pack (lenField p) (kindField p) (seqField p) (chkField p) (payField p) := by
  unfold wireImage
  dsimp only
  split
  next h =>
    simp only [seqFits, Bool.and_eq_true, decide_eq_true_eq] at h
    exact .inl ⟨_, h.1, h.2, rfl⟩
  split
  next h =>
    simp only [seqFits, Bool.and_eq_true, decide_eq_true_eq] at h
    obtain ⟨⟨hn, hq⟩, hp⟩ := h
    exact .inr (.inl ⟨_, _, hn, hq, hp, rfl⟩)
  · exact .inr (.inr rfl)

/-- The building operation is well formed and builds the image. -/
theorem wireImage_presented {c : Config} {p : Image} (hl : c.legal = true) (h : c.imageFits p = true) :
    (wireImage c p).wellFormed c = true ∧ encode c (wireImage c p) = some (.link, p) := by
  obtain ⟨n, hn, hp, e⟩ | ⟨n, q, hn, hq, hp, e⟩ | e := wireImage_cases c p <;> rw [e]
  · exact ⟨decide_eq_true hn, by rw [hp]; rfl⟩
  · exact ⟨by simp [Instr.wellFormed, seqFits, hn, hq], by rw [hp]; rfl⟩
  · have hlen : p.length = c.pktSize := of_decide_eq_true h
    obtain ⟨h7, -, hmax, -⟩ := legal_bounds hl
    refine ⟨decide_eq_true ?_, ?_⟩
    · rw [payField, List.length_drop, hlen, hmax]
    · rw [encode, packImage_fields (by omega)]

theorem wireImage_mkAck (c : Config) {n : Nat} (hn : n < 61) : wireImage c (mkAck c n) = .mkAck n := by
  simp [wireImage, seqField_mkAck c hn, seqFits, hn]

theorem wireImage_mkData {c : Config} {n : Nat} {q : Chunk} (hl : c.legal = true) (hn : n < 61)
    (hq : c.chunkFits q = true) : wireImage c (mkData c n q) = .mkData n q := by
  simp [wireImage, seqField_mkData c q hn, chunkOf_mkData n hl (chunkFits_iff.1 hq).2, seqFits, hn, hq, mkData_ne_mkAck]

end Decode

open Machine

/-! ### Transactions -/

/-- An image at the TXU's command port is sub-decoded. -/
theorem decode_txPacket {c : Config} {p : Image} (h : p.length = c.pktSize) :
    decode c .txu (1 :: p) = .ok (Decode.txPacket c p) :=
  Decode.txCommand_iff.2 (.inr (.inl ⟨rfl, decide_eq_true h, rfl⟩))

/-- An image at the RXU's command port is sub-decoded. -/
theorem decode_rxPacket {c : Config} {p : Image} (h : p.length = c.pktSize) :
    decode c .rxu (1 :: p) = .ok (Decode.rxPacket c p) :=
  Decode.rxCommand_iff.2 (.inr (.inl ⟨rfl, decide_eq_true h, rfl⟩))

theorem decode_link {c : Config} {p : Image} (h : p.length = c.pktSize) :
    decode c .link p = .ok (Decode.wireImage c p) :=
  if_pos (decide_eq_true h)

/-- Settles O5: port by port; on a command port by the event code, on the link by the building operation. -/
theorem encodeInvertsDecode : Obligations.EncodeInvertsDecode := by
  intro c port bytes i hl h
  match port, bytes with
  | .txu, code :: operand =>
    obtain ⟨rfl, hm, rfl⟩ | ⟨rfl, hp, rfl⟩ | ⟨rfl, rfl, rfl⟩ | ⟨rfl, rfl, rfl⟩ := Decode.txCommand_iff.1 h
    · exact ⟨hm, rfl⟩
    · exact Decode.txPacket_presented hp
    · exact ⟨rfl, rfl⟩
    · exact ⟨rfl, rfl⟩
  | .rxu, code :: operand =>
    obtain ⟨rfl, hm, rfl⟩ | ⟨rfl, hp, rfl⟩ | ⟨rfl, rfl, rfl⟩ | ⟨rfl, rfl, rfl⟩ := Decode.rxCommand_iff.1 h
    · exact ⟨hm, rfl⟩
    · exact Decode.rxPacket_presented hp
    · exact ⟨rfl, rfl⟩
    · exact ⟨rfl, rfl⟩
  | .timer, [code] =>
    obtain ⟨rfl, rfl⟩ | ⟨rfl, rfl⟩ := Decode.timerCommand_iff.1 h <;> exact ⟨rfl, rfl⟩
  | .link, p =>
    obtain ⟨hp, rfl⟩ := Decode.packetOperand_iff.1 (show Decode.packetOperand c (Decode.wireImage c) p = .ok i from h)
    exact Decode.wireImage_presented hl hp
  | .timer, _ :: _ :: _ | .txu, [] | .rxu, [] | .timer, [] => cases h

/-- The transaction of a PACK decodes to the operation its image stands for (notes/assumptions/11.md). -/
theorem decode_pack {c : Config} {l : Byte} {k : Kind} {s : WireSeq} {v : Word32} {q : List Byte}
    (h : (packImage l k s v q).length = c.pktSize) :
    decode c .link (packImage l k s v q) = .ok (.pack l k s v q) ∨
      (∃ n, n < 61 ∧ packImage l k s v q = mkAck c n ∧ decode c .link (packImage l k s v q) = .ok (.mkAck n)) ∨
      (∃ n ch, n < 61 ∧ c.chunkFits ch = true ∧ packImage l k s v q = mkData c n ch ∧
        decode c .link (packImage l k s v q) = .ok (.mkData n ch)) := by
  rw [decode_link h]
  obtain ⟨n, hn, hp, e⟩ | ⟨n, ch, hn, hq, hp, e⟩ | e := Decode.wireImage_cases c (packImage l k s v q)
  · exact .inr (.inl ⟨n, hn, hp, by rw [e]⟩)
  · exact .inr (.inr ⟨n, ch, hn, hq, hp, by rw [e]⟩)
  · left
    rw [e, lenField_packImage, kindField_packImage, seqField_packImage, chkField_packImage, payField_packImage]

/-- Settles O4: by the instruction; a packet by its checksum and kind, a building operation by its image. -/
theorem decodeInvertsEncode : Obligations.DecodeInvertsEncode := by
  intro c i port bytes hl hw he
  cases i with
  | txMsg m => cases he; exact .inl (Decode.txCommand_iff.2 (.inl ⟨rfl, hw, rfl⟩))
  | rxMsg m => cases he; exact .inl (Decode.rxCommand_iff.2 (.inl ⟨rfl, hw, rfl⟩))
  | txPktAck p | txPktData p | txPktK2 p | txPktK3 p =>
    cases he
    obtain ⟨hlen, hv, hk⟩ := safeOfKind_iff.1 hw
    left
    rw [decode_txPacket hlen]
    simp [Decode.txPacket, hv, hk]
  | rxPktAck p | rxPktData p | rxPktK2 p | rxPktK3 p =>
    cases he
    obtain ⟨hlen, hv, hk⟩ := safeOfKind_iff.1 hw
    left
    rw [decode_rxPacket hlen]
    simp [Decode.rxPacket, hv, hk]
  | txPktUnsafe p =>
    cases he
    simp only [Instr.wellFormed, Config.imageFits, Bool.and_eq_true, decide_eq_true_eq, Bool.not_eq_true'] at hw
    left
    rw [decode_txPacket hw.1]
    simp [Decode.txPacket, hw.2]
  | rxPktUnsafe p =>
    cases he
    simp only [Instr.wellFormed, Config.imageFits, Bool.and_eq_true, decide_eq_true_eq, Bool.not_eq_true'] at hw
    left
    rw [decode_rxPacket hw.1]
    simp [Decode.rxPacket, hw.2]
  | txTmo | txRsvd | rxTmo | rxRsvd | tstart | tstop => cases he; exact .inl rfl
  | mkAck n =>
    cases he
    left
    rw [decode_link (mkAck_length n hl), Decode.wireImage_mkAck c (of_decide_eq_true hw)]
  | mkData n q =>
    cases he
    obtain ⟨hn, hq⟩ := Bool.and_eq_true_iff.1 hw
    left
    rw [decode_link (mkData_length n hl (chunkFits_iff.1 hq).2), Decode.wireImage_mkData hl (of_decide_eq_true hn) hq]
  | pack l k s v q =>
    have hlen : bytes.length = c.pktSize := by
      cases he
      exact Laws.PortShape.pack l k s v q c .link _ hl hw rfl
    cases he
    exact (decode_pack hlen).imp_right fun h => ⟨l, k, s, v, q, rfl, h⟩
  | _ => cases he

/-- Settles O3: the words are closed data, so the decoder is evaluated on each. -/
theorem specWordsDecode : Obligations.SpecWordsDecode := by
  unfold Obligations.SpecWordsDecode
  decide

end Sys2Proof
end

section
/-! The rows of opcode_table.json against the decoder: what a row reads of a command-port transaction is the event code,
the packet's kind and its checksum outcome, and each combination has one row (spec 30_encoding.md R100 to R102). -/

namespace Sys2Proof

namespace Decode

open Machine

/-- The row takes an event of code `op` whose packet, if any, has kind `k` and the checksum outcome `safe`. -/
def Row.reads (r : Row) (port : Port) (op : BitVec 2) (k : Kind) (safe : Bool) : Bool :=
  decide (r.port = port) && decide ((op ++ (k ++ 0#6)) &&& r.mask = r.mtch) &&
    r.safe.all fun b => decide (safe = b)

/-- No row's mask covers the sequence bits of a decode word. -/
theorem mask_seq_zero : ∀ r ∈ rows,
    r.mask = r.mask.extractLsb' 8 2 ++ (r.mask.extractLsb' 6 2 ++ 0#6) := by decide

/-- So a row tells two decode words apart by their code and kind alone. -/
theorem and_mask {r : Row} (hr : r ∈ rows) (op : BitVec 2) (k : Kind) (s : WireSeq) :
    (op ++ (k ++ s)) &&& r.mask = (op ++ (k ++ 0#6)) &&& r.mask := by
  rw [mask_seq_zero r hr, BitVec.and_append, BitVec.and_append, BitVec.and_append, BitVec.and_append, BitVec.and_zero,
    BitVec.and_zero]

/-- The decode word of an event with a packet carries its kind. -/
theorem decodeWord_packet (p : Image) : decodeWord (1 :: p) = (1 : BitVec 2) ++ (kindField p ++ seqField p) := by
  have hb : kindField p ++ seqField p = p.getD 1 0 := BitVec.extractLsb'_append_extractLsb'
  rw [hb]
  rfl

theorem takes_eq_reads {r : Row} {c : Config} {port : Port} {code : Byte} {operand : List Byte}
    {op : BitVec 2} {k : Kind}
    (h : decodeWord (code :: operand) &&& r.mask = (op ++ (k ++ 0#6)) &&& r.mask) :
    r.takes c port (code :: operand) = r.reads port op k (verifyChecksum c operand) := by
  unfold Row.takes Row.reads
  rw [h, List.tail_cons]
  cases r.safe <;> rfl

theorem takes_packet {r : Row} (hr : r ∈ rows) (c : Config) (port : Port) (p : Image) :
    r.takes c port (1 :: p) = r.reads port 1 (kindField p) (verifyChecksum c p) :=
  takes_eq_reads (by rw [decodeWord_packet, and_mask hr])

/-- An event that carries no packet is read by its code alone. -/
theorem takes_event (port : Port) (code : Byte) (name : String) {r : Row} (hr : r ∈ rows)
    (hop : code.extractLsb' 0 2 ≠ (1 : BitVec 2))
    (htable : ∀ safe, ∀ r ∈ rows, r.reads port (code.extractLsb' 0 2) 0 safe = true ↔ name = r.mnemonic)
    (c : Config) (operand : List Byte) :
    r.takes c port (code :: operand) = true ↔ some name = some r.mnemonic := by
  have hword : decodeWord (code :: operand) = code.extractLsb' 0 2 ++ ((0 : Kind) ++ 0#6) := if_neg hop
  rw [takes_eq_reads (by rw [hword]), htable _ r hr, Option.some.injEq]

/-- The row of a TXU packet is its sub-decode's and no other. -/
theorem takes_txPacket {r : Row} (hr : r ∈ rows) (c : Config) (p : Image) :
    r.takes c .txu (1 :: p) = true ↔ rowName (txPacket c p) = some r.mnemonic := by
  rw [takes_packet hr]
  obtain ⟨hv, e⟩ | ⟨hv, hk, e⟩ | ⟨hv, hk, e⟩ | ⟨hv, hk, e⟩ | ⟨hv, hk, e⟩ := txPacket_cases c p
  all_goals simp only [e, hv, rowName]
  · generalize kindField p = k
    revert k r
    decide
  all_goals
    rw [hk]
    revert r
    decide

/-- The row of an RXU packet is its sub-decode's and no other. -/
theorem takes_rxPacket {r : Row} (hr : r ∈ rows) (c : Config) (p : Image) :
    r.takes c .rxu (1 :: p) = true ↔ rowName (rxPacket c p) = some r.mnemonic := by
  rw [takes_packet hr]
  obtain ⟨hv, e⟩ | ⟨hv, hk, e⟩ | ⟨hv, hk, e⟩ | ⟨hv, hk, e⟩ | ⟨hv, hk, e⟩ := rxPacket_cases c p
  all_goals simp only [e, hv, rowName]
  · generalize kindField p = k
    revert k r
    decide
  all_goals
    rw [hk]
    revert r
    decide

end Decode

open Decode

/-- Settles O6: by the event code, and for a packet by its checksum and kind; the rows then differ on closed data. -/
theorem decodedRowIsTheOnlyTableRow : Obligations.DecodedRowIsTheOnlyTableRow := by
  intro c port bytes i r hport h hr
  match port, bytes, hport with
  | .txu, code :: operand, _ =>
    obtain ⟨rfl, -, rfl⟩ | ⟨rfl, -, rfl⟩ | ⟨rfl, -, rfl⟩ | ⟨rfl, -, rfl⟩ := txCommand_iff.1 h
    · exact takes_event .txu 0 "TX.MSG" hr (by decide) (by decide) c operand
    · exact takes_txPacket hr c operand
    · exact takes_event .txu 2 "TX.TMO" hr (by decide) (by decide) c operand
    · exact takes_event .txu 3 "TX.RSVD" hr (by decide) (by decide) c operand
  | .rxu, code :: operand, _ =>
    obtain ⟨rfl, -, rfl⟩ | ⟨rfl, -, rfl⟩ | ⟨rfl, -, rfl⟩ | ⟨rfl, -, rfl⟩ := rxCommand_iff.1 h
    · exact takes_event .rxu 0 "RX.MSG" hr (by decide) (by decide) c operand
    · exact takes_rxPacket hr c operand
    · exact takes_event .rxu 2 "RX.TMO" hr (by decide) (by decide) c operand
    · exact takes_event .rxu 3 "RX.RSVD" hr (by decide) (by decide) c operand
  | .txu, [], _ | .rxu, [], _ => cases h

end Sys2Proof
end

section
/-! Completion: every frame in which a meaning runs answers a next state where its precondition holds, and so every
instruction completes and every image the link delivers is handled (spec 30_encoding.md R107, 60_exceptions.md R220,
R222, R224). -/

namespace Sys2Proof.Machine

/-- The outcome `o` is a next state, with the parameters, the inputs and the pending messages of `s`. -/
def Completes (s : State) (o : Host.Outcome State Fault Refusal) : Prop :=
  ∃ t, o = .next t ∧ t.cfg = s.cfg ∧ t.inputs = s.inputs ∧ t.pending = s.pending

/-! ### The frames -/

theorem runTxu_completes {i : Instr} {s : State} {h : Except Fault (Txu × List Action)}
    (hw : i.wellFormed s.cfg = true) (hc : s.txu.control = .idle) (hh : ∃ k, h = .ok k) :
    Completes s (runTxu i s h) := by
  obtain ⟨⟨t, tr⟩, rfl⟩ := hh
  exact ⟨_, runTxu_idle hw hc, by simp⟩

theorem runRxu_completes {i : Instr} {s : State} (h : Rxu × List Action)
    (hw : i.wellFormed s.cfg = true) (hc : s.rxu.control = .idle) : Completes s (runRxu i s h) :=
  ⟨_, runRxu_idle hw hc, by simp⟩

theorem runStep_completes {i : Instr} {s : State} {pre : Bool} (f : Fault) (h : Txu × List Action)
    (hw : i.wellFormed s.cfg = true) (hp : pre = true) : Completes s (runStep i s pre f h) := by
  refine ⟨commit .txu { s with txu := h.1 } h.2, ?_, by simp⟩
  unfold runStep
  rw [if_pos hw, if_pos hp]

theorem runValue_completes {i : Instr} {s : State} (v : Value) (hw : i.wellFormed s.cfg = true) :
    Completes s (runValue i s v) :=
  ⟨_, if_pos hw, rfl, rfl, rfl⟩

theorem execReset_completes (u : ResetTarget) {s : State} (ht : s.txu.control = .idle) (hr : s.rxu.control = .idle) :
    Completes s (execReset u s) := by
  unfold execReset
  rw [ht, hr]
  cases u <;> exact ⟨_, rfl, rfl, rfl, rfl⟩

/-! ### The handlers of the TXU -/

/-- TX.TMO runs through where every slot of the window was written (R43, R201). -/
theorem onTmo_total (c : Config) {t : Txu} (h : ∀ n ∈ t.windowSlots, (t.win.read n).isSome = true) :
    ∃ k, t.onTmo c = .ok k := by
  obtain ⟨w, tr, hrun⟩ := resendSlots_total c t.win t.windowSlots h
  unfold Txu.onTmo
  rw [hrun]
  exact ⟨_, rfl⟩

/-- No handler of the TXU but TX.TMO can fault. -/
theorem txHandler_total {s : State} {i : Instr}
    (h : i = .txTmo → ∀ n ∈ s.txu.windowSlots, (s.txu.win.read n).isSome = true) : ∃ k, txHandler s i = .ok k := by
  cases i with
  | txTmo => exact onTmo_total s.cfg (h rfl)
  | _ => exact ⟨_, rfl⟩

/-! ### Every instruction, and every delivery -/

/-- Settles O48: by the frame in which the instruction runs. -/
theorem everyInstructionCompletes : Obligations.EveryInstructionCompletes := by
  intro i s hw ht hr htmo hadmit henqueue
  change Completes s (exec i s)
  by_cases htx : i.atTxu = true
  · rw [exec_atTxu i s htx]
    exact runTxu_completes hw ht (txHandler_total htmo)
  by_cases hrx : i.atRxu = true
  · rw [exec_atRxu i s hrx]
    exact runRxu_completes _ hw hr
  cases i with
  | tstart | tstop => exact ⟨_, rfl, by simp⟩
  | admitChunk q => exact runStep_completes _ _ hw (decide_eq_true (hadmit q rfl))
  | drain => exact runStep_completes .admitWindowFull _ hw rfl
  | enqueue q => exact runStep_completes _ _ hw (decide_eq_true (henqueue q rfl))
  | reset u => exact execReset_completes u ht hr
  | pack | mkData | mkAck | chk | encodeChecksum | verifyChecksum | clampLen | seqInc | seqDec | between | fragment =>
    exact runValue_completes _ hw
  | txMsg | txPktAck | txPktData | txPktK2 | txPktK3 | txPktUnsafe | txTmo | txRsvd => exact absurd rfl htx
  | rxMsg | rxPktAck | rxPktData | rxPktK2 | rxPktK3 | rxPktUnsafe | rxTmo | rxRsvd => exact absurd rfl hrx

theorem linkDeliver_some {s : State} {u : Side} {k : Nat} {p : Image} (h : (s.inFlight u)[k]? = some p) :
    linkDeliver s u k = present u.port (1 :: p) (s.setInFlight u ((s.inFlight u).eraseIdx k)) := by
  unfold linkDeliver
  rw [h]

theorem txPacket_ne_txTmo (c : Config) (p : Image) : Decode.txPacket c p ≠ .txTmo := by
  obtain ⟨-, e⟩ | ⟨-, -, e⟩ | ⟨-, -, e⟩ | ⟨-, -, e⟩ | ⟨-, -, e⟩ := Decode.txPacket_cases c p <;> simp [e]

/-- An image presented to an IDLE unit is handled, whatever its bytes are (R107). -/
theorem present_image_completes {s : State} (u : Side) {p : Image} (hp : p.length = s.cfg.pktSize)
    (ht : s.txu.control = .idle) (hr : s.rxu.control = .idle) : Completes s (present u.port (1 :: p) s) := by
  have himg : s.cfg.imageFits p = true := decide_eq_true hp
  cases u with
  | rxu =>
    change Completes s (present .rxu (1 :: p) s)
    rw [present_ok (decode_rxPacket hp), exec_atRxu _ s (Decode.rxPacket_atRxu s.cfg p)]
    exact runRxu_completes _ (Decode.rxPacket_presented himg).1 hr
  | txu =>
    change Completes s (present .txu (1 :: p) s)
    rw [present_ok (decode_txPacket hp), exec_atTxu _ s (Decode.txPacket_atTxu s.cfg p)]
    exact runTxu_completes (Decode.txPacket_presented himg).1 ht
      (txHandler_total fun h => absurd h (txPacket_ne_txTmo s.cfg p))

theorem State.Safe.inFlight_sized {s : State} (hs : State.Safe s) (u : Side) :
    ∀ p ∈ s.inFlight u, p.length = s.cfg.pktSize := by
  cases u with
  | txu => exact hs.toTxu
  | rxu => exact hs.toRxu

/-- A delivery from a safe state: the image has the port's size and the unit is IDLE. -/
theorem linkDeliver_next {s : State} {u : Side} {k : Nat} (hs : State.Safe s) (hk : k < (s.inFlight u).length) :
    ∃ t, linkDeliver s u k = .next t := by
  have hlen := hs.inFlight_sized u _ (List.getElem_mem hk)
  rw [linkDeliver_some (List.getElem?_eq_getElem hk)]
  obtain ⟨t, ht, -⟩ := present_image_completes (s := s.setInFlight u ((s.inFlight u).eraseIdx k)) u
    (by rwa [setInFlight_cfg]) (by rw [setInFlight_txu]; exact hs.txuIdle) (by rw [setInFlight_rxu]; exact hs.rxuIdle)
  exact ⟨t, ht⟩

/-- Settles O54: consuming the input leaves the state safe and the link as it is. -/
theorem everyDeliveryIsHandled : Obligations.EveryDeliveryIsHandled := by
  intro s u k rest hs hk hin
  rw [step_cons hin]
  exact linkDeliver_next ((quiet_inputs s rest).safe ((State.inv_iff s).1 hs)) (by rwa [inFlight_inputs])

end Sys2Proof.Machine
end

section
/-! The checksum of an image: ENCODE_CHECKSUM as PACK of the image's own fields with the checksum field renewed, what
the safety check then answers, and the changes of an encoded image it detects (spec 40_codec.md R121 to R126, R128,
R129). -/

namespace Sys2Proof.Machine

/-- A header is there under every legal `PKT_SIZE` (R11). -/
theorem header_le_of_legal {c : Config} {p : Image} (hl : c.legal = true) (hp : p.length = c.pktSize) : 6 ≤ p.length := by
  obtain ⟨h7, -⟩ := legal_bounds hl
  omega

/-! ### Encoding, field by field -/

@[simp] theorem covered_packImage (l : Byte) (k : Kind) (s : WireSeq) (v : Word32) (q : List Byte) :
    covered (packImage l k s v q) = l :: (k ++ s) :: q := rfl

/-- ENCODE_CHECKSUM renews the checksum field and no other (R124). -/
theorem encodeChecksum_fields (c : Config) {p : Image} (h : 6 ≤ p.length) :
    (encodeChecksum c p).1 = packImage (lenField p) (kindField p) (seqField p) (chk c (covered p)) (payField p) := by
  have hp := packImage_fields h
  have hcov : covered p = lenField p :: (kindField p ++ seqField p) :: payField p := by
    rw [← covered_packImage _ _ _ (chkField p), hp]
  rw [hcov, ← encodeChecksum_packImage c _ _ _ (chkField p), hp]

/-- The covered stream is what encoding keeps: the checksum field is not part of it (R121). -/
theorem covered_encodeChecksum (c : Config) {p : Image} (h : 6 ≤ p.length) :
    covered (encodeChecksum c p).1 = covered p := by
  rw [encodeChecksum_fields c h, covered_packImage, ← covered_packImage _ _ _ (chkField p), packImage_fields h]

theorem chkField_encodeChecksum (c : Config) {p : Image} (h : 6 ≤ p.length) :
    chkField (encodeChecksum c p).1 = chk c (covered p) := by
  rw [encodeChecksum_fields c h, chkField_packImage]

/-- ENCODE_CHECKSUM keeps the bytes outside the checksum field where they are (R124). -/
theorem encodeChecksum_getElem? (c : Config) {p : Image} (h : 6 ≤ p.length) {n : Nat} (hn : n < 2 ∨ 6 ≤ n) :
    (encodeChecksum c p).1[n]? = p[n]? := by
  match p, h with
  | a :: b :: x0 :: x1 :: x2 :: x3 :: r, _ =>
    rw [encodeChecksum_cons]
    match n, hn with
    | 0, _ | 1, _ | n + 6, _ => rfl
    | 2, hn | 3, hn | 4, hn | 5, hn => omega

/-- The checksum lies little-endian at offsets 2 to 5 (R124, D8). -/
theorem encodeChecksum_stored (c : Config) {p : Image} (h : 6 ≤ p.length) :
    (encodeChecksum c p).1[2]? = some ((chk c (covered p)).extractLsb' 0 8) ∧
    (encodeChecksum c p).1[3]? = some ((chk c (covered p)).extractLsb' 8 8) ∧
    (encodeChecksum c p).1[4]? = some ((chk c (covered p)).extractLsb' 16 8) ∧
    (encodeChecksum c p).1[5]? = some ((chk c (covered p)).extractLsb' 24 8) := by
  rw [encodeChecksum_fields c h]
  exact ⟨rfl, rfl, rfl, rfl⟩

/-- Encoding reads nothing of the old checksum field: images that agree outside it are encoded alike (R121, R124). -/
theorem encodeChecksum_congr (c : Config) {p q : Image} (h : ∀ n, n < 2 ∨ 6 ≤ n → q[n]? = p[n]?) :
    encodeChecksum c q = encodeChecksum c p := by
  have hhead : q.take 2 = p.take 2 := by
    refine List.ext_getElem? fun n => ?_
    by_cases hn : n < 2
    · rw [List.getElem?_take_of_lt hn, List.getElem?_take_of_lt hn, h n (.inl hn)]
    · have hle := Nat.le_of_not_lt hn
      rw [List.getElem?_take_eq_none hle, List.getElem?_take_eq_none hle]
  have htail : q.drop hdrSize = p.drop hdrSize := by
    refine List.ext_getElem? fun n => ?_
    rw [List.getElem?_drop, List.getElem?_drop, h _ (.inr (Nat.le_add_right 6 n))]
  unfold encodeChecksum covered
  rw [hhead, htail]

/-! ### The safety check -/

theorem verifyChecksum_iff {c : Config} {p : Image} : verifyChecksum c p = true ↔ chk c (covered p) = chkField p :=
  decide_eq_true_iff

/-- An encoded image is safe (R126 (a)). -/
theorem verifyChecksum_encodeChecksum (c : Config) {p : Image} (h : 6 ≤ p.length) :
    verifyChecksum c (encodeChecksum c p).1 = true := by
  rw [verifyChecksum_iff, covered_encodeChecksum c h, chkField_encodeChecksum c h]

/-- The safe images are the fixed points of encoding (R126 (d)). -/
theorem verifyChecksum_iff_encoded (c : Config) {p : Image} (h : 6 ≤ p.length) :
    verifyChecksum c p = true ↔ (encodeChecksum c p).1 = p := by
  constructor
  · intro hv
    rw [encodeChecksum_fields c h, verifyChecksum_iff.1 hv, packImage_fields h]
  · intro he
    rw [← he]
    exact verifyChecksum_encodeChecksum c h

/-- Settles O9: the two laws of encoding and the safety check. -/
theorem safeImagesAreTheEncodedOnes : Obligations.SafeImagesAreTheEncodedOnes :=
  fun c _ h => ⟨verifyChecksum_encodeChecksum c h, verifyChecksum_iff_encoded c h⟩

/-- Settles O11: a safe image is its own encoding, and the changed image has the encoding of the old one. -/
theorem checksumFieldChangeIsDetected : Obligations.ChecksumFieldChangeIsDetected := by
  intro c p q hp hlen hne hout
  rw [← Bool.not_eq_true, verifyChecksum_iff_encoded c (hlen ▸ hp), encodeChecksum_congr c hout]
  exact hne.symm

/-! ### A changed byte outside the checksum field -/

/-- Where the byte at offset `n` of an image stands in the covered stream (R121). -/
def coveredIndex (n : Nat) : Nat := if n < 2 then n else n - 4

theorem covered_getElem? {p : Image} (h : 6 ≤ p.length) {n : Nat} (hn : n < 2 ∨ 6 ≤ n) :
    (covered p)[coveredIndex n]? = p[n]? := by
  match p, h with
  | a :: b :: x0 :: x1 :: x2 :: x3 :: r, _ =>
    match n, hn with
    | 0, _ | 1, _ | n + 6, _ => rfl
    | 2, hn | 3, hn | 4, hn | 5, hn => omega

/-- A change outside the checksum field is a change of the covered stream, and the stored checksum stays. -/
theorem set_outside {p : Image} (h : 6 ≤ p.length) {n : Nat} (hn : n < 2 ∨ 6 ≤ n) (b : Byte) :
    covered (p.set n b) = (covered p).set (coveredIndex n) b ∧ chkField (p.set n b) = chkField p := by
  match p, h with
  | a :: b :: x0 :: x1 :: x2 :: x3 :: r, _ =>
    match n, hn with
    | 0, _ | 1, _ | n + 6, _ => exact ⟨rfl, rfl⟩
    | 2, hn | 3, hn | 4, hn | 5, hn => omega

/-- Settles O10: the flipped bit is one bit of the covered stream, so by P2 the recomputed checksum leaves the stored one. -/
theorem singleBitFlipIsDetected : Obligations.SingleBitFlipIsDetected := by
  intro c p n b k hl hp hsens hn hb hk
  have h6 := header_le_of_legal hl hp
  have h6' : 6 ≤ (encodeChecksum c p).1.length := (encodeChecksum_length c h6).symm ▸ h6
  obtain ⟨hcov, hchk⟩ := set_outside h6' hn (b ^^^ BitVec.twoPow 8 k)
  rw [← Bool.not_eq_true, verifyChecksum_iff, hcov, hchk, chkField_encodeChecksum c h6, covered_encodeChecksum c h6]
  rw [← covered_getElem? h6' hn, covered_encodeChecksum c h6] at hb
  exact hsens _ _ b k (by rw [covered_length h6, hp]) hb hk

/-! ### The images the building operations make are safe -/

theorem verifyChecksum_mkData (c : Config) (n : Nat) (q : Chunk) : verifyChecksum c (mkData c n q) = true :=
  verifyChecksum_encodeChecksum c (by simp)

theorem verifyChecksum_mkAck (c : Config) (n : Nat) : verifyChecksum c (mkAck c n) = true :=
  verifyChecksum_encodeChecksum c (by simp)

theorem lenField_mkData (c : Config) (n : Nat) {q : Chunk} (hq : q.length < 256) :
    (lenField (mkData c n q)).toNat = q.length := by
  rw [mkData, encodeChecksum_packImage, lenField_packImage, BitVec.toNat_ofNat]
  exact Nat.mod_eq_of_lt hq

@[simp] theorem lenField_mkAck (c : Config) (n : Nat) : lenField (mkAck c n) = 0 := by
  rw [mkAck, encodeChecksum_packImage, lenField_packImage]

@[simp] theorem payField_mkData (c : Config) (n : Nat) (q : Chunk) :
    payField (mkData c n q) = q ++ zeros (c.maxPayload - q.length) := by
  rw [mkData, encodeChecksum_packImage, payField_packImage]

@[simp] theorem payField_mkAck (c : Config) (n : Nat) : payField (mkAck c n) = zeros c.maxPayload := by
  rw [mkAck, encodeChecksum_packImage, payField_packImage]

end Sys2Proof.Machine
end

section
/-! The operations without state: on well-formed operands each hands its value to its caller, and nothing else changes
(spec 10_state.md R41, 40_codec.md R120, R124, R125, R128, R129). -/

namespace Sys2Proof.Machine

theorem runValue_wellFormed {i : Instr} {s : State} (v : Value) (hw : i.wellFormed s.cfg = true) :
    runValue i s v = .next { s with trace := [], result := v } :=
  if_pos hw

/-- Settles O47: each of the eleven runs in the one frame of operations without state, with a value of its own. -/
theorem valueOperationsTouchNoState : Obligations.ValueOperationsTouchNoState := by
  intro i s t h hi
  have hframe : ∃ v, exec i s = runValue i s v ∧ v ≠ .none := by
    obtain ⟨_, _, _, _, _, rfl⟩ | ⟨_, _, rfl⟩ | ⟨_, rfl⟩ | ⟨_, rfl⟩ | ⟨_, rfl⟩ | ⟨_, rfl⟩ | ⟨_, rfl⟩ | ⟨_, rfl⟩ |
      ⟨_, rfl⟩ | ⟨_, _, _, rfl⟩ | ⟨_, rfl⟩ := hi
    all_goals exact ⟨_, rfl, nofun⟩
  obtain ⟨v, hexec, hv⟩ := hframe
  obtain ⟨-, rfl⟩ := runValue_next (hexec ▸ h)
  exact ⟨rfl, hv⟩

/-- Settles O7: the value is the checksum of the covered bytes, and encoding stores it. -/
theorem encodeChecksumStoresValue : Obligations.EncodeChecksumStoresValue := by
  intro s p hp hl
  have h6 := header_le_of_legal hl hp
  exact ⟨_, _, runValue_wellFormed _ (decide_eq_true hp), rfl, encodeChecksum_length s.cfg h6,
    fun _ hn => encodeChecksum_getElem? s.cfg h6 hn, encodeChecksum_stored s.cfg h6⟩

/-- Settles O8: the answer is the decision of the comparison. -/
theorem verifyComparesWithStoredField : Obligations.VerifyComparesWithStoredField :=
  fun _ _ hp => ⟨_, runValue_wellFormed _ (decide_eq_true hp), verifyChecksum_iff⟩

/-- Settles O14: field by field; the length byte holds every chunk length a legal `PKT_SIZE` allows. -/
theorem mkDataBuildsSafeImage : Obligations.MkDataBuildsSafeImage := by
  intro s n q hl hn h1 hq
  obtain ⟨-, -, -, -, hmax, -⟩ := legal_bounds hl
  have hw : (Instr.mkData n q).wellFormed s.cfg = true :=
    Bool.and_eq_true_iff.2 ⟨decide_eq_true hn, chunkFits_iff.2 ⟨h1, hq⟩⟩
  exact ⟨_, runValue_wellFormed _ hw, mkData_length n hl hq, lenField_mkData s.cfg n (by omega), kindField_mkData ..,
    seqField_mkData s.cfg q hn, payField_mkData .., verifyChecksum_mkData ..⟩

/-- Settles O15: field by field. -/
theorem mkAckBuildsSafeImage : Obligations.MkAckBuildsSafeImage := by
  intro s n hl hn
  have hw : (Instr.mkAck n).wellFormed s.cfg = true := decide_eq_true hn
  exact ⟨_, runValue_wellFormed _ hw, mkAck_length n hl, lenField_mkAck .., kindField_mkAck .., seqField_mkAck s.cfg hn,
    payField_mkAck .., verifyChecksum_mkAck ..⟩

end Sys2Proof.Machine
end

section
/-! The default checksum: the sum of the stream's 16-bit little-endian words, and that no change of a single byte, and so
of a single bit, keeps it (spec 40_codec.md R122, R123). -/

namespace Sys2Proof.Machine

/-! ### Property P2 -/

theorem xor_twoPow_ne (b : Byte) {k : Nat} (hk : k < 8) : b ^^^ BitVec.twoPow 8 k ≠ b := by
  intro h
  have hzero : BitVec.twoPow 8 k = 0#8 := (BitVec.xor_right_inj b).1 (h.trans BitVec.xor_zero.symm)
  have hpow : 2 ^ k = 0 := by rw [← BitVec.toNat_twoPow_of_lt hk, hzero, BitVec.toNat_zero]
  exact absurd hpow (Nat.two_pow_pos k).ne'

theorem zeroExtend_inj {w v : Nat} (h : w ≤ v) {x y : BitVec w} : x.zeroExtend v = y.zeroExtend v ↔ x = y := by
  rw [← BitVec.toNat_inj, BitVec.zeroExtend_eq_setWidth, BitVec.zeroExtend_eq_setWidth, BitVec.toNat_setWidth_of_le h,
    BitVec.toNat_setWidth_of_le h, BitVec.toNat_inj]

/-- Another byte at one place of the stream gives another word sum: the one word that changes differs by less than
2^32. -/
theorem wordSum16_set_ne : ∀ (stream : List Byte) (i : Nat) (b x : Byte), stream[i]? = some b → x ≠ b →
    wordSum16 (stream.set i x) ≠ wordSum16 stream
  | [], _, _, _, hb, _ => nomatch hb
  | [lo], 0, b, x, hb, hx => by
    obtain rfl : lo = b := Option.some.inj hb
    exact fun h => hx ((zeroExtend_inj (by decide)).1 h)
  | [_], _ + 1, _, _, hb, _ => nomatch hb
  | lo :: hi :: rest, 0, b, x, hb, hx => by
    obtain rfl : lo = b := Option.some.inj hb
    intro h
    have hword := (zeroExtend_inj (by decide)).1 ((BitVec.add_left_inj (wordSum16 rest)).1 h)
    exact hx ((BitVec.append_right_inj hi).1 hword)
  | lo :: hi :: rest, 1, b, x, hb, hx => by
    obtain rfl : hi = b := Option.some.inj hb
    intro h
    have hword := (zeroExtend_inj (by decide)).1 ((BitVec.add_left_inj (wordSum16 rest)).1 h)
    exact hx ((BitVec.append_left_inj lo).1 hword)
  | lo :: hi :: rest, i + 2, b, x, hb, hx => fun h =>
    wordSum16_set_ne rest i b x hb hx ((BitVec.add_right_inj ((hi ++ lo).zeroExtend 32)).1 h)

/-- Settles O12: a flipped bit makes another byte. -/
theorem defaultChecksumIsSingleBitSensitive : Obligations.DefaultChecksumIsSingleBitSensitive :=
  fun _ stream i b _ _ hb hk => wordSum16_set_ne stream i b _ hb (xor_twoPow_ne b hk)

/-! ### The words themselves -/

/-- The `j`-th 16-bit little-endian word of a stream, a missing byte read as zero (R123). -/
def wordAt (stream : List Byte) (j : Nat) : Nat :=
  (stream.getD (2 * j) 0).toNat + 256 * (stream.getD (2 * j + 1) 0).toNat

theorem toNat_append_byte (hi lo : Byte) : (hi ++ lo).toNat = lo.toNat + 256 * hi.toNat := by
  rw [BitVec.toNat_append, ← Nat.shiftLeft_add_eq_or_of_lt lo.isLt, Nat.shiftLeft_eq]
  omega

theorem wordAt_cons_succ (lo hi : Byte) (rest : List Byte) (j : Nat) :
    wordAt (lo :: hi :: rest) (j + 1) = wordAt rest j := rfl

theorem toNat_wordSum16 : ∀ stream : List Byte,
    (wordSum16 stream).toNat = ((List.range ((stream.length + 1) / 2)).map (wordAt stream)).sum % 2 ^ 32
  | [] => rfl
  | [lo] => by simp [wordSum16, wordAt]
  | lo :: hi :: rest => by
    have hwords : ((lo :: hi :: rest).length + 1) / 2 = (rest.length + 1) / 2 + 1 := by
      simp only [List.length_cons]; omega
    have htail : (wordAt (lo :: hi :: rest)) ∘ Nat.succ = wordAt rest := funext (wordAt_cons_succ lo hi rest)
    have hhead : ((hi ++ lo).zeroExtend 32).toNat = wordAt (lo :: hi :: rest) 0 := by
      rw [BitVec.zeroExtend_eq_setWidth, BitVec.toNat_setWidth_of_le (by decide), toNat_append_byte]
      rfl
    rw [hwords, List.range_succ_eq_map, List.map_cons, List.map_map, htail, List.sum_cons, wordSum16, BitVec.toNat_add,
      hhead, toNat_wordSum16 rest, Nat.add_mod_mod]

/-- Settles O17: under the default choice CHK is the word sum. -/
theorem defaultChecksumAddsWords : Obligations.DefaultChecksumAddsWords := by
  intro s stream hlen hchk
  refine ⟨_, runValue_wellFormed _ (decide_eq_true hlen), ?_⟩
  rw [chk, hchk]
  exact toNat_wordSum16 stream

end Sys2Proof.Machine
end

section
/-! The receiver's clamp, and that on a DATA image of the sender it is the chunk's length, so that the receiver delivers
the chunk (spec 40_codec.md R127, R128; 41_receiver.md R144). -/

namespace Sys2Proof.Machine

/-- A length byte read as a number that is not negative, by either reading, is clamped from above alone (R127). -/
theorem clampLen_eq_min {c : Config} {p : Image} (h : apparentLen c p = (lenField p).toNat) :
    clampLen c p = min (lenField p).toNat c.maxPayload := by
  unfold clampLen
  omega

theorem apparentLen_unsigned {c : Config} (p : Image) (h : c.lenSigned = false) :
    apparentLen c p = (lenField p).toNat := by
  simp [apparentLen, h]

theorem apparentLen_of_lt (c : Config) {p : Image} (h : (lenField p).toNat < 128) :
    apparentLen c p = (lenField p).toNat := by
  unfold apparentLen
  rw [BitVec.toInt_eq_toNat_of_lt (by omega), ite_self]

theorem apparentLen_neg {c : Config} {p : Image} (hs : c.lenSigned = true) (h : 128 ≤ (lenField p).toNat) :
    apparentLen c p < 0 := by
  have hlt := (lenField p).isLt
  rw [apparentLen, if_pos hs, BitVec.toInt_eq_toNat_cond, if_neg (by omega)]
  omega

theorem clampLen_of_neg {c : Config} {p : Image} (h : apparentLen c p < 0) : clampLen c p = 0 := by
  unfold clampLen
  omega

/-- Settles O16: by the reading, and the signed one by the byte's sign. -/
theorem clampLenBoundsTheLengthByte : Obligations.ClampLenBoundsTheLengthByte :=
  fun _ p hp => ⟨_, runValue_wellFormed _ (decide_eq_true hp),
    fun hs => clampLen_eq_min (apparentLen_unsigned p hs),
    fun _ hlt => clampLen_eq_min (apparentLen_of_lt _ hlt),
    fun hs hge => clampLen_of_neg (apparentLen_neg hs hge)⟩

/-- The clamp leaves the length of a chunk as MKDATA stored it: signed, no legal chunk is longer than 127 bytes (R12). -/
theorem clampLen_mkData {c : Config} (n : Nat) {q : Chunk} (hl : c.legal = true) (hq : q.length ≤ c.maxPayload) :
    clampLen c (mkData c n q) = q.length := by
  obtain ⟨-, -, -, -, hmax, hsigned⟩ := legal_bounds hl
  have hlen : (lenField (mkData c n q)).toNat = q.length := lenField_mkData c n (by omega)
  have happ : apparentLen c (mkData c n q) = (lenField (mkData c n q)).toNat := by
    cases hs : c.lenSigned with
    | false => exact apparentLen_unsigned _ hs
    | true =>
      have h127 := hsigned hs
      exact apparentLen_of_lt c (by omega)
  rw [clampLen_eq_min happ, hlen, min_eq_left hq]

/-- The bytes the receiver takes of a DATA image are the chunk's. -/
theorem take_payField_mkData {c : Config} (n : Nat) {q : Chunk} (hl : c.legal = true) (hq : q.length ≤ c.maxPayload) :
    (payField (mkData c n q)).take (clampLen c (mkData c n q)) = q := by
  rw [clampLen_mkData n hl hq, payField_mkData, List.take_left]

/-- RX.PKT of a safe DATA packet with the expected number (R144). -/
theorem rxu_onPkt_expected {c : Config} {r : Rxu} {p : Image} (hv : verifyChecksum c p = true)
    (hk : kindField p = kindData) (hs : (seqField p).toNat = r.expectedSeq) :
    r.onPkt c p = ({ r with expectedSeq := seqInc r.expectedSeq },
      [.deliver ((payField p).take (clampLen c p)), .send (mkAck c r.expectedSeq), .done .ok 0]) := by
  obtain ⟨hbad, -⟩ | ⟨-, hne, -⟩ | ⟨-, -, e⟩ := rxu_onPkt_cases c r p
  · rw [hv] at hbad; cases hbad
  · exact absurd ⟨hk, hs⟩ hne
  · exact e

/-- Settles O41: the DATA image is safe and has the expected number, and what is taken of its payload is the chunk. -/
theorem deliveredBytesAreTheAdmittedChunk : Obligations.DeliveredBytesAreTheAdmittedChunk := by
  intro s q hl hfit hidle hseq
  obtain ⟨-, hq⟩ := chunkFits_iff.1 hfit
  have hw : (Instr.rxPktData (mkData s.cfg s.rxu.expectedSeq q)).wellFormed s.cfg = true :=
    safeOfKind_iff.2 ⟨mkData_length _ hl hq, verifyChecksum_mkData .., kindField_mkData ..⟩
  have hon := rxu_onPkt_expected (verifyChecksum_mkData s.cfg s.rxu.expectedSeq q) (kindField_mkData ..)
    (seqField_mkData s.cfg q hseq)
  rw [take_payField_mkData _ hl hq] at hon
  refine ⟨_, exec_atRxu_idle rfl hw hidle, ?_⟩
  simp [rxHandler, hon, seqInc]

end Sys2Proof.Machine
end

section
/-! The packet events of the receiver: an event's next state in terms of the handler's outcome, and from the three ways
RX.PKT ends what each packet does (spec 41_receiver.md R141 to R150). -/

namespace Sys2Proof.Machine

/-- An event at an IDLE RXU whose handler commands no timer: the trace adds to the receiver's own outputs. -/
theorem exec_atRxu_outcome {i : Instr} {s : State} {r : Rxu} {tr : List Action} (hi : i.atRxu = true)
    (hw : i.wellFormed s.cfg = true) (hc : s.rxu.control = .idle) (hh : rxHandler s i = (r, tr))
    (hb : timerBits tr = []) :
    exec i s = .next { s with
      rxu := r
      linkToTxu := s.linkToTxu ++ sends tr
      delivered := s.delivered ++ deliveries tr
      trace := tr } := by
  rw [exec_atRxu_idle hi hw hc, hh, commit_rxu, timerAfter_silent _ hb]

/-- RX.PKT of a packet that fails the checksum (R142). -/
theorem rxu_onPkt_unsafe {c : Config} (r : Rxu) {p : Image} (hv : verifyChecksum c p = false) :
    r.onPkt c p = (r, [.done .ok 0]) := by
  obtain ⟨-, e⟩ | ⟨hsafe, -⟩ | ⟨hsafe, -⟩ := rxu_onPkt_cases c r p
  · exact e
  all_goals rw [hv] at hsafe; cases hsafe

/-- RX.PKT of a safe packet that is not the expected DATA packet (R146). -/
theorem rxu_onPkt_other {c : Config} {r : Rxu} {p : Image} (hv : verifyChecksum c p = true)
    (hne : ¬ (kindField p = kindData ∧ (seqField p).toNat = r.expectedSeq)) :
    r.onPkt c p = (r, [.send (mkAck c (seqDec r.expectedSeq)), .done .ok 0]) := by
  obtain ⟨hbad, -⟩ | ⟨-, -, e⟩ | ⟨-, hexp, -⟩ := rxu_onPkt_cases c r p
  · rw [hv] at hbad; cases hbad
  · exact e
  · exact absurd hexp hne

/-- The number before, without a remainder (R146, R160). -/
theorem seqDec_eq {x : Nat} (hx : x < 61) : seqDec x = if x = 0 then 60 else x - 1 := by
  unfold seqDec modN
  split <;> omega

/-- Settles O38: the handler emits `DONE` alone. -/
theorem unsafePacketIsDropped : Obligations.UnsafePacketIsDropped := by
  intro s p hidle hlen hv
  have hw : (Instr.rxPktUnsafe p).wellFormed s.cfg = true := by
    simp [Instr.wellFormed, Config.imageFits, hlen, hv]
  rw [exec_atRxu_outcome rfl hw hidle (rxu_onPkt_unsafe s.rxu hv) rfl]
  simp

/-- Settles O39: the handler's outcome on the expected packet, its trace taken. -/
theorem expectedPacketIsDeliveredAndAcked : Obligations.ExpectedPacketIsDeliveredAndAcked := by
  intro s p hidle hsafe hseq
  obtain ⟨-, hv, hk⟩ := safeOfKind_iff.1 hsafe
  exact exec_atRxu_outcome (i := .rxPktData p) rfl hsafe hidle (rxu_onPkt_expected hv hk hseq) rfl

/-- A well-formed packet row other than the expected DATA packet's: the image is safe, and by its number or by its kind
not the expected one. -/
theorem other_packet {i : Instr} {s : State} {p : Image} (hw : i.wellFormed s.cfg = true)
    (hi : (i = .rxPktData p ∧ (seqField p).toNat ≠ s.rxu.expectedSeq) ∨ i = .rxPktAck p ∨ i = .rxPktK2 p ∨
      i = .rxPktK3 p) :
    i.atRxu = true ∧ rxHandler s i = s.rxu.onPkt s.cfg p ∧ verifyChecksum s.cfg p = true ∧
      ¬ (kindField p = kindData ∧ (seqField p).toNat = s.rxu.expectedSeq) := by
  obtain ⟨rfl, hne⟩ | rfl | rfl | rfl := hi <;> obtain ⟨-, hv, hk⟩ := safeOfKind_iff.1 hw
  · exact ⟨rfl, rfl, hv, fun h => hne h.2⟩
  all_goals exact ⟨rfl, rfl, hv, fun h => absurd (hk.symm.trans h.1) (by decide)⟩

/-- Settles O40: the handler answers the duplicate ACK, and its number is the one before the expected one. -/
theorem otherSafePacketsGetDuplicateAck : Obligations.OtherSafePacketsGetDuplicateAck := by
  intro s p i hidle hlt hw hi
  obtain ⟨hat, hhandler, hv, hne⟩ := other_packet hw hi
  dsimp only
  rw [exec_atRxu_outcome hat hw hidle (hhandler.trans (rxu_onPkt_other hv hne)) rfl, ← seqDec_eq hlt]
  simp

/-- Settles O44: the next state has the handler's receiver and trace, and the handler ends in one of three ways. -/
theorem rxPacketTraceShapes : Obligations.RxPacketTraceShapes := by
  intro i p s t h hi
  have hpkt : i.atRxu = true ∧ rxHandler s i = s.rxu.onPkt s.cfg p := by
    obtain rfl | rfl | rfl | rfl | rfl := hi <;> exact ⟨rfl, rfl⟩
  obtain ⟨-, -, rfl⟩ := exec_atRxu_next hpkt.1 h
  rw [hpkt.2, commit_trace, commit_rxu_field]
  obtain ⟨-, e⟩ | ⟨-, -, e⟩ | ⟨-, -, e⟩ := rxu_onPkt_cases s.cfg s.rxu p <;> rw [e]
  · exact .inl ⟨rfl, rfl⟩
  · exact .inr (.inl ⟨_, rfl, rfl⟩)
  · exact .inr (.inr ⟨_, _, rfl, rfl⟩)

end Sys2Proof.Machine
end

section
/-! The order of the two ends, in terms of the sender's window, the receiver's number and the safe images in flight
(spec 70_reset_and_hazards.md R275, R276), and that what either unit does to them keeps it. -/

namespace Sys2Proof.Machine

/-! ### The order as propositions -/

/-- Where a DATA image's number stands, counted from five before the expected number `e`. -/
def dataPosition (e : Nat) (p : Image) : Nat := seqDist ((e + 56) % modN) (seqField p).toNat

/-- Where an ACK image's number stands, counted from the one before `a`, the oldest outstanding number. -/
def ackPosition (a : Nat) (p : Image) : Nat := seqDist (seqDec a) (seqField p).toNat

/-- How many of the outstanding packets a receiver that expects `e` has. -/
def Txu.receivedBy (t : Txu) (e : Nat) : Nat := seqDist t.ackExpected e

/-- A safe image on its way to the receiver, field by field. -/
structure DataInOrder (t : Txu) (e : Nat) (p : Image) : Prop where
  kind : kindField p = kindData
  seqLt : (seqField p).toNat < 61
  position : dataPosition e p < t.outstandingCount - t.receivedBy e + 5
  stored : 5 ≤ dataPosition e p → t.win.read (seqField p).toNat = some p

/-- A safe image on its way to the sender, field by field. -/
structure AckInOrder (t : Txu) (e : Nat) (p : Image) : Prop where
  kind : kindField p = kindAck
  seqLt : (seqField p).toNat < 61
  position : ackPosition t.ackExpected p ≤ t.receivedBy e

/-- The sender `t`, a receiver that expects `e` and the safe images in flight between them are in order. -/
structure EndsInOrder (t : Txu) (e : Nat) (data acks : List Image) : Prop where
  received : t.receivedBy e ≤ t.outstandingCount
  dataImages : ∀ p ∈ data, DataInOrder t e p
  ackImages : ∀ p ∈ acks, AckInOrder t e p
  dataSorted : data.Pairwise fun p q => dataPosition e p ≤ dataPosition e q + 4
  acksSorted : acks.Pairwise fun p q => ackPosition t.ackExpected p ≤ ackPosition t.ackExpected q

/-- The safe images in flight to a unit. -/
def State.safeInFlight (s : State) (u : Side) : List Image := (s.inFlight u).filter (verifyChecksum s.cfg)

/-- The two ends of a state and its link are in order. -/
def State.Ordered (s : State) : Prop :=
  EndsInOrder s.txu s.rxu.expectedSeq (s.safeInFlight .rxu) (s.safeInFlight .txu)

theorem State.dataInOrder_iff (s : State) (p : Image) :
    s.dataInOrder p = true ↔ DataInOrder s.txu s.rxu.expectedSeq p := by
  unfold State.dataInOrder
  simp only [Bool.and_eq_true, decide_eq_true_eq]
  exact ⟨fun ⟨⟨⟨hk, hs⟩, hp⟩, hw⟩ => ⟨hk, hs, hp, hw⟩, fun ⟨hk, hs, hp, hw⟩ => ⟨⟨⟨hk, hs⟩, hp⟩, hw⟩⟩

theorem State.ackInOrder_iff (s : State) (p : Image) :
    s.ackInOrder p = true ↔ AckInOrder s.txu s.rxu.expectedSeq p := by
  unfold State.ackInOrder
  simp only [Bool.and_eq_true, decide_eq_true_eq]
  exact ⟨fun ⟨⟨hk, hs⟩, hp⟩ => ⟨hk, hs, hp⟩, fun ⟨hk, hs, hp⟩ => ⟨⟨hk, hs⟩, hp⟩⟩

/-- The decidable order is the conjunction of the propositions. -/
theorem State.inOrder_iff (s : State) : s.inOrder = true ↔ s.Ordered := by
  unfold State.inOrder
  simp only [Bool.and_eq_true, decide_eq_true_eq, List.all_eq_true, State.dataInOrder_iff, State.ackInOrder_iff]
  exact ⟨fun ⟨⟨⟨⟨hr, hd⟩, ha⟩, hds⟩, has⟩ => ⟨hr, hd, ha, hds, has⟩,
    fun ⟨hr, hd, ha, hds, has⟩ => ⟨⟨⟨⟨hr, hd⟩, ha⟩, hds⟩, has⟩⟩

/-- Images lost in either direction leave the others in order (R232). -/
theorem EndsInOrder.sublist {t : Txu} {e : Nat} {data data' acks acks' : List Image} (h : EndsInOrder t e data acks)
    (hd : data'.Sublist data) (ha : acks'.Sublist acks) : EndsInOrder t e data' acks' where
  received := h.received
  dataImages p hp := h.dataImages p (hd.subset hp)
  ackImages p hp := h.ackImages p (ha.subset hp)
  dataSorted := h.dataSorted.sublist hd
  acksSorted := h.acksSorted.sublist ha

/-- Images behind all others in the direction to the receiver (R232). -/
theorem EndsInOrder.append_data {t : Txu} {e : Nat} {data acks new : List Image} (h : EndsInOrder t e data acks)
    (hnew : ∀ p ∈ new, DataInOrder t e p) (hsort : new.Pairwise fun p q => dataPosition e p ≤ dataPosition e q + 4)
    (hold : ∀ p ∈ data, ∀ q ∈ new, dataPosition e p ≤ dataPosition e q + 4) :
    EndsInOrder t e (data ++ new) acks where
  received := h.received
  dataImages p hp := (List.mem_append.1 hp).elim (h.dataImages p) (hnew p)
  ackImages := h.ackImages
  dataSorted := List.pairwise_append.2 ⟨h.dataSorted, hsort, hold⟩
  acksSorted := h.acksSorted

/-- An acknowledgement of the last packet received, behind all others (R145, R146). -/
theorem EndsInOrder.append_ack {t : Txu} {e : Nat} {data acks : List Image} {p : Image} (h : EndsInOrder t e data acks)
    (hk : kindField p = kindAck) (hs : (seqField p).toNat < 61)
    (hpos : ackPosition t.ackExpected p = t.receivedBy e) : EndsInOrder t e data (acks ++ [p]) where
  received := h.received
  dataImages := h.dataImages
  ackImages q hq := by
    rcases List.mem_append.1 hq with hq | hq
    · exact h.ackImages q hq
    · obtain rfl := List.mem_singleton.1 hq
      exact ⟨hk, hs, hpos.le⟩
  dataSorted := h.dataSorted
  acksSorted := List.pairwise_append.2 ⟨h.acksSorted, List.pairwise_singleton _ _, fun x hx q hq => by
    obtain rfl := List.mem_singleton.1 hq
    rw [hpos]
    exact (h.ackImages x hx).position⟩

/-! ### The receiver -/

/-- A duplicate ACK is for the number before the expected one (R146). -/
theorem EndsInOrder.dupAck {t : Txu} {e : Nat} {data acks : List Image} (c : Config) (h : EndsInOrder t e data acks)
    (ha : t.ackExpected < 61) : EndsInOrder t e data (acks ++ [mkAck c (seqDec e)]) := by
  refine h.append_ack (kindField_mkAck ..) ?_ ?_
  · rw [seqField_mkAck c (seqDec_lt e)]
    exact seqDec_lt e
  · unfold ackPosition Txu.receivedBy
    rw [seqField_mkAck c (seqDec_lt e)]
    unfold seqDist seqDec modN
    omega

/-- The expected number, counted from five before it. -/
theorem dataPosition_expected {e : Nat} {p : Image} (he : e < 61) (hs : (seqField p).toNat < 61) :
    dataPosition e p = 5 ↔ (seqField p).toNat = e := by
  unfold dataPosition seqDist modN
  omega

/-- An acceptance moves every other number one nearer; the pairwise order keeps the oldest from wrapping (R144). -/
theorem dataPosition_seqInc {e : Nat} {p : Image} (hpos : 1 ≤ dataPosition e p) :
    dataPosition (seqInc e) p + 1 = dataPosition e p := by
  unfold dataPosition seqDist seqInc modN at *
  omega

theorem receivedBy_seqInc {t : Txu} {e : Nat} (hr : t.receivedBy e < 60) :
    t.receivedBy (seqInc e) = t.receivedBy e + 1 := by
  unfold Txu.receivedBy seqDist seqInc modN at *
  omega

/-- The oldest image is the expected packet's: accepted, its number acknowledged (R144, R145). -/
theorem EndsInOrder.accept {c : Config} {t : Txu} {e : Nat} {p : Image} {data acks : List Image}
    (h : EndsInOrder t e (p :: data) acks) (hcore : Txu.Core c t) (he : e < 61) (hp : (seqField p).toNat = e) :
    t.receivedBy e < t.outstandingCount ∧ EndsInOrder t (seqInc e) data (acks ++ [mkAck c e]) := by
  have ha := hcore.ackLt
  have h5 := hcore.bounded
  obtain ⟨hfirst, hrest⟩ := List.pairwise_cons.1 h.dataSorted
  obtain ⟨-, hs, hpos, -⟩ := h.dataImages p (List.mem_cons_self ..)
  rw [(dataPosition_expected he hs).2 hp] at hpos hfirst
  have hr := h.received
  have hinc := receivedBy_seqInc (t := t) (e := e) (by omega)
  have hmoved : ∀ q ∈ data, dataPosition (seqInc e) q + 1 = dataPosition e q := fun q hq =>
    dataPosition_seqInc (by have := hfirst q hq; omega)
  have hnext : EndsInOrder t (seqInc e) data acks := by
    refine ⟨by omega, fun q hq => ?_, fun q hq => ?_, ?_, h.acksSorted⟩
    · obtain ⟨hk, hsq, hposq, hst⟩ := h.dataImages q (List.mem_cons_of_mem _ hq)
      have hm := hmoved q hq
      exact ⟨hk, hsq, by omega, fun h5 => hst (by omega)⟩
    · obtain ⟨hk, hsq, hposq⟩ := h.ackImages q hq
      exact ⟨hk, hsq, by omega⟩
    · refine hrest.imp_of_mem fun hx hy hxy => ?_
      have hmx := hmoved _ hx
      have hmy := hmoved _ hy
      omega
  refine ⟨by omega, hnext.append_ack (kindField_mkAck ..) (by rwa [seqField_mkAck c he]) ?_⟩
  rw [hinc]
  unfold ackPosition Txu.receivedBy at *
  rw [seqField_mkAck c he]
  unfold seqDist seqDec modN at *
  omega

/-! ### The sender -/

/-- Where the `i`-th number of the window stands, when the receiver has the first ones. -/
theorem dataPosition_window {t : Txu} {e i : Nat} {p : Image} (ha : t.ackExpected < 61) (hr : t.receivedBy e ≤ 5)
    (hi : i < 10) (hp : (seqField p).toNat = windowSeq t.ackExpected i) :
    dataPosition e p + t.receivedBy e = 5 + i := by
  unfold dataPosition Txu.receivedBy windowSeq seqDist modN at *
  omega

/-- The sender sends the images of the window from the `j`-th on, and what is in flight reaches at most four beyond the
first of them (R168, R201). -/
theorem EndsInOrder.append_window {t : Txu} {e : Nat} {data acks : List Image} {c : Config} {f : Nat → Chunk}
    {j k : Nat} (h : EndsInOrder t e data acks) (ha : t.ackExpected < 61) (h5 : t.outstandingCount ≤ 5)
    (hk : j + k = t.outstandingCount)
    (hst : ∀ i, i < k → t.win.read (windowSeq t.ackExpected (j + i)) =
      some (mkData c (windowSeq t.ackExpected (j + i)) (f i)))
    (hold : ∀ p ∈ data, dataPosition e p + t.receivedBy e ≤ 9 + j) :
    EndsInOrder t e
      (data ++ (List.range k).map fun i => mkData c (windowSeq t.ackExpected (j + i)) (f i)) acks := by
  have hr := h.received
  have hseq : ∀ i, (seqField (mkData c (windowSeq t.ackExpected (j + i)) (f i))).toNat =
      windowSeq t.ackExpected (j + i) := fun i => seqField_mkData c _ (windowSeq_lt ..)
  have hpos : ∀ i, i < k → dataPosition e (mkData c (windowSeq t.ackExpected (j + i)) (f i)) + t.receivedBy e =
      5 + (j + i) := fun i hi => dataPosition_window ha (by omega) (by omega) (hseq i)
  refine h.append_data ?_ ?_ ?_
  · intro p hp
    obtain ⟨i, hi, rfl⟩ := List.mem_map.1 hp
    have hi := List.mem_range.1 hi
    have hp := hpos i hi
    exact ⟨kindField_mkData .., by rw [hseq]; exact windowSeq_lt .., by omega, fun _ => by rw [hseq]; exact hst i hi⟩
  · refine List.pairwise_map.2 (List.pairwise_lt_range.imp_of_mem fun {x y} hx hy hxy => ?_)
    have hpx := hpos x (List.mem_range.1 hx)
    have hpy := hpos y (List.mem_range.1 hy)
    omega
  · intro p hp q hq
    obtain ⟨i, hi, rfl⟩ := List.mem_map.1 hq
    have hpq := hpos i (List.mem_range.1 hi)
    have hpp := hold p hp
    omega

/-- TX.TMO sends the whole window again (R201): the window is short enough for what is in flight. -/
theorem EndsInOrder.resend {c : Config} {t : Txu} {e : Nat} {data acks : List Image} (h : EndsInOrder t e data acks)
    (hl : c.legal = true) (hcore : Txu.Core c t) :
    EndsInOrder t e (data ++ t.windowSlots.map fun n => mkData c n (t.win.chunkAt n)) acks := by
  have hr := h.received
  have h5 := hcore.bounded
  have hst : ∀ i, i < t.outstandingCount → t.win.read (windowSeq t.ackExpected (0 + i)) =
      some (mkData c (windowSeq t.ackExpected (0 + i)) (t.win.chunkAt (windowSeq t.ackExpected (0 + i)))) := by
    intro i hi
    rw [Nat.zero_add]
    obtain ⟨q, hq, hread⟩ := hcore.slots i hi
    simp only [Ring.chunkAt, hread, chunkOf_mkData _ hl hq.2]
  have hsent := h.append_window (j := 0) hcore.ackLt h5 (Nat.zero_add _) hst (fun p hp => by
    have hpos := (h.dataImages p hp).position
    omega)
  simpa [Txu.windowSlots, Function.comp_def] using hsent

/-- Chunks admitted within the window go out behind everything in flight (R168). -/
theorem EndsInOrder.admits {c : Config} {t t' : Txu} {qs : List Chunk} {tr : List Action} {e : Nat}
    {data acks : List Image} (h : EndsInOrder t e data acks) (hcore : Txu.Core c t) (ha : Admits c t qs t' tr)
    (hroom : t.outstandingCount + qs.length ≤ 5) : EndsInOrder t' e (data ++ sends tr) acks := by
  have hack := hcore.ackLt
  have hnext := hcore.next_eq
  have hr := h.received
  have hout := ha.outstandingCount
  have hrecv : t'.receivedBy e = t.receivedBy e := by rw [Txu.receivedBy, ha.ackExpected]; rfl
  have hseq : ∀ i, (t.nextToSend + i) % 61 = windowSeq t'.ackExpected (t.outstandingCount + i) := by
    intro i
    rw [hnext, ha.ackExpected]
    unfold windowSeq modN
    omega
  have hkept : EndsInOrder t' e data acks := by
    refine ⟨by omega, fun p hp => ?_, fun p hp => ?_, h.dataSorted, ?_⟩
    · obtain ⟨hk, hs, hpos, hst⟩ := h.dataImages p hp
      refine ⟨hk, hs, by omega, fun h5 => ?_⟩
      rw [ha.kept, hst h5]
      intro i hi
      rw [hnext]
      unfold dataPosition Txu.receivedBy windowSeq seqDist modN at *
      omega
    · obtain ⟨hk, hs, hpos⟩ := h.ackImages p hp
      exact ⟨hk, hs, by rwa [ha.ackExpected, hrecv]⟩
    · rw [ha.ackExpected]
      exact h.acksSorted
  rw [ha.sent]
  simp only [hseq]
  refine hkept.append_window (ha.ackExpected ▸ hack) (by omega) hout.symm (fun i hi => ?_) (fun p hp => ?_)
  · rw [← hseq]
    exact ha.stored i hi
  · have hpos := (h.dataImages p hp).position
    omega

/-- The number of an ACK in the window, counted from the one before its start. -/
theorem ackPosition_window {t : Txu} {p : Image} {i : Nat} (hi : i < 60)
    (hp : (seqField p).toNat = windowSeq t.ackExpected i) : ackPosition t.ackExpected p = i + 1 := by
  unfold ackPosition seqDist seqDec modN
  rw [hp]
  unfold windowSeq modN
  omega

/-- Retiring what the oldest ACK acknowledges: the packets retired are ones the receiver has (R193). -/
theorem EndsInOrder.retired {t : Txu} {e i : Nat} {p : Image} {data acks : List Image}
    (h : EndsInOrder t e data (p :: acks)) (ha : t.ackExpected < 61) (h5 : t.outstandingCount ≤ 5)
    (hp : (seqField p).toNat = windowSeq t.ackExpected i) (hi : i < t.outstandingCount) :
    let t1 : Txu := { t with
      ackExpected := windowSeq t.ackExpected (i + 1), outstandingCount := t.outstandingCount - (i + 1) }
    t1.receivedBy e + (i + 1) = t.receivedBy e ∧ EndsInOrder t1 e data acks := by
  intro t1
  have hr := h.received
  have hpos := ackPosition_window (by omega) hp
  have hle : i + 1 ≤ t.receivedBy e := hpos ▸ (h.ackImages p (List.mem_cons_self ..)).position
  obtain ⟨hfirst, hrest⟩ := List.pairwise_cons.1 h.acksSorted
  have hout : t1.outstandingCount = t.outstandingCount - (i + 1) := rfl
  have hrecv : t1.receivedBy e + (i + 1) = t.receivedBy e := by
    simp only [t1, Txu.receivedBy, seqDist, windowSeq, modN] at hle ⊢
    omega
  have hmoved : ∀ q ∈ acks, ackPosition t1.ackExpected q + (i + 1) = ackPosition t.ackExpected q := by
    intro q hq
    have hge := hfirst q hq
    rw [hpos] at hge
    simp only [t1, ackPosition, seqDist, seqDec, windowSeq, modN] at hge ⊢
    omega
  refine ⟨hrecv, by omega, fun q hq => ?_, fun q hq => ?_, h.dataSorted, hrest.imp_of_mem fun hx hy hxy => ?_⟩
  · obtain ⟨hk, hs, hposq, hst⟩ := h.dataImages q hq
    exact ⟨hk, hs, by omega, hst⟩
  · obtain ⟨hk, hs, hposq⟩ := h.ackImages q (List.mem_cons_of_mem _ hq)
    have hm := hmoved q hq
    exact ⟨hk, hs, by omega⟩
  · have hmx := hmoved _ hx
    have hmy := hmoved _ hy
    omega

end Sys2Proof.Machine
end

section
/-! The bytes accepted and not yet delivered, through the handlers of the two units (spec 42_sender_admission.md R173,
R176; 43_sender_ack_timeout.md R193, R201; 41_receiver.md R144). -/

namespace Sys2Proof.Machine

/-- What a receiver that expects `e` still awaits: the outstanding chunks it has not got, then the FIFO's (R176). -/
def Txu.awaited (t : Txu) (e : Nat) : List Byte := (t.chunks.drop (t.receivedBy e)).flatten ++ t.fifo.flatten

theorem State.accepted_eq (s : State) :
    s.accepted = s.delivered.flatten ++ s.txu.awaited s.rxu.expectedSeq := by
  rw [State.accepted, List.map_drop, List.append_assoc]
  rfl

/-- The pieces FRAGMENT cuts off join to the message (R165). -/
theorem fragmentSteps_flatten {n : Nat} (hn : 0 < n) : ∀ (k : Nat) (m : Message), m.length ≤ k →
    (fragmentSteps n k m).flatten = m := by
  intro k
  induction k with
  | zero => intro m hm; rw [List.eq_nil_of_length_eq_zero (Nat.le_zero.1 hm)]; rfl
  | succ k ih =>
    intro m hm
    cases m with
    | nil => rfl
    | cons b m =>
      have hlen : ((b :: m).drop n).length ≤ k := by
        rw [List.length_drop]
        omega
      rw [fragmentSteps, List.flatten_cons, ih _ hlen, List.take_append_drop]

theorem fragment_flatten {c : Config} (hl : c.legal = true) (m : Message) : (fragment c m).flatten = m := by
  obtain ⟨-, -, -, hpos, -⟩ := legal_bounds hl
  exact fragmentSteps_flatten hpos m.length m le_rfl

/-! ### The handlers of the TXU -/

/-- From a sender `t`, a receiver that expects `e` and the safe images in flight, the outcome `h` of a handler leaves the
two ends in order, accepts the bytes `new`, and sends safe images only. -/
structure TxStream (c : Config) (t : Txu) (e : Nat) (data acks : List Image) (h : Txu × List Action)
    (new : List Byte) : Prop where
  ordered : EndsInOrder h.1 e (data ++ sends h.2) acks
  awaited : h.1.awaited e = t.awaited e ++ new
  safe : ∀ p ∈ sends h.2, verifyChecksum c p = true

/-- A handler that leaves the sender and sends nothing. -/
theorem EndsInOrder.still {t : Txu} {e : Nat} {data acks : List Image} (h : EndsInOrder t e data acks) (c : Config)
    {tr : List Action} (hs : sends tr = []) : TxStream c t e data acks (t, tr) [] where
  ordered := by rw [hs, List.append_nil]; exact h
  awaited := (List.append_nil _).symm
  safe := by rw [hs]; nofun

theorem Admits.sends_safe {c : Config} {t t' : Txu} {qs : List Chunk} {tr : List Action} (h : Admits c t qs t' tr) :
    ∀ p ∈ sends tr, verifyChecksum c p = true := by
  intro p hp
  rw [h.sent] at hp
  obtain ⟨i, -, rfl⟩ := List.mem_map.1 hp
  exact verifyChecksum_mkData ..

/-- The chunks admitted are awaited behind the outstanding ones. -/
theorem Admits.awaited_chunks {c : Config} {t t' : Txu} {qs : List Chunk} {tr : List Action} {e : Nat}
    (ha : Admits c t qs t' tr) (hl : c.legal = true) (h : Txu.Core c t) (hr : t.receivedBy e ≤ t.outstandingCount)
    (hq : ∀ q ∈ qs, 1 ≤ q.length ∧ q.length ≤ c.maxPayload) (hroom : t.outstandingCount + qs.length ≤ 5) :
    t'.chunks.drop (t'.receivedBy e) = t.chunks.drop (t.receivedBy e) ++ qs := by
  have hrecv : t'.receivedBy e = t.receivedBy e := by rw [Txu.receivedBy, ha.ackExpected]; rfl
  rw [hrecv, chunks_admits hl h ha hq hroom, List.drop_append_of_le_length (by rwa [chunks_length])]

/-- DRAIN moves chunks from the FIFO's head to the window's end (R170, R176). -/
theorem drain_stream {c : Config} {t : Txu} {e : Nat} {data acks : List Image} (hl : c.legal = true)
    (hcore : Txu.Core c t) (h : EndsInOrder t e data acks) : TxStream c t e data acks (t.drain c) [] := by
  obtain ⟨hadm, hlen, -, hfifo, -⟩ := drain_core c t hcore
  have h5 := hcore.bounded
  have hroom : t.outstandingCount + (t.fifo.take (min t.bufferedCount (5 - t.outstandingCount))).length ≤ 5 := by omega
  refine ⟨h.admits hcore hadm hroom, ?_, hadm.sends_safe⟩
  rw [Txu.awaited, hadm.awaited_chunks hl hcore h.received
    (fun q hq => hcore.fifoChunks q (List.mem_of_mem_take hq)) hroom, hfifo, List.flatten_append, List.append_assoc,
    ← List.flatten_append, List.take_append_drop, List.append_nil]
  rfl

/-- Retiring drops the oldest outstanding chunks. -/
theorem chunks_retired (t : Txu) {i : Nat} (hi : i < t.outstandingCount) :
    let t1 : Txu := { t with
      ackExpected := windowSeq t.ackExpected (i + 1), outstandingCount := t.outstandingCount - (i + 1) }
    t1.chunks = t.chunks.drop (i + 1) := by
  intro t1
  obtain ⟨m, hm⟩ : ∃ m, t.outstandingCount = i + 1 + m := ⟨t.outstandingCount - (i + 1), by omega⟩
  have hseq : ∀ j, windowSeq (windowSeq t.ackExpected (i + 1)) j = windowSeq t.ackExpected (i + 1 + j) := by
    intro j
    unfold windowSeq modN
    omega
  simp only [t1, Txu.chunks, Txu.windowSlots]
  rw [hm, List.range_add, Nat.add_sub_cancel_left, List.map_append, List.map_append, List.drop_left' (by simp)]
  simp [Function.comp_def, hseq]

/-- The retire loop on the oldest ACK: it retires packets the receiver has, or nothing (R193, R194). -/
theorem retire_stream {c : Config} {t : Txu} {e : Nat} {p : Image} {data acks : List Image}
    (hcore : Txu.Core c t) (h : EndsInOrder t e data (p :: acks)) :
    EndsInOrder (t.retire (seqField p).toNat modN) e data acks ∧
      (t.retire (seqField p).toNat modN).awaited e = t.awaited e := by
  cases hb : between t.ackExpected (seqField p).toNat t.nextToSend with
  | false =>
    rw [retire_outside t _ modN hb]
    exact ⟨h.sublist (.refl _) (List.sublist_cons_self ..), rfl⟩
  | true =>
    obtain ⟨i, hi, hp, -⟩ := hcore.inside hb
    have h5 := hcore.bounded
    obtain ⟨hrecv, hord⟩ := h.retired hcore.ackLt h5 hp hi
    rw [hp, retire_inside t i modN hcore.ackLt hcore.nextLt (hcore.count ▸ hi) (by unfold modN; omega)]
    refine ⟨hord, ?_⟩
    rw [Txu.awaited, chunks_retired t hi, List.drop_drop, Nat.add_comm, hrecv]
    rfl

/-- TX.PKT on the oldest image in flight to the sender (R190 to R196). -/
theorem onPkt_stream {c : Config} {t : Txu} {e : Nat} {p : Image} {data acks : List Image} (hl : c.legal = true)
    (hcore : Txu.Core c t) (h : EndsInOrder t e data (p :: acks)) : TxStream c t e data acks (t.onPkt c p) [] := by
  unfold Txu.onPkt
  split
  · obtain ⟨hord, haw⟩ := retire_stream hcore h
    obtain ⟨hord', haw', hsafe⟩ := drain_stream hl (hcore.retire _) hord
    have hsends : ∀ x : Txu × List Action, sends ([.tstop] ++ x.2 ++ x.1.restart ++ finish 0) = sends x.2 := by
      simp [finish]
    exact ⟨by rw [hsends]; exact hord', haw'.trans (by rw [haw]), by rw [hsends]; exact hsafe⟩
  · exact (h.sublist (.refl _) (List.sublist_cons_self ..)).still c rfl

/-- TX.TMO (R201, R203). -/
theorem onTmo_stream {c : Config} {t : Txu} {e : Nat} {data acks : List Image} {k : Txu × List Action}
    (hl : c.legal = true) (hcore : Txu.Core c t) (h : EndsInOrder t e data acks) (hk : t.onTmo c = .ok k) :
    TxStream c t e data acks k [] := by
  rw [onTmo_core hl hcore] at hk
  cases hk
  have hsends : sends ([.tstop] ++ t.windowSlots.map (fun n => .send (mkData c n (t.win.chunkAt n))) ++ t.restart ++
      finish 0) = t.windowSlots.map fun n => mkData c n (t.win.chunkAt n) := by
    rw [show t.windowSlots.map (fun n => Action.send (mkData c n (t.win.chunkAt n))) =
      (t.windowSlots.map fun n => mkData c n (t.win.chunkAt n)).map .send by simp [Function.comp_def]]
    simp only [sends_append, sends_map_send, sends_tstop, sends_restart, finish, sends_done, sends_nil,
      List.nil_append, List.append_nil]
  refine ⟨by rw [hsends]; exact h.resend hl hcore, (List.append_nil _).symm, ?_⟩
  rw [hsends]
  intro p hp
  obtain ⟨n, -, rfl⟩ := List.mem_map.1 hp
  exact verifyChecksum_mkData ..

/-- TX.MSG accepts the bytes of the message its response counts (R172, R173, R176). -/
theorem onMsg_stream {c : Config} {t : Txu} {e : Nat} {data acks : List Image} (hl : c.legal = true)
    (hs : Txu.Safe c t) (h : EndsInOrder t e data acks) (m : Message) :
    TxStream c t e data acks (t.onMsg c m) (m.take ((responses (t.onMsg c m).2).map Prod.snd).sum) := by
  unfold Txu.onMsg
  have h5 := hs.bounded
  obtain ⟨tr, hadm, hfifo, -, htr⟩ :=
    takeChunks_spec c (fragment c m) t 0 hs.nextLt hs.fifoLen hs.full h5 hs.fifoCap
  generalize ha : min (5 - t.outstandingCount) (fragment c m).length = a at *
  generalize min (c.bufSize - t.bufferedCount) ((fragment c m).length - a) = b at *
  have hroom : t.outstandingCount + ((fragment c m).take a).length ≤ 5 := by rw [List.length_take]; omega
  have hsends : sends (t.takeChunks c 0 (fragment c m)).2 = sends tr := by rw [htr]; simp
  have htaken : m.take ((responses (t.takeChunks c 0 (fragment c m)).2).map Prod.snd).sum =
      ((fragment c m).take a).flatten ++ (((fragment c m).drop a).take b).flatten := by
    have hsum := List.take_sum_flatten (fragment c m) (a + b)
    rw [fragment_flatten hl, ← List.map_take, List.take_add, List.flatten_append] at hsum
    rw [htr, ← hsum, responses_append, hadm.response]
    simp [List.take_add]
  refine ⟨?_, ?_, ?_⟩
  · rw [hsends]
    exact h.admits hs.toCore hadm hroom
  · have hwin := hadm.awaited_chunks hl hs.toCore h.received
      (fun q hq => fragment_sized hl m q (List.mem_of_mem_take hq)) hroom
    have hone : (fragment c m).take a = [] ∨ t.fifo = [] := by
      by_cases hfull : t.outstandingCount = 5
      · left
        rw [← ha, hfull]
        simp
      · right
        have hbuf := mt hs.full hfull
        exact List.eq_nil_of_length_eq_zero (by rw [← hs.fifoLen]; omega)
    rw [htaken, Txu.awaited, hwin, hfifo, Txu.awaited]
    obtain hnone | hempty := hone
    · simp [hnone]
    · simp [hempty]
  · rw [hsends]
    exact hadm.sends_safe

/-! ### The expected packet -/

/-- The chunk a receiver that expects `e` awaits first is the one in the window's slot `e` (R144). -/
theorem awaited_expected {c : Config} {t : Txu} {e : Nat} {p : Image} (hl : c.legal = true) (hcore : Txu.Core c t)
    (he : e < 61) (hr : t.receivedBy e < t.outstandingCount) (hread : t.win.read e = some p) :
    t.awaited e = (payField p).take (clampLen c p) ++ t.awaited (seqInc e) := by
  have h5 := hcore.bounded
  have hseq : windowSeq t.ackExpected (t.receivedBy e) = e := by
    have ha := hcore.ackLt
    unfold windowSeq Txu.receivedBy seqDist modN
    omega
  obtain ⟨q, hq, hslot⟩ := hcore.slots _ hr
  rw [hseq, hread] at hslot
  obtain rfl := Option.some.inj hslot
  have hlen : t.receivedBy e < t.chunks.length := by rwa [chunks_length]
  have hchunk : t.chunks[t.receivedBy e] = q := by
    simp [Txu.chunks, Txu.windowSlots, hseq, Ring.chunkAt, hread, chunkOf_mkData _ hl hq.2]
  rw [take_payField_mkData _ hl hq.2, Txu.awaited, List.drop_eq_getElem_cons hlen, hchunk, Txu.awaited,
    receivedBy_seqInc (by omega), List.flatten_cons, List.append_assoc]

end Sys2Proof.Machine
end

section
/-! The stream on whole states: the moves that touch neither end, the events of the two units, and the link's deliveries
of its oldest image (spec 41_receiver.md R141, 43_sender_ack_timeout.md R190, 60_exceptions.md R232). -/

namespace Sys2Proof.Machine

/-! ### Moves that touch neither end -/

/-- `t` has the two ends and the deliveries of `s`, and the link holds no safe image but such as it held, in their
order. -/
structure Calm (s t : State) : Prop where
  txu : t.txu = s.txu
  rxu : t.rxu = s.rxu
  delivered : t.delivered = s.delivered
  links : ∀ u, (t.safeInFlight u).Sublist (s.safeInFlight u)

/-- From `s` to `t` the two ends stay in order, and the bytes `new` are accepted behind those accepted before. -/
structure KeepsStream (s t : State) (new : List Byte) : Prop where
  ordered : t.Ordered
  accepted : t.accepted = s.accepted ++ new

theorem Calm.trans {s t u : State} (h : Calm s t) (k : Calm t u) : Calm s u where
  txu := k.txu.trans h.txu
  rxu := k.rxu.trans h.rxu
  delivered := k.delivered.trans h.delivered
  links v := (k.links v).trans (h.links v)

theorem Calm.accepted {s t : State} (h : Calm s t) : t.accepted = s.accepted := by
  rw [State.accepted_eq, State.accepted_eq, h.txu, h.rxu, h.delivered]

theorem Calm.ordered {s t : State} (h : Calm s t) (ho : s.Ordered) : t.Ordered := by
  unfold State.Ordered
  rw [h.txu, h.rxu]
  exact EndsInOrder.sublist ho (h.links .rxu) (h.links .txu)

theorem Calm.keepsStream {s t : State} (h : Calm s t) (ho : s.Ordered) : KeepsStream s t [] :=
  ⟨h.ordered ho, by rw [h.accepted, List.append_nil]⟩

theorem KeepsStream.after {s t u : State} {new : List Byte} (h : KeepsStream t u new) (hc : Calm s t) :
    KeepsStream s u new :=
  ⟨h.ordered, by rw [h.accepted, hc.accepted]⟩

theorem KeepsStream.andThen {s t u : State} {new : List Byte} (h : KeepsStream s t new) (hc : Calm t u) :
    KeepsStream s u new :=
  ⟨hc.ordered h.ordered, by rw [hc.accepted, h.accepted]⟩

/-- What only the environment, the timer and the model's own fields see. -/
theorem calm_of_links {s t : State} (hc : t.cfg = s.cfg) (htx : t.txu = s.txu) (hrx : t.rxu = s.rxu)
    (hd : t.delivered = s.delivered) (hl : ∀ u, t.inFlight u = s.inFlight u) : Calm s t :=
  ⟨htx, hrx, hd, fun u => by rw [State.safeInFlight, State.safeInFlight, hc, hl u]⟩

theorem calm_inputs (s : State) (ins : List Input) : Calm s { s with inputs := ins } :=
  calm_of_links rfl rfl rfl rfl (inFlight_inputs s · ins)

theorem calm_pending (s : State) (ms : List Message) : Calm s { s with pending := ms } :=
  calm_of_links rfl rfl rfl rfl fun u => by cases u <;> rfl

theorem calm_timer_trace (s : State) (b : Bool) (tr : List Action) :
    Calm s { s with timerRunning := b, trace := tr } :=
  calm_of_links rfl rfl rfl rfl fun u => by cases u <;> rfl

theorem calm_trace_result (s : State) (tr : List Action) (v : Value) : Calm s { s with trace := tr, result := v } :=
  calm_of_links rfl rfl rfl rfl fun u => by cases u <;> rfl

/-- A move of the link that leaves no safe image but such as were there, in their order. -/
theorem calm_setInFlight (s : State) (u : Side) {ps : List Image}
    (h : (ps.filter (verifyChecksum s.cfg)).Sublist (s.safeInFlight u)) : Calm s (s.setInFlight u ps) where
  txu := setInFlight_txu ..
  rxu := setInFlight_rxu ..
  delivered := by cases u <;> rfl
  links v := by
    by_cases hv : v = u
    · subst hv
      rw [State.safeInFlight, setInFlight_cfg, setInFlight_inFlight]
      exact h
    · rw [State.safeInFlight, setInFlight_cfg, setInFlight_other s ps hv]
      exact .refl _

/-- An image changed into one that fails the test is as good as lost (R275). -/
theorem filter_set_sublist {f : Image → Bool} {p : Image} (hp : f p = false) : ∀ (l : List Image) (k : Nat),
    ((l.set k p).filter f).Sublist (l.filter f)
  | [], _ => .refl _
  | a :: l, 0 => by
    rw [List.set_cons_zero, List.filter_cons_of_neg (by simp [hp])]
    exact (List.sublist_cons_self a l).filter f
  | a :: l, k + 1 => by
    rw [List.set_cons_succ, List.filter_cons, List.filter_cons]
    split
    · exact (filter_set_sublist hp l k).cons_cons a
    · exact filter_set_sublist hp l k

/-! ### Events of the units -/

/-- A handler of the TXU that keeps the stream, its trace taken. -/
theorem TxStream.commit {s : State} {x : Txu} {tr : List Action} {new : List Byte}
    (h : TxStream s.cfg s.txu s.rxu.expectedSeq (s.safeInFlight .rxu) (s.safeInFlight .txu) (x, tr) new)
    (hd : deliveries tr = []) : KeepsStream s (commit .txu { s with txu := x } tr) new := by
  obtain ⟨hord, haw, hsafe⟩ := h
  rw [commit_txu]
  constructor
  · have hlink : (s.linkToRxu ++ sends tr).filter (verifyChecksum s.cfg) = s.safeInFlight .rxu ++ sends tr := by
      rw [List.filter_append, List.filter_eq_self.2 hsafe]
      rfl
    rw [← hlink] at hord
    exact hord
  · rw [State.accepted_eq, State.accepted_eq, hd, List.append_nil, List.append_assoc, ← haw]

/-- A handler of the RXU that keeps the order, its trace taken: what it delivers is what was awaited first. -/
theorem commit_rxu_keepsStream {s : State} {r : Rxu} {tr : List Action}
    (hord : EndsInOrder s.txu r.expectedSeq (s.safeInFlight .rxu) (s.safeInFlight .txu ++ sends tr))
    (hsafe : ∀ p ∈ sends tr, verifyChecksum s.cfg p = true)
    (haw : s.txu.awaited s.rxu.expectedSeq = (deliveries tr).flatten ++ s.txu.awaited r.expectedSeq) :
    KeepsStream s (commit .rxu { s with rxu := r } tr) [] := by
  rw [commit_rxu]
  constructor
  · have hlink : (s.linkToTxu ++ sends tr).filter (verifyChecksum s.cfg) = s.safeInFlight .txu ++ sends tr := by
      rw [List.filter_append, List.filter_eq_self.2 hsafe]
      rfl
    rw [← hlink] at hord
    exact hord
  · rw [State.accepted_eq, State.accepted_eq, List.flatten_append, List.append_assoc, ← haw, List.append_nil]

theorem exec_txMsg_keepsStream {m : Message} {s t : State} (hs : State.Safe s) (ho : s.Ordered)
    (h : exec (.txMsg m) s = .next t) :
    KeepsStream s t (m.take ((responses t.trace).map Prod.snd).sum) := by
  obtain ⟨x, tr, -, -, hh, rfl⟩ := exec_atTxu_next rfl h
  have hstream := onMsg_stream hs.legal hs.txu ho m
  rw [Except.ok.inj hh] at hstream
  exact hstream.commit (txHandler_frame hh).delivery

theorem exec_txTmo_keepsStream {s t : State} (hs : State.Safe s) (ho : s.Ordered) (h : exec .txTmo s = .next t) :
    KeepsStream s t [] := by
  obtain ⟨x, tr, -, -, hh, rfl⟩ := exec_atTxu_next rfl h
  exact (onTmo_stream hs.legal hs.txu.toCore ho hh).commit (txHandler_frame hh).delivery

/-- The reserved event codes do nothing at either end (R106). -/
theorem exec_reserved_calm {i : Instr} {s t : State}
    (hi : i = .txRsvd ∨ (∃ m, i = .rxMsg m) ∨ i = .rxTmo ∨ i = .rxRsvd) (h : exec i s = .next t) : Calm s t := by
  obtain rfl | ⟨m, rfl⟩ | rfl | rfl := hi
  · obtain ⟨x, tr, -, -, hh, rfl⟩ := exec_atTxu_next rfl h
    cases hh
    exact calm_timer_trace s _ _
  all_goals
    obtain ⟨-, -, rfl⟩ := exec_atRxu_next rfl h
    exact calm_timer_trace s _ _

/-! ### Deliveries of the oldest image -/

/-- The sub-decode of a packet at a unit's port (R100, R101). -/
def Side.packet (c : Config) (p : Image) : Side → Instr
  | .txu => Decode.txPacket c p
  | .rxu => Decode.rxPacket c p

/-- A delivery of the oldest image is the packet's event, the image taken out of the link (R232). -/
theorem linkDeliver_oldest {s t : State} {u : Side} (hs : State.Safe s) (h : linkDeliver s u 0 = .next t) :
    ∃ p rest, s.inFlight u = p :: rest ∧ exec (u.packet s.cfg p) (s.setInFlight u rest) = .next t := by
  cases hl : s.inFlight u with
  | nil => simp [linkDeliver, hl] at h
  | cons p rest =>
    have hlen : p.length = (s.setInFlight u rest).cfg.pktSize := by
      rw [setInFlight_cfg]
      exact hs.inFlight_sized u p (hl ▸ List.mem_cons_self ..)
    have hdec : decode (s.setInFlight u rest).cfg u.port (1 :: p) = .ok (u.packet s.cfg p) := by
      cases u
      · exact decode_txPacket hlen
      · exact decode_rxPacket hlen
    rw [linkDeliver_some (p := p) (by rw [hl]; rfl), hl] at h
    exact ⟨p, rest, rfl, (present_ok hdec).symm.trans h⟩

theorem safeInFlight_cons {s : State} {u : Side} {p : Image} {rest : List Image} (hl : s.inFlight u = p :: rest)
    (hv : verifyChecksum s.cfg p = true) : s.safeInFlight u = p :: rest.filter (verifyChecksum s.cfg) := by
  rw [State.safeInFlight, hl, List.filter_cons_of_pos hv]

/-- The oldest image taken out of a direction. -/
theorem calm_oldest {s : State} {u : Side} {p : Image} {rest : List Image} (hl : s.inFlight u = p :: rest) :
    Calm s (s.setInFlight u rest) :=
  calm_setInFlight s u (by rw [State.safeInFlight, hl]; exact (List.sublist_cons_self ..).filter _)

theorem rxHandler_rxPacket (s : State) (c : Config) (p : Image) :
    rxHandler s (Decode.rxPacket c p) = s.rxu.onPkt s.cfg p := by
  obtain ⟨-, e⟩ | ⟨-, -, e⟩ | ⟨-, -, e⟩ | ⟨-, -, e⟩ | ⟨-, -, e⟩ := Decode.rxPacket_cases c p <;> rw [e] <;> rfl

theorem txHandler_txPacket (s : State) (c : Config) (p : Image) :
    txHandler s (Decode.txPacket c p) = .ok (s.txu.onPkt s.cfg p) := by
  obtain ⟨-, e⟩ | ⟨-, -, e⟩ | ⟨-, -, e⟩ | ⟨-, -, e⟩ | ⟨-, -, e⟩ := Decode.txPacket_cases c p <;> rw [e] <;> rfl

/-- The receiver takes the oldest image: dropped, acknowledged again, or accepted (R141). -/
theorem deliver_rxu_keepsStream {s t : State} (hs : State.Safe s) (ho : s.Ordered)
    (h : linkDeliver s .rxu 0 = .next t) : KeepsStream s t [] := by
  obtain ⟨p, rest, hl, hexec⟩ := linkDeliver_oldest hs h
  have hcalm := calm_oldest hl
  have hrest : EndsInOrder s.txu s.rxu.expectedSeq (rest.filter (verifyChecksum s.cfg)) (s.safeInFlight .txu) :=
    hcalm.ordered ho
  have he := hs.expectedLt
  obtain ⟨-, -, rfl⟩ := exec_atRxu_next (Decode.rxPacket_atRxu ..) hexec
  refine KeepsStream.after ?_ hcalm
  rw [rxHandler_rxPacket, setInFlight_rxu, setInFlight_cfg]
  obtain ⟨-, e⟩ | ⟨hv, -, e⟩ | ⟨hv, ⟨-, hseq⟩, e⟩ := rxu_onPkt_cases s.cfg s.rxu p <;> rw [e]
  · exact commit_rxu_keepsStream (by rw [sends_done, sends_nil, List.append_nil]; exact hrest) nofun rfl
  · exact commit_rxu_keepsStream (hrest.dupAck s.cfg hs.txu.ackLt) (by simp [verifyChecksum_mkAck]) rfl
  · have hord : EndsInOrder s.txu s.rxu.expectedSeq (p :: rest.filter (verifyChecksum s.cfg)) (s.safeInFlight .txu) :=
      safeInFlight_cons hl hv ▸ ho
    obtain ⟨hr, hnext⟩ := hord.accept hs.txu.toCore he hseq
    have hdata := hord.dataImages p (List.mem_cons_self ..)
    have hread := hdata.stored ((dataPosition_expected he hdata.seqLt).2 hseq).ge
    have haw := awaited_expected hs.legal hs.txu.toCore he hr (hseq ▸ hread)
    exact commit_rxu_keepsStream hnext (by simp [verifyChecksum_mkAck]) (by simpa using haw)

/-- The sender takes the oldest image (R190). -/
theorem deliver_txu_keepsStream {s t : State} (hs : State.Safe s) (ho : s.Ordered)
    (h : linkDeliver s .txu 0 = .next t) : KeepsStream s t [] := by
  obtain ⟨p, rest, hl, hexec⟩ := linkDeliver_oldest hs h
  have hcalm := calm_oldest hl
  obtain ⟨x, tr, -, -, hh, rfl⟩ := exec_atTxu_next (Decode.txPacket_atTxu ..) hexec
  have hd := (txHandler_frame hh).delivery
  rw [txHandler_txPacket, setInFlight_txu, setInFlight_cfg] at hh
  refine KeepsStream.after (TxStream.commit ?_ hd) hcalm
  rw [← Except.ok.inj hh]
  cases hv : verifyChecksum s.cfg p with
  | false =>
    have hdrop : s.txu.onPkt s.cfg p = (s.txu, finish 0) := by simp [Txu.onPkt, hv]
    rw [hdrop]
    exact EndsInOrder.still (hcalm.ordered ho) _ rfl
  | true =>
    have hord : EndsInOrder s.txu s.rxu.expectedSeq (s.safeInFlight .rxu) (p :: rest.filter (verifyChecksum s.cfg)) :=
      safeInFlight_cons hl hv ▸ ho
    exact onPkt_stream hs.legal hs.txu.toCore hord

end Sys2Proof.Machine
end

section
/-! The stream through one step of an orderly environment, and through a run from the launch state (spec
60_exceptions.md R228, R238; 70_reset_and_hazards.md R263, R275, R276; 95_test_vectors.md part 4). -/

namespace Sys2Proof.Machine

/-! ### What an input that answers a next state did -/

theorem present_next {port : Port} {bytes : List Byte} {s t : State} (h : present port bytes s = .next t) :
    ∃ i, decode s.cfg port bytes = .ok i ∧ exec i s = .next t := by
  unfold present at h
  split at h
  · next i hd => exact ⟨i, hd, h⟩
  · cases h

theorem linkMove_next {s t : State} {u : Side} {k : Nat} {f : Image → List Image} (h : linkMove s u k f = .next t) :
    ∃ p, t = { s.setInFlight u (f p) with trace := [] } := by
  unfold linkMove at h
  split at h
  · cases h
  · next p _ => cases h; exact ⟨p, rfl⟩

theorem timerFire_next {s t : State} (h : timerFire s = .next t) :
    exec .txTmo { s with timerRunning := false } = .next t := by
  unfold timerFire at h
  split at h
  · exact h
  · cases h

/-- The producer's oldest message is presented; what it keeps of it comes after (R238). -/
theorem producerPresent_next {again : Bool} {s t : State} (h : producerPresent again s = .next t) :
    ∃ m rest t1 left, s.pending = m :: rest ∧ present .txu (0 :: m) { s with pending := rest } = .next t1 ∧
      t = { t1 with pending := left } := by
  unfold producerPresent at h
  split at h
  · cases h
  · next m rest hm =>
    split at h
    · next t1 hp =>
      refine ⟨m, rest, t1, t.pending, hm, hp, ?_⟩
      split at h <;> cases h <;> rfl
    · cases h
    · cases h

/-- No input writes the parameters or the inputs. -/
theorem takeInput_keeps {i : Input} {s t : State} (h : takeInput i s = .next t) :
    t.cfg = s.cfg ∧ t.inputs = s.inputs := by
  have hpresent : ∀ {port bytes} {s t : State}, present port bytes s = .next t →
      t.cfg = s.cfg ∧ t.inputs = s.inputs := fun h => by
    obtain ⟨_, -, h⟩ := present_next h
    exact exec_keeps h
  have hset : ∀ u ps, (s.setInFlight u ps).cfg = s.cfg ∧ (s.setInFlight u ps).inputs = s.inputs := fun u ps => by
    cases u <;> exact ⟨rfl, rfl⟩
  have hmove : ∀ {u k f}, linkMove s u k f = .next t → t.cfg = s.cfg ∧ t.inputs = s.inputs := fun h => by
    obtain ⟨p, rfl⟩ := linkMove_next h
    exact hset _ _
  cases i with
  | word port bytes => exact hpresent h
  | rst u => exact exec_keeps (i := .reset u) h
  | fire =>
    have hk := exec_keeps (timerFire_next h)
    exact hk
  | deliver u k =>
    dsimp only [takeInput, linkDeliver] at h
    split at h
    · cases h
    · obtain ⟨hc, hi⟩ := hpresent h
      exact ⟨hc.trans (hset _ _).1, hi.trans (hset _ _).2⟩
  | drop u k => exact hmove h
  | duplicate u k => exact hmove h
  | corrupt u k p =>
    dsimp only [takeInput] at h
    split at h
    · exact hmove h
    · cases h
  | submit m =>
    dsimp only [takeInput] at h
    split at h <;> cases h
    exact ⟨rfl, rfl⟩
  | present again =>
    obtain ⟨m, rest, t1, left, -, hp, rfl⟩ := producerPresent_next h
    have hk := hpresent hp
    exact hk

/-- A step consumes the input at the head of the list and leaves the parameters. -/
theorem step_keeps {s t : State} (h : step s = .next t) : t.cfg = s.cfg ∧ t.inputs = s.inputs.tail := by
  cases hin : s.inputs with
  | nil => rw [step_nil hin] at h; cases h; exact ⟨rfl, hin⟩
  | cons i rest => rw [step_cons hin] at h; exact takeInput_keeps h

/-! ### Words at the ports -/

/-- A message at the TXU's command port: the bytes its response counts are accepted (R173). -/
theorem present_message_keepsStream {m : Message} {s t : State} (hs : State.Safe s) (ho : s.Ordered)
    (h : present .txu (0 :: m) s = .next t) :
    KeepsStream s t (m.take ((responses t.trace).map Prod.snd).sum) := by
  obtain ⟨i, hd, hexec⟩ := present_next h
  obtain ⟨-, -, rfl⟩ | ⟨hcode, -⟩ | ⟨hcode, -⟩ | ⟨hcode, -⟩ := Decode.txCommand_iff.1 hd
  · exact exec_txMsg_keepsStream hs ho hexec
  all_goals exact absurd hcode (by decide)

/-- Any other word but a packet at a command port: nothing is accepted. -/
theorem present_word_keepsStream {port : Port} {bytes : List Byte} {s t : State} (hs : State.Safe s) (ho : s.Ordered)
    (hord : (Input.word port bytes).orderly s.cfg = true) (hmsg : ∀ m, port = .txu → bytes ≠ 0 :: m)
    (h : present port bytes s = .next t) : KeepsStream s t [] := by
  obtain ⟨i, hd, hexec⟩ := present_next h
  match port, bytes with
  | .txu, code :: m =>
    have hpkt : code ≠ 1 := of_decide_eq_true hord
    obtain ⟨rfl, -⟩ | ⟨hcode, -⟩ | ⟨-, -, rfl⟩ | ⟨-, -, rfl⟩ := Decode.txCommand_iff.1 hd
    · exact absurd rfl (hmsg m rfl)
    · exact absurd hcode hpkt
    · exact exec_txTmo_keepsStream hs ho hexec
    · exact (exec_reserved_calm (.inl rfl) hexec).keepsStream ho
  | .rxu, code :: m =>
    have hpkt : code ≠ 1 := of_decide_eq_true hord
    refine (exec_reserved_calm (.inr ?_) hexec).keepsStream ho
    obtain ⟨-, -, rfl⟩ | ⟨hcode, -⟩ | ⟨-, -, rfl⟩ | ⟨-, -, rfl⟩ := Decode.rxCommand_iff.1 hd
    · exact .inl ⟨m, rfl⟩
    · exact absurd hcode hpkt
    · exact .inr (.inl rfl)
    · exact .inr (.inr rfl)
  | .timer, [code] =>
    obtain rfl | rfl := Decode.timerCommand_ok hd <;> cases hexec <;> exact (calm_timer_trace s _ _).keepsStream ho
  | .link, p =>
    obtain ⟨-, rfl⟩ : s.cfg.imageFits p = true ∧ i = Decode.wireImage s.cfg p := Decode.packetOperand_iff.1 hd
    obtain ⟨v, hv⟩ := Decode.exec_wireImage s.cfg p s
    obtain ⟨-, rfl⟩ := runValue_next (hv.symm.trans hexec)
    exact (calm_trace_result s _ _).keepsStream ho
  | .timer, _ :: _ :: _ | .txu, [] | .rxu, [] | .timer, [] => cases hd

/-! ### The step, and the run -/

/-- The message an input presents to the TXU (R238). -/
def State.offeredBy (s : State) (i : Input) : Message := State.offered { s with inputs := i :: s.inputs }

theorem offered_cons {s : State} {i : Input} {rest : List Input} (h : s.inputs = i :: rest) :
    s.offered = State.offeredBy { s with inputs := rest } i := by
  unfold State.offeredBy State.offered
  rw [h]

theorem offeredBy_word (s : State) {port : Port} {bytes : List Byte} (h : ∀ m, port = .txu → bytes ≠ 0 :: m) :
    s.offeredBy (.word port bytes) = [] := by
  match port, bytes, h with
  | .txu, code :: m, h => exact if_neg fun hcode => h m rfl (by rw [hcode])
  | .txu, [], _ | .rxu, _, _ | .timer, _, _ | .link, _, _ => rfl

/-- An input that presents no message accepts nothing. -/
theorem KeepsStream.of_no_offer {s t : State} {i : Input} (n : Nat) (h : KeepsStream s t []) (hoff : s.offeredBy i = []) :
    KeepsStream s t ((s.offeredBy i).take n) := by
  rw [hoff, List.take_nil]
  exact h

theorem calm_linkMove {s : State} {u : Side} {ps : List Image}
    (h : (ps.filter (verifyChecksum s.cfg)).Sublist (s.safeInFlight u)) :
    Calm s { s.setInFlight u ps with trace := [] } :=
  (calm_setInFlight s u h).trans (calm_timer_trace _ _ _)

/-- An orderly input keeps the two ends in order and accepts what its response counts of the message presented. -/
theorem takeInput_keepsStream {i : Input} {s t : State} (hs : State.Safe s) (ho : s.Ordered)
    (hord : i.orderly s.cfg = true) (h : takeInput i s = .next t) :
    KeepsStream s t ((s.offeredBy i).take ((responses t.trace).map Prod.snd).sum) := by
  cases i with
  | word port bytes =>
    by_cases hmsg : ∃ m, port = .txu ∧ bytes = 0 :: m
    · obtain ⟨m, rfl, rfl⟩ := hmsg
      exact present_message_keepsStream hs ho h
    · have hmsg : ∀ m, port = .txu → bytes ≠ 0 :: m := fun m hp hb => hmsg ⟨m, hp, hb⟩
      exact (present_word_keepsStream hs ho hord hmsg h).of_no_offer _ (offeredBy_word s hmsg)
  | present again =>
    obtain ⟨m, ms, t1, left, hm, hp, rfl⟩ := producerPresent_next h
    have hoff : s.offeredBy (.present again) = m := congrArg (List.headD · []) hm
    have hcalm := calm_pending s ms
    rw [hoff]
    exact ((present_message_keepsStream ((quiet_pending s ms).safe hs) (hcalm.ordered ho) hp).after hcalm).andThen
      (calm_pending t1 left)
  | fire =>
    have hcalm := calm_timer_trace s false s.trace
    have hs' := (sameUnits_timer s false).safe hs
    exact ((exec_txTmo_keepsStream hs' (hcalm.ordered ho) (timerFire_next h)).after hcalm).of_no_offer _ rfl
  | deliver u k =>
    obtain rfl : k = 0 := of_decide_eq_true hord
    cases u with
    | rxu => exact (deliver_rxu_keepsStream hs ho h).of_no_offer _ rfl
    | txu => exact (deliver_txu_keepsStream hs ho h).of_no_offer _ rfl
  | drop u k =>
    obtain ⟨p, rfl⟩ := linkMove_next h
    exact ((calm_linkMove ((List.eraseIdx_sublist _ _).filter _)).keepsStream ho).of_no_offer _ rfl
  | corrupt u k p =>
    have hbad : verifyChecksum s.cfg p = false := by simpa [Input.orderly] using hord
    dsimp only [takeInput] at h
    split at h
    · obtain ⟨q, rfl⟩ := linkMove_next h
      exact ((calm_linkMove (filter_set_sublist hbad _ k)).keepsStream ho).of_no_offer _ rfl
    · cases h
  | submit m =>
    dsimp only [takeInput] at h
    split at h <;> cases h
    have hcalm := (calm_pending s (s.pending ++ [m])).trans (calm_timer_trace _ s.timerRunning [])
    exact (hcalm.keepsStream ho).of_no_offer _ rfl
  | rst u => cases hord
  | duplicate u k => cases hord

/-- An orderly step keeps the two ends in order and accepts the bytes it took. -/
theorem step_keepsStream {s t : State} (hs : State.Safe s) (ho : s.Ordered)
    (hord : ∀ i, s.inputs.head? = some i → i.orderly s.cfg = true) (h : step s = .next t) :
    KeepsStream s t (s.takenInStep t) := by
  cases hin : s.inputs with
  | nil =>
    rw [step_nil hin] at h
    cases h
    rw [State.takenInStep, State.offered, hin, List.take_nil]
    exact ⟨ho, (List.append_nil _).symm⟩
  | cons i rest =>
    rw [step_cons hin] at h
    have hcalm := calm_inputs s rest
    rw [State.takenInStep, offered_cons hin]
    exact (takeInput_keepsStream ((quiet_inputs s rest).safe hs) (hcalm.ordered ho) (hord i (by rw [hin]; rfl)) h).after
      hcalm

/-- A run under an orderly environment: the invariants, the order, and the bytes accepted. -/
theorem runSteps_keepsStream : ∀ (n : Nat) {s t : State} {bytes : List Byte}, State.Safe s → s.Ordered →
    (∀ i ∈ s.inputs, i.orderly s.cfg = true) → runSteps n s = some (t, bytes) →
    State.Safe t ∧ KeepsStream s t bytes := by
  intro n
  induction n with
  | zero =>
    intro s t bytes hs ho _ h
    cases h
    exact ⟨hs, ho, (List.append_nil _).symm⟩
  | succ n ih =>
    intro s t bytes hs ho hord h
    rw [runSteps] at h
    split at h
    · next s1 hstep =>
      obtain ⟨⟨u, more⟩, hrun, heq⟩ := Option.map_eq_some_iff.1 h
      obtain ⟨rfl, rfl⟩ := Prod.mk.inj heq
      obtain ⟨hcfg, hins⟩ := step_keeps hstep
      have hone := step_keepsStream hs ho (fun i hi => hord i (List.mem_of_mem_head? hi)) hstep
      have hs1 := (State.inv_iff s1).1 (stepKeepsSafety s s1 ((State.inv_iff s).2 hs) hstep)
      obtain ⟨ht, hrest⟩ := ih hs1 hone.ordered
        (fun i hi => by rw [hcfg]; exact hord i (List.mem_of_mem_tail (hins ▸ hi))) hrun
      exact ⟨ht, hrest.ordered, by rw [hrest.accepted, hone.accepted, List.append_assoc]⟩
    · cases h
    · cases h

/-- A sender that holds nothing has nothing the receiver awaits. -/
theorem awaited_of_empty {c : Config} {t : Txu} (e : Nat) (h : Txu.Core c t) (hout : t.outstandingCount = 0)
    (hbuf : t.bufferedCount = 0) : t.awaited e = [] := by
  have hchunks : t.chunks = [] := List.eq_nil_of_length_eq_zero (by rw [chunks_length, hout])
  have hfifo : t.fifo = [] := List.eq_nil_of_length_eq_zero (by rw [← h.fifoLen, hbuf])
  rw [Txu.awaited, hchunks, hfifo, List.drop_nil]
  rfl

/-- Settles O60: by induction on the number of steps, every orderly step keeps the two ends in order and the accepted
bytes in place; what is accepted and not delivered is what the sender still holds for the receiver. -/
theorem deliveredIsPrefixOfAccepted : Obligations.DeliveredIsPrefixOfAccepted := by
  intro c ins n t bytes hl hord hrun
  obtain ⟨-, -, hinit, hnone⟩ := resetStateIsSafe c hl
  have hs := (quiet_inputs (State.resetWith c) ins).safe (State.resetWith_safe hl)
  have hcalm := calm_inputs (State.resetWith c) ins
  obtain ⟨ht, -, hacc⟩ :=
    runSteps_keepsStream n hs (hcalm.ordered ((State.inOrder_iff _).1 hinit)) hord hrun
  rw [hcalm.accepted, hnone, List.nil_append, State.accepted_eq] at hacc
  refine ⟨⟨_, hacc⟩, fun hout hbuf => ?_⟩
  rw [← hacc, awaited_of_empty _ ht.txu.toCore hout hbuf, List.append_nil]

end Sys2Proof.Machine
end

section
/-! The end-to-end statement for one step (spec 70_reset_and_hazards.md R275, R276). -/

namespace Sys2Proof.Machine

/-- Settles O59: the step lemma of the stream, in its decidable form. -/
theorem orderlyStepKeepsStream : Obligations.OrderlyStepKeepsStream := by
  intro s t hs ho hord h
  obtain ⟨hordered, haccepted⟩ :=
    step_keepsStream ((State.inv_iff s).1 hs) ((State.inOrder_iff s).1 ho) hord h
  exact ⟨(State.inOrder_iff t).2 hordered, haccepted⟩

end Sys2Proof.Machine
end

section
/-! Sequence arithmetic and FRAGMENT as instructions (spec 42_sender_admission.md R160, R161, R165). -/

namespace Sys2Proof.Machine

theorem seqDec_seqInc {x : Nat} (hx : x < 61) : seqDec (seqInc x) = x := by
  unfold seqDec seqInc modN
  omega

theorem seqInc_seqDec {x : Nat} (hx : x < 61) : seqInc (seqDec x) = x := by
  unfold seqDec seqInc modN
  omega

/-- Settles O18: the two remainders in closed form. -/
theorem sequenceStepsModulo61 : Obligations.SequenceStepsModulo61 := by
  intro s x hx
  rw [← seqInc_eq hx, ← seqDec_eq hx]
  exact ⟨runValue_wellFormed _ (decide_eq_true hx), runValue_wellFormed _ (decide_eq_true hx), seqDec_seqInc hx,
    seqInc_seqDec hx⟩

/-- Settles O19: the comparison of the two distances from `lo`, in closed form. -/
theorem betweenIsCircularMembership : Obligations.BetweenIsCircularMembership := by
  intro s lo x hi hlo hx hhi
  have hw : (Instr.between lo x hi).wellFormed s.cfg = true := by simp [Instr.wellFormed, seqFits, hlo, hx, hhi]
  refine ⟨between lo x hi, runValue_wellFormed _ hw, ?_⟩
  rw [between_iff hlo hhi, Nat.lt_succ_iff]

/-- The number of pieces is the length divided by the size of a piece, rounded up (R165). -/
theorem fragmentSteps_length {n : Nat} (hn : 0 < n) : ∀ (k : Nat) (m : Message), m.length ≤ k →
    (fragmentSteps n k m).length = (m.length + n - 1) / n := by
  intro k
  induction k with
  | zero =>
    intro m hm
    rw [Nat.le_zero.1 hm, Nat.div_eq_of_lt (by omega)]
    rfl
  | succ k ih =>
    intro m hm
    cases m with
    | nil => exact (Nat.div_eq_of_lt (by simp; omega)).symm
    | cons b m =>
      have hlen : ((b :: m).drop n).length ≤ k := by
        rw [List.length_drop]
        omega
      have hone : (b :: m).length + n - 1 = m.length + n := by
        rw [List.length_cons]
        omega
      rw [fragmentSteps, List.length_cons, ih _ hlen, List.length_drop, hone, Nat.add_div_right _ hn, List.length_cons]
      by_cases hlast : m.length < n
      · rw [Nat.div_eq_of_lt hlast, Nat.div_eq_of_lt (by omega)]
      · rw [Nat.sub_add_cancel (by omega), Nat.add_sub_cancel]

/-- Every piece before the last one is full (R165). -/
theorem fragmentSteps_full {n : Nat} : ∀ (k : Nat) (m : Message) (i : Nat),
    i + 1 < (fragmentSteps n k m).length → ((fragmentSteps n k m).getD i []).length = n := by
  intro k
  induction k with
  | zero => intro m i hi; cases hi
  | succ k ih =>
    intro m i hi
    cases m with
    | nil => cases hi
    | cons b m =>
      rw [fragmentSteps] at hi ⊢
      cases i with
      | succ i => exact ih _ i (Nat.lt_of_succ_lt_succ hi)
      | zero =>
        have hmore : ((b :: m).drop n).length ≠ 0 := by
          intro hnone
          rw [List.eq_nil_of_length_eq_zero hnone] at hi
          cases k <;> simp [fragmentSteps] at hi
        rw [List.length_drop] at hmore
        rw [List.getD_cons_zero, List.length_take]
        omega

/-- Settles O20: by induction over the pieces cut off. -/
theorem fragmentsJoinToTheMessage : Obligations.FragmentsJoinToTheMessage := by
  intro s m hl hm
  obtain ⟨-, -, -, hpos, -⟩ := legal_bounds hl
  exact ⟨_, runValue_wellFormed _ hm, fragment_flatten hl m, fragment_sized hl m, fragmentSteps_full _ m,
    fragmentSteps_length hpos _ m le_rfl⟩

end Sys2Proof.Machine
end

section
/-! ADMIT, ENQUEUE and DRAIN as instructions of their own (spec 42_sender_admission.md R168, R170, R171). -/

namespace Sys2Proof.Machine

/-- A step of a TXU handler whose precondition holds. -/
theorem runStep_room {i : Instr} {s : State} {pre : Bool} (f : Fault) (h : Txu × List Action)
    (hw : i.wellFormed s.cfg = true) (hp : pre = true) :
    runStep i s pre f h = .next (commit .txu { s with txu := h.1 } h.2) := by
  rw [runStep, if_pos hw, if_pos hp]

/-- Settles O21: the trace of ADMIT is one image, and one TSTART where the window was empty. -/
theorem admitFillsNextSlotAndSends : Obligations.AdmitFillsNextSlotAndSends := by
  intro s q hq hroom n p first
  refine (runStep_room (i := .admitChunk q) .admitWindowFull (s.txu.admitChunk s.cfg q) hq
    (decide_eq_true hroom)).trans ?_
  rw [commit_txu, admitChunk_trace]
  by_cases hempty : s.txu.outstandingCount = 0 <;>
    simp [n, p, first, hempty, timerAfter, Txu.admitChunk, seqInc]

/-- Settles O23: ENQUEUE emits nothing, so no collaborator does anything. -/
theorem enqueueAppendsAtTail : Obligations.EnqueueAppendsAtTail := by
  intro s q hq hroom
  exact runStep_room .enqueueFifoFull (s.txu.enqueue q, []) hq (decide_eq_true hroom)

theorem fifoCounted_iff {c : Config} {t : Txu} : t.fifoCounted c = true ↔
    t.bufferedCount = t.fifo.length ∧ t.bufferedCount ≤ c.bufSize ∧ ∀ q ∈ t.fifo, c.chunkFits q = true := by
  simp only [Txu.fifoCounted, Bool.and_eq_true, decide_eq_true_eq, List.all_eq_true, and_assoc]

/-- A timer command that only starts the timer leaves it running where it ran or was started (R235). -/
theorem timerAfter_start {tr : List Action} {P : Prop} [Decidable P] (b : Bool)
    (h : timerBits tr = if P then [true] else []) : timerAfter b tr = (b || decide P) := by
  by_cases hp : P <;> simp [timerAfter, h, hp]

/-- DRAIN by the number `k` of entries it moves; of the invariants it needs the FIFO's count alone (R170). -/
theorem drain_moves (c : Config) (t : Txu) (hb : t.bufferedCount = t.fifo.length) (hn : t.nextToSend < 61) :
    let k := min t.bufferedCount (5 - t.outstandingCount)
    Admits c t (t.fifo.take k) (t.drain c).1 (t.drain c).2 ∧ (t.fifo.take k).length = k ∧
      (t.drain c).1.fifo = t.fifo.drop k ∧ (t.drain c).1.bufferedCount = t.bufferedCount - k := by
  intro k
  obtain ⟨hadm, hfifo, hcount⟩ := drain_admits c t hb hn
  have hk : k = min (5 - t.outstandingCount) t.fifo.length := by omega
  rw [List.take_eq_take_min, ← hk] at hadm
  refine ⟨hadm, by rw [List.length_take]; omega, ?_, by omega⟩
  rw [hfifo, hk]
  obtain hle | hle := Nat.le_total (5 - t.outstandingCount) t.fifo.length
  · rw [Nat.min_eq_left hle]
  · rw [Nat.min_eq_right hle, List.drop_eq_nil_of_le hle, List.drop_length]

theorem getD_take {α : Type} (l : List α) (d : α) {i k : Nat} (hi : i < k) : (l.take k).getD i d = l.getD i d := by
  rw [List.getD, List.getElem?_take_of_lt hi, List.getD]

/-- Settles O22: DRAIN admits the oldest entries, as many as there are and fit. -/
theorem drainAdmitsWhileRoom : Obligations.DrainAdmitsWhileRoom := by
  intro s hcounted hn k
  obtain ⟨hb, -, -⟩ := fifoCounted_iff.1 hcounted
  obtain ⟨hadm, hlen, hfifo, hcount⟩ := drain_moves s.cfg s.txu hb hn
  have hout := hadm.outstandingCount
  have hnext := hadm.nextToSend
  have hstored := hadm.stored
  have hkept := hadm.kept
  have hsent := hadm.sent
  have htimer := hadm.timer
  rw [hlen] at hout hnext hstored hkept hsent htimer
  refine ⟨_, runStep_room (i := .drain) .admitWindowFull _ rfl rfl, ?_⟩
  rw [commit_txu]
  refine ⟨hout, hcount, hfifo, hnext, hadm.ackExpected, hadm.timeoutInterval, hadm.control, ?_,
    timerAfter_start _ htimer, ?_, ?_, htimer, rfl, fun i hi => ?_, hkept⟩
  · simp [hadm.delivery]
  · dsimp only
    omega
  · rw [hsent]
    exact List.map_congr_left fun i hi => by rw [getD_take _ _ (List.mem_range.1 hi)]
  · rw [← getD_take s.txu.fifo [] hi]
    exact hstored i hi

end Sys2Proof.Machine
end

section
/-! TX.MSG as one event: its idle DRAIN, what it puts into the window and the FIFO, and the bytes it accepts (spec
42_sender_admission.md R172 to R176). -/

namespace Sys2Proof.Machine

/-- TX.MSG at an IDLE unit runs its handler, and the collaborators take its trace. -/
theorem exec_txMsg_idle {s : State} {m : Message} (hm : s.cfg.messageFits m = true) (hc : s.txu.control = .idle) :
    exec (.txMsg m) s = .next (commit .txu { s with txu := (s.txu.onMsg s.cfg m).1 } (s.txu.onMsg s.cfg m).2) :=
  runTxu_idle (i := .txMsg m) hm hc

/-- Settles O28: no chunk is cut from the empty message, and `DONE` is no collaborator's. -/
theorem emptyMessageSendsNothing : Obligations.EmptyMessageSendsNothing := by
  intro s hc
  refine exec_txMsg_idle ?_ hc
  unfold Config.messageFits
  split <;> simp

/-! ### The DRAIN before every chunk -/

theorem bufferedOnlyWhenFull_iff {t : Txu} :
    t.bufferedOnlyWhenFull = true ↔ (0 < t.bufferedCount → t.outstandingCount = 5) :=
  decide_eq_true_iff

theorem windowBounded_iff {t : Txu} : t.windowBounded = true ↔ t.outstandingCount ≤ 5 := decide_eq_true_iff

/-- Under I4 and I6 the window is full or the FIFO is empty (R174). -/
theorem drain_idle {c : Config} {t : Txu} (hb : t.bufferedCount = t.fifo.length)
    (hfull : 0 < t.bufferedCount → t.outstandingCount = 5) : t.drain c = (t, []) := by
  refine drain_of_full c ?_
  by_cases h : 0 < t.bufferedCount
  · exact .inl (hfull h).ge
  · exact .inr (List.eq_nil_of_length_eq_zero (by omega))

/-- Settles O25: an ADMIT with room finds the FIFO empty, an ENQUEUE a full window; so every DRAIN of the
loop is idle. -/
theorem drainInsideMsgIsIdle : Obligations.DrainInsideMsgIsIdle := by
  constructor
  · intro c t hcounted hfull
    obtain ⟨hb, hcap, hchunks⟩ := fifoCounted_iff.1 hcounted
    rw [bufferedOnlyWhenFull_iff] at hfull
    refine ⟨drain_idle hb hfull, fun q hroom => ⟨hcounted, ?_, windowBounded_iff.2 hroom⟩,
      fun q hq h5 hspace => ⟨fifoCounted_iff.2 ⟨?_, hspace, ?_⟩, bufferedOnlyWhenFull_iff.2 fun _ => h5,
        windowBounded_iff.2 h5.le⟩⟩
    · rw [bufferedOnlyWhenFull_iff, admitChunk_bufferedCount]
      intro hpos
      have h5 := hfull hpos
      omega
    · simp [hb]
    · intro x hx
      obtain hx | hx := List.mem_append.1 hx
      · exact hchunks x hx
      · exact List.mem_singleton.1 hx ▸ hq
  · intro s m hs hm h
    have hs := (State.inv_iff s).1 hs
    have hloop : s.txu.onMsg s.cfg m = h :=
      takeChunks_withoutDrain s.cfg _ s.txu 0 hs.txu.fifoLen hs.txu.full hs.txu.bounded
    rw [exec_txMsg_idle hm hs.txuIdle, hloop]

/-! ### Where the chunks go -/

/-- Settles O26: the first `a` chunks are admitted and the next `b` are enqueued. -/
theorem msgFillsWindowThenFifo : Obligations.MsgFillsWindowThenFifo := by
  intro s m hs hm qs a b n
  have hs := (State.inv_iff s).1 hs
  obtain ⟨tr, hadm, hfifo, hcount, htr⟩ :=
    takeChunks_spec s.cfg qs s.txu 0 hs.txu.nextLt hs.txu.fifoLen hs.txu.full hs.txu.bounded hs.txu.fifoCap
  have hlen : (qs.take a).length = a := by
    rw [List.length_take]
    exact Nat.min_eq_left (Nat.min_le_right ..)
  have hout := hadm.outstandingCount
  have hnext := hadm.nextToSend
  have hstored := hadm.stored
  have hkept := hadm.kept
  have hsent := hadm.sent
  have htimer := hadm.timer
  rw [hlen] at hout hnext hstored hkept hsent htimer
  have hbits : timerBits (s.txu.onMsg s.cfg m).2 = if s.txu.outstandingCount = 0 ∧ 0 < a then [true] else [] := by
    rw [Txu.onMsg, htr, timerBits_append, htimer, timerBits_done, timerBits_nil, List.append_nil]
  refine ⟨_, exec_txMsg_idle hm hs.txuIdle, ?_⟩
  rw [commit_txu]
  refine ⟨hadm.ackExpected, hnext, hout, hfifo, hcount, fun i hi => ?_, hkept, ?_, hbits, ?_, rfl,
    timerAfter_start _ hbits⟩
  · rw [← getD_take qs [] hi]
    exact hstored i hi
  · dsimp only
    rw [Txu.onMsg, htr, sends_append, hsent, sends_done, sends_nil, List.append_nil]
    exact List.map_congr_left fun i hi => by rw [getD_take _ _ (List.mem_range.1 hi)]
  · dsimp only
    rw [Txu.onMsg, htr, responses_append, hadm.response, List.nil_append, responses_done, responses_nil, Nat.zero_add]
    by_cases hall : a + b = qs.length
    · rw [if_pos hall, if_pos hall]
      rfl
    · rw [if_neg hall, if_neg hall]
      rfl

/-! ### The bytes the sender holds -/

theorem receivedBy_ackExpected {t : Txu} (ha : t.ackExpected < 61) : t.receivedBy t.ackExpected = 0 := by
  unfold Txu.receivedBy seqDist modN
  omega

/-- The bytes the sender holds are those a receiver awaits that has none of the outstanding packets. -/
theorem stream_eq_awaited {t : Txu} (ha : t.ackExpected < 61) : t.stream = t.awaited t.ackExpected := by
  rw [Txu.awaited, receivedBy_ackExpected ha]
  rfl

/-- Such a receiver and an empty link are in order with any sender. -/
theorem EndsInOrder.of_empty_link {t : Txu} (ha : t.ackExpected < 61) : EndsInOrder t t.ackExpected [] [] where
  received := by rw [receivedBy_ackExpected ha]; exact Nat.zero_le _
  dataImages := nofun
  ackImages := nofun
  dataSorted := .nil
  acksSorted := .nil

/-- The first `k` chunks of a message and the others have its length (R165). -/
theorem fragment_sum {c : Config} (hl : c.legal = true) (m : Message) (k : Nat) :
    (((fragment c m).take k).map List.length).sum + (((fragment c m).drop k).map List.length).sum = m.length := by
  rw [← List.sum_append, ← List.map_append, List.take_append_drop, ← List.length_flatten, fragment_flatten hl]

/-- Settles O27: the sender's bytes are what a receiver that has got nothing yet awaits, and TX.MSG adds to those the
bytes its one response counts; the chunks taken are the first ones of the message. -/
theorem msgAppendsAcceptedBytesToStream : Obligations.MsgAppendsAcceptedBytesToStream := by
  intro s m hinv hm
  have hs := (State.inv_iff s).1 hinv
  have hack := hs.txu.ackLt
  obtain ⟨t, hexec, hkept, -, -, -, -, -, -, -, -, hresp, -⟩ := msgFillsWindowThenFifo s m hinv hm
  obtain rfl := Host.Outcome.next.inj ((exec_txMsg_idle hm hs.txuIdle).symm.trans hexec)
  obtain ⟨-, haw, -⟩ := onMsg_stream hs.legal hs.txu (.of_empty_link hack) m
  rw [commit_txu_field] at hkept
  rw [commit_trace] at hresp
  refine ⟨_, _, _, hexec, hresp, ?_, ?_, fun hok => ?_⟩
  · exact (fragment_sum hs.legal m _).le.trans' (Nat.le_add_right ..)
  · rw [hresp, List.map_singleton, List.sum_singleton] at haw
    rw [commit_txu_field, stream_eq_awaited hack, stream_eq_awaited (hkept ▸ hack), hkept]
    exact haw
  · have hall := (ite_eq_left_iff.1 hok).mt (by decide)
    rw [← fragment_sum hs.legal m, not_not.1 hall, List.drop_length]
    rfl

end Sys2Proof.Machine
end

section
/-! The trace of an event at the TXU (spec 00_scope.md R16, 42_sender_admission.md R169, 43_sender_ack_timeout.md
R208). -/

namespace Sys2Proof.Machine

/-- A trace in which TSTOP stands first or nowhere, `DONE` last and nowhere else, and every image is DATA with a legal
number. -/
structure TxTrace (tr : List Action) : Prop where
  stopFirst : .tstop ∉ tr.tail
  doneLast : ∃ tr' st n, tr = tr' ++ [.done st n] ∧ responses tr' = []
  legalData : tr.all Action.sendsLegalData = true

/-- A part of a trace that neither stops the timer nor responds, and sends legal DATA only. -/
structure TxBody (tr : List Action) : Prop where
  noStop : .tstop ∉ tr
  noResponse : responses tr = []
  legalData : tr.all Action.sendsLegalData = true

theorem TxBody.nil : TxBody [] := ⟨nofun, rfl, rfl⟩

theorem TxBody.append {a b : List Action} (ha : TxBody a) (hb : TxBody b) : TxBody (a ++ b) where
  noStop h := (List.mem_append.1 h).elim ha.noStop hb.noStop
  noResponse := by rw [responses_append, ha.noResponse, hb.noResponse, List.append_nil]
  legalData := by rw [List.all_append, ha.legalData, hb.legalData, Bool.and_self]

theorem TxBody.restart (t : Txu) : TxBody t.restart := by
  unfold Txu.restart
  split
  · exact .nil
  · exact ⟨by simp, rfl, rfl⟩

theorem mkData_sendsLegalData (c : Config) {n : Nat} (q : Chunk) (hn : n < 61) :
    (Action.send (mkData c n q)).sendsLegalData = true := by
  simp [Action.sendsLegalData, seqField_mkData c q hn, hn]

/-- Without a delivery, what a trace sends decides whether it sends legal DATA only. -/
theorem all_sendsLegalData {tr : List Action} (hd : deliveries tr = [])
    (hs : ∀ p ∈ sends tr, (Action.send p).sendsLegalData = true) : tr.all Action.sendsLegalData = true := by
  induction tr with
  | nil => rfl
  | cons x tr ih =>
    rw [List.all_cons, Bool.and_eq_true]
    cases x with
    | send p => exact ⟨hs p (List.mem_cons_self ..), ih hd fun q hq => hs q (List.mem_cons_of_mem _ hq)⟩
    | deliver q => cases hd
    | tstart d => exact ⟨rfl, ih hd hs⟩
    | tstop => exact ⟨rfl, ih hd hs⟩
    | done st n => exact ⟨rfl, ih hd hs⟩

/-- ADMITs send the DATA images of their chunks, under numbers modulo 61 (R168, R169). -/
theorem Admits.txBody {c : Config} {t t' : Txu} {qs : List Chunk} {tr : List Action} (h : Admits c t qs t' tr) :
    TxBody tr where
  noStop := h.noStop
  noResponse := h.response
  legalData := all_sendsLegalData h.delivery fun p hp => by
    rw [h.sent] at hp
    obtain ⟨i, -, rfl⟩ := List.mem_map.1 hp
    exact mkData_sendsLegalData c _ (Nat.mod_lt _ (by decide))

/-- The window's images are DATA under the window's numbers (R201). -/
theorem TxBody.resend (c : Config) (t : Txu) :
    TxBody (t.windowSlots.map fun n => .send (mkData c n (t.win.chunkAt n))) where
  noStop := by simp
  noResponse := by
    induction t.windowSlots with
    | nil => rfl
    | cons n slots ih => exact ih
  legalData := by
    simp only [List.all_map, List.all_eq_true]
    intro n hn
    obtain ⟨i, -, rfl⟩ := List.mem_map.1 hn
    exact mkData_sendsLegalData c _ (windowSeq_lt ..)

/-- A body and then `DONE`. -/
theorem TxBody.finished {tr : List Action} (h : TxBody tr) (st : Status) (n : Nat) : TxTrace (tr ++ [.done st n]) where
  stopFirst hmem := by
    obtain hbody | hdone := List.mem_append.1 (List.mem_of_mem_tail hmem)
    · exact h.noStop hbody
    · cases List.mem_singleton.1 hdone
  doneLast := ⟨tr, st, n, rfl, h.noResponse⟩
  legalData := by rw [List.all_append, h.legalData]; rfl

/-- TSTOP, a body and then `DONE`. -/
theorem TxBody.stopped {tr : List Action} (h : TxBody tr) : TxTrace (.tstop :: tr ++ finish 0) where
  stopFirst hmem := by
    obtain hbody | hdone := List.mem_append.1 hmem
    · exact h.noStop hbody
    · cases List.mem_singleton.1 hdone
  doneLast := ⟨.tstop :: tr, .ok, 0, rfl, h.noResponse⟩
  legalData := (h.finished .ok 0).legalData

theorem onPkt_trace {c : Config} {t : Txu} (h : Txu.Core c t) (p : Image) : TxTrace (t.onPkt c p).2 := by
  unfold Txu.onPkt
  split
  · obtain ⟨hadm, -⟩ := drain_core c _ (h.retire (seqField p).toNat)
    exact (hadm.txBody.append (.restart _)).stopped
  · exact TxBody.nil.finished .ok 0

theorem onMsg_trace {c : Config} {t : Txu} (h : Txu.Safe c t) (m : Message) : TxTrace (t.onMsg c m).2 := by
  obtain ⟨tr, hadm, -, -, htr⟩ :=
    takeChunks_spec c (fragment c m) t 0 h.nextLt h.fifoLen h.full h.bounded h.fifoCap
  rw [Txu.onMsg, htr]
  exact hadm.txBody.finished _ _

theorem onTmo_trace {c : Config} {t : Txu} {k : Txu × List Action} (hl : c.legal = true) (h : Txu.Core c t)
    (hk : t.onTmo c = .ok k) : TxTrace k.2 := by
  rw [onTmo_core hl h] at hk
  cases hk
  exact ((TxBody.resend c t).append (.restart t)).stopped

/-- Every handler of the TXU, from a safe state. -/
theorem txHandler_trace {s : State} (hs : State.Safe s) {i : Instr} {k : Txu × List Action}
    (hk : txHandler s i = .ok k) : TxTrace k.2 := by
  cases i with
  | txMsg m => cases hk; exact onMsg_trace hs.txu m
  | txPktAck p | txPktData p | txPktK2 p | txPktK3 p | txPktUnsafe p => cases hk; exact onPkt_trace hs.txu.toCore p
  | txTmo => exact onTmo_trace hs.legal hs.txu.toCore hk
  | _ => cases hk; exact TxBody.nil.finished .badOp 0

/-- Settles O46: the trace of the event is its handler's. -/
theorem txTraceDiscipline : Obligations.TxTraceDiscipline := by
  intro i s t hi hs h
  obtain ⟨x, tr, -, -, hh, rfl⟩ := exec_atTxu_next hi h
  obtain ⟨hstop, hdone, hlegal⟩ := txHandler_trace ((State.inv_iff s).1 hs) hh
  exact ⟨hstop, hdone, hlegal⟩

end Sys2Proof.Machine
end

section
/-! TX.PKT and TX.TMO as events of a safe or an IDLE sender: an image ignored, an ACK outside and inside the window, the
timeout (spec 43_sender_ack_timeout.md R190 to R196, R201 to R203). -/

namespace Sys2Proof.Machine

/-- An event at an IDLE TXU, on well-formed operands, whose handler does not fault. -/
theorem exec_atTxu_idle {i : Instr} {s : State} {t : Txu} {tr : List Action} (hi : i.atTxu = true)
    (hw : i.wellFormed s.cfg = true) (hc : s.txu.control = .idle) (hh : txHandler s i = .ok (t, tr)) :
    exec i s = .next (commit .txu { s with txu := t } tr) := by
  rw [exec_atTxu i s hi, hh]
  exact runTxu_idle hw hc

/-! ### Images that are ignored -/

theorem onPkt_ignored {c : Config} (t : Txu) {p : Image} (h : ¬ (verifyChecksum c p = true ∧ kindField p = kindAck)) :
    t.onPkt c p = (t, finish 0) :=
  if_neg h

/-- A well-formed packet row other than the ACK's: by its checksum or by its kind the image is no safe ACK. -/
theorem not_safeAck {i : Instr} {s : State} {p : Image} (hw : i.wellFormed s.cfg = true)
    (hi : i = .txPktData p ∨ i = .txPktK2 p ∨ i = .txPktK3 p ∨ i = .txPktUnsafe p) :
    i.atTxu = true ∧ txHandler s i = .ok (s.txu.onPkt s.cfg p) ∧
      ¬ (verifyChecksum s.cfg p = true ∧ kindField p = kindAck) := by
  have hkind : ∀ {k}, k ≠ kindAck → s.cfg.safeOfKind k p = true →
      ¬ (verifyChecksum s.cfg p = true ∧ kindField p = kindAck) := fun hne hsafe ⟨_, hack⟩ => by
    obtain ⟨-, -, hk⟩ := safeOfKind_iff.1 hsafe
    exact hne (hk.symm.trans hack)
  obtain rfl | rfl | rfl | rfl := hi
  · exact ⟨rfl, rfl, hkind (by decide) hw⟩
  · exact ⟨rfl, rfl, hkind (by decide) hw⟩
  · exact ⟨rfl, rfl, hkind (by decide) hw⟩
  · refine ⟨rfl, rfl, fun ⟨hv, _⟩ => ?_⟩
    simp [Instr.wellFormed, hv] at hw

/-- Settles O31: the handler emits `DONE` alone. -/
theorem nonAckPacketsAreIgnored : Obligations.NonAckPacketsAreIgnored := by
  intro s p i hidle hw hi
  obtain ⟨hat, hhandler, hno⟩ := not_safeAck hw hi
  rw [onPkt_ignored s.txu hno] at hhandler
  exact exec_atTxu_idle hat hw hidle hhandler

/-! ### Acknowledgements -/

theorem restart_eq (t : Txu) : t.restart = if 0 < t.outstandingCount then [.tstart t.timeoutInterval] else [] := by
  unfold Txu.restart Txu.winEmpty
  by_cases h : t.outstandingCount = 0 <;> simp [h]

/-- TX.PKT of a safe ACK: what its handler answers is the next state. -/
theorem exec_txPktAck_idle {s : State} {p : Image} {t : Txu} {tr : List Action} (hp : s.cfg.safeOfKind 1 p = true)
    (hc : s.txu.control = .idle) (hh : s.txu.onPkt s.cfg p = (t, tr)) :
    exec (.txPktAck p) s = .next (commit .txu { s with txu := t } tr) :=
  exec_atTxu_idle (i := .txPktAck p) rfl hp hc (congrArg Except.ok hh)

/-- TX.PKT of a safe ACK outside the window: nothing is retired, so DRAIN finds no room or nothing to drain (R195). -/
theorem onPkt_outside {c : Config} {t : Txu} {p : Image} (h : Txu.Safe c t) (hv : verifyChecksum c p = true)
    (hk : kindField p = kindAck) (hb : between t.ackExpected (seqField p).toNat t.nextToSend = false) :
    t.onPkt c p = (t, [.tstop] ++ t.restart ++ finish 0) := by
  rw [Txu.onPkt, if_pos ⟨hv, hk⟩, retire_outside t _ _ hb, drain_idle h.fifoLen h.full]
  rfl

/-- Settles O34: the trace stops the timer and restarts it, and sends nothing. -/
theorem ackOutsideWindowOnlyRestartsTimer : Obligations.AckOutsideWindowOnlyRestartsTimer := by
  intro s p hinv hp hb
  have hs := (State.inv_iff s).1 hinv
  obtain ⟨-, hv, hk⟩ := safeOfKind_iff.1 hp
  have htimer := timerAfter_restart (t := s.txu) (tr := []) s.timerRunning fun _ => rfl
  rw [List.append_nil] at htimer
  rw [exec_txPktAck_idle hp hs.txuIdle (onPkt_outside hs.txu hv hk hb), commit_txu, htimer, ← restart_eq]
  simp [finish]

/-- TSTOP, DRAIN and the restart, by the number `k` of entries DRAIN moves: the sender, and what the ports show (R192,
R194, R196). -/
theorem drain_restarted {c : Config} {t : Txu} (h : Txu.Core c t) (b : Bool) :
    let k := min t.bufferedCount (5 - t.outstandingCount)
    let d := t.drain c
    let tr := [.tstop] ++ d.2 ++ d.1.restart ++ finish 0
    d.1.ackExpected = t.ackExpected ∧ d.1.outstandingCount = t.outstandingCount + k ∧
      d.1.nextToSend = (t.nextToSend + k) % 61 ∧ d.1.bufferedCount = t.bufferedCount - k ∧ d.1.fifo = t.fifo.drop k ∧
      sends tr = (List.range k).map (fun i => mkData c ((t.nextToSend + i) % 61) (t.fifo.getD i [])) ∧
      timerBits tr = [false] ++ (if t.outstandingCount = 0 ∧ 0 < k then [true] else []) ++
        (if 0 < t.outstandingCount + k then [true] else []) ∧
      responses tr = [(0, 0)] ∧ timerAfter b tr = decide (0 < t.outstandingCount + k) ∧
      ∀ n, (∀ i, i < k → n ≠ (t.nextToSend + i) % 61) → d.1.win.read n = t.win.read n := by
  intro k d tr
  obtain ⟨hadm, hlen, hget, hfifo, hcount⟩ := drain_core c t h
  have hout := hadm.outstandingCount
  have hnext := hadm.nextToSend
  have hkept := hadm.kept
  have hsent := hadm.sent
  have hbits := hadm.timer
  rw [hlen] at hout hnext hkept hsent hbits
  refine ⟨hadm.ackExpected, hout, hnext, hcount, hfifo, ?_, ?_, ?_, ?_, hkept⟩
  · have hports : sends tr = sends d.2 := by simp [tr, finish]
    rw [hports, hsent]
    exact List.map_congr_left fun i hi => by rw [hget i (List.mem_range.1 hi)]
  · rw [← hbits, ← hout]
    simp [tr, d, finish, timerBits_restart]
  · simp [tr, d, finish, hadm.response, Status.code]
  · rw [← hout]
    refine timerAfter_restart b fun hnone => ?_
    have hempty := hout.symm.trans hnone
    rw [hbits, if_neg (by omega)]

/-- Settles O32: the retire loop takes `i + 1` packets off the window, and the rest is DRAIN between the first TSTOP and
the last TSTART. -/
theorem ackRetiresUpToItsNumber : Obligations.AckRetiresUpToItsNumber := by
  intro s p hinv hp hb
  have hs := (State.inv_iff s).1 hinv
  obtain ⟨-, hv, hk⟩ := safeOfKind_iff.1 hp
  obtain ⟨i, hi, hseq, hdist, hon, hcore⟩ := onPkt_inside hs.txu.toCore hv hk hb
  obtain ⟨hack, hout, hnext, hcount, hfifo, hsends, hbits, hresp, htimer, hkept⟩ :=
    drain_restarted hcore s.timerRunning
  have hpast : windowSeq s.txu.ackExpected (i + 1) = ((seqField p).toNat + 1) % 61 := by
    rw [hseq]
    unfold windowSeq modN
    omega
  rw [hdist]
  refine ⟨hi, _, exec_txPktAck_idle hp hs.txuIdle hon, ?_⟩
  rw [commit_txu]
  exact ⟨hack.trans hpast, hout, hnext, hcount, hfifo, hsends, hbits, rfl, hresp, htimer, rfl, hkept⟩

/-! ### The bytes the sender holds -/

theorem stream_eq (t : Txu) : t.stream = t.chunks.flatten ++ t.fifo.flatten := rfl

/-- DRAIN moves chunks from the FIFO into the window and so leaves the bytes the sender holds (R176). -/
theorem stream_drain {c : Config} {t : Txu} (hl : c.legal = true) (h : Txu.Core c t) :
    (t.drain c).1.stream = t.stream := by
  obtain ⟨hadm, -⟩ := drain_core c t h
  have hack := hadm.ackExpected
  obtain ⟨-, haw, -⟩ := drain_stream hl h (.of_empty_link h.ackLt)
  rw [stream_eq_awaited h.ackLt, stream_eq_awaited (hack ▸ h.ackLt), hack, haw, List.append_nil]

/-- The first chunks of the window, by their slots. -/
theorem chunks_take (t : Txu) {r : Nat} (hr : r ≤ t.outstandingCount) :
    t.chunks.take r = (List.range r).map fun i => t.win.chunkAt (windowSeq t.ackExpected i) := by
  rw [Txu.chunks, Txu.windowSlots, List.map_map, ← List.map_take, List.take_range, Nat.min_eq_left hr]
  rfl

/-- Retiring packets takes their chunks off the front of the bytes the sender holds (R176, R193). -/
theorem stream_retired {t : Txu} {i : Nat} (hi : i < t.outstandingCount) :
    t.stream = (t.chunks.take (i + 1)).flatten ++ Txu.stream { t with
      ackExpected := windowSeq t.ackExpected (i + 1), outstandingCount := t.outstandingCount - (i + 1) } := by
  have hsplit := congrArg List.flatten (List.take_append_drop (i + 1) t.chunks)
  rw [List.flatten_append] at hsplit
  rw [stream_eq, stream_eq, chunks_retired t hi, ← List.append_assoc, hsplit]

/-- Settles O33: the retired chunks are the first of the window's, and DRAIN leaves the bytes as they are. -/
theorem ackRemovesPrefixOfStream : Obligations.AckRemovesPrefixOfStream := by
  intro s p hinv hp hb
  have hs := (State.inv_iff s).1 hinv
  obtain ⟨-, hv, hk⟩ := safeOfKind_iff.1 hp
  obtain ⟨i, hi, -, hdist, hon, hcore⟩ := onPkt_inside hs.txu.toCore hv hk hb
  rw [hdist]
  intro r
  refine ⟨_, exec_txPktAck_idle hp hs.txuIdle hon, ?_⟩
  rw [commit_txu_field, stream_drain hs.legal hcore, stream_retired hi, chunks_take s.txu hi]
  rfl

/-! ### The timeout -/

/-- TX.TMO with nothing outstanding, whatever else the sender holds (R202). -/
theorem onTmo_empty (c : Config) {t : Txu} (h : t.outstandingCount = 0) :
    t.onTmo c = .ok (t, [.tstop, .done .ok 0]) := by
  have hslots : t.windowSlots = [] := by simp [Txu.windowSlots, h]
  rw [Txu.onTmo, hslots, resendSlots, restart_eq, if_neg (by omega)]
  rfl

/-- Settles O36: no slot is resent. -/
theorem spuriousTimeoutOnlyStopsTimer : Obligations.SpuriousTimeoutOnlyStopsTimer :=
  fun s hidle hout => exec_atTxu_idle (i := .txTmo) rfl rfl hidle (onTmo_empty s.cfg hout)

/-- The image TX.TMO sends for an outstanding packet is the one its slot holds (R201, R203). -/
theorem Txu.Core.read_window {c : Config} {t : Txu} {i : Nat} (h : Txu.Core c t) (hl : c.legal = true)
    (hi : i < t.outstandingCount) : t.win.read (windowSeq t.ackExpected i) =
      some (mkData c (windowSeq t.ackExpected i) (t.win.chunkAt (windowSeq t.ackExpected i))) := by
  obtain ⟨q, hq, hread⟩ := h.slots i hi
  simp only [Ring.chunkAt, hread, chunkOf_mkData _ hl hq.2]

/-- Settles O35: the handler's outcome with its trace taken; each image is the one its slot holds. -/
theorem timeoutResendsWholeWindow : Obligations.TimeoutResendsWholeWindow := by
  intro s hinv ps
  have hs := (State.inv_iff s).1 hinv
  have hcore := hs.txu.toCore
  have hps : s.txu.windowSlots.map (fun n => Action.send (mkData s.cfg n (s.txu.win.chunkAt n))) = ps.map .send := by
    rw [Txu.windowSlots, List.map_map, List.map_map]
    rfl
  have hhandler := onTmo_core hs.legal hcore
  rw [hps] at hhandler
  have htimer := timerAfter_restart (t := s.txu) (tr := ps.map .send) s.timerRunning fun _ => timerBits_map_send ps
  refine ⟨?_, fun i hi => (hcore.read_window hs.legal hi).trans ?_⟩
  · rw [exec_atTxu_idle (i := .txTmo) rfl rfl hs.txuIdle hhandler, commit_txu, htimer, ← restart_eq]
    simp [finish]
  · simp [ps, hi, windowSeq]

end Sys2Proof.Machine
end

section
/-! The link's moves, one lemma a case of what the link holds; and that whatever else happens leaves the images of a
direction in their order and only adds what is sent (spec 60_exceptions.md R232, R233; 92_eei_decisions.md D21). -/

namespace Sys2Proof.Machine

/-! ### The moves -/

theorem linkMove_some {s : State} {u : Side} {k : Nat} {p : Image} (f : Image → List Image)
    (h : (s.inFlight u)[k]? = some p) : linkMove s u k f = .next { s.setInFlight u (f p) with trace := [] } := by
  unfold linkMove
  rw [h]

theorem linkMove_none {s : State} {u : Side} {k : Nat} (f : Image → List Image) (h : (s.inFlight u)[k]? = none) :
    linkMove s u k f = .refused .moveNotEnabled := by
  unfold linkMove
  rw [h]

theorem linkDeliver_none {s : State} {u : Side} {k : Nat} (h : (s.inFlight u)[k]? = none) :
    linkDeliver s u k = .refused .moveNotEnabled := by
  unfold linkDeliver
  rw [h]

/-- An image presented at a unit's command port is the packet's event (R92, R100, R101). -/
theorem present_packet {s : State} {p : Image} (u : Side) (h : p.length = s.cfg.pktSize) :
    present u.port (1 :: p) s = exec (u.packet s.cfg p) s := by
  cases u with
  | txu => exact present_ok (decode_txPacket h)
  | rxu => exact present_ok (decode_rxPacket h)

/-- A delivery of an image of the right size, whichever images are older, is the packet's event (R232). -/
theorem linkDeliver_packet {s : State} {u : Side} {k : Nat} {p : Image} (h : (s.inFlight u)[k]? = some p)
    (hlen : p.length = s.cfg.pktSize) :
    linkDeliver s u k = exec (u.packet s.cfg p) (s.setInFlight u ((s.inFlight u).eraseIdx k)) := by
  have hcfg : (s.setInFlight u ((s.inFlight u).eraseIdx k)).cfg = s.cfg := setInFlight_cfg ..
  rw [linkDeliver_some h, present_packet u (hcfg ▸ hlen), hcfg]

theorem takeInput_corrupt {s : State} {p : Image} (u : Side) (k : Nat) (h : p.length = s.cfg.pktSize) :
    takeInput (.corrupt u k p) s = linkMove s u k (fun _ => (s.inFlight u).set k p) :=
  if_pos (decide_eq_true h)

/-- A move on an image the link does not hold (R232). -/
theorem takeInput_move_none {i : Input} {s : State} {u : Side} {k : Nat} {q : Image} (h : (s.inFlight u)[k]? = none)
    (hi : i = .drop u k ∨ i = .duplicate u k ∨ i = .corrupt u k q ∨ i = .deliver u k) :
    takeInput i s = .refused .moveNotEnabled := by
  obtain rfl | rfl | rfl | rfl := hi
  · exact linkMove_none _ h
  · exact linkMove_none _ h
  · by_cases hq : q.length = s.cfg.pktSize
    · rw [takeInput_corrupt u k hq, linkMove_none _ h]
    · exact if_neg (fun hfit => hq (of_decide_eq_true hfit))
  · exact linkDeliver_none h

/-! ### What holds an image back -/

@[simp] theorem inFlight_trace (s : State) (u : Side) (tr : List Action) :
    ({ s with trace := tr } : State).inFlight u = s.inFlight u := rfl

/-- A transaction at a port is an instruction other than the joint reset. -/
theorem present_links {port : Port} {bytes : List Byte} {s t : State} (h : present port bytes s = .next t) (u : Side) :
    ∃ ps, t.inFlight u = s.inFlight u ++ ps := by
  obtain ⟨i, hd, hexec⟩ := present_next h
  exact exec_links hexec (decode_ne_reset hd .system) u

theorem linkMove_links {s t : State} {u v : Side} {k : Nat} {f : Image → List Image} (h : linkMove s v k f = .next t)
    (hv : v ≠ u) : ∃ ps, t.inFlight u = s.inFlight u ++ ps := by
  obtain ⟨p, rfl⟩ := linkMove_next h
  exact ⟨[], by rw [inFlight_trace, setInFlight_other s _ hv.symm, List.append_nil]⟩

theorem linkDeliver_links {s t : State} {u v : Side} {k : Nat} (h : linkDeliver s v k = .next t) (hv : v ≠ u) :
    ∃ ps, t.inFlight u = s.inFlight u ++ ps := by
  cases hk : (s.inFlight v)[k]? with
  | none => rw [linkDeliver_none hk] at h; cases h
  | some p =>
    rw [linkDeliver_some hk] at h
    exact setInFlight_other s _ hv.symm ▸ present_links h u

/-- An input that is no move of a direction leaves the images there in their order, and only adds what is sent. -/
theorem takeInput_links {i : Input} {s t : State} {u : Side} (h : takeInput i s = .next t)
    (hi : i.movesLink u = false) : ∃ ps, t.inFlight u = s.inFlight u ++ ps := by
  cases i with
  | word port bytes => exact present_links h u
  | rst v =>
    refine exec_links (i := .reset v) h ?_ u
    rintro ⟨⟩
    cases hi
  | fire => exact exec_links (timerFire_next h) nofun u
  | deliver v k => exact linkDeliver_links h (of_decide_eq_false hi)
  | drop v k => exact linkMove_links h (of_decide_eq_false hi)
  | duplicate v k => exact linkMove_links h (of_decide_eq_false hi)
  | corrupt v k p =>
    dsimp only [takeInput] at h
    split at h
    · exact linkMove_links h (of_decide_eq_false hi)
    · cases h
  | submit m =>
    dsimp only [takeInput] at h
    split at h <;> cases h
    exact ⟨[], (List.append_nil _).symm⟩
  | present again =>
    obtain ⟨m, rest, t1, left, -, hp, rfl⟩ := producerPresent_next h
    exact present_links hp u

/-- Settles O53: move by move on what the link holds; every other step leaves the direction to what is sent. Consuming
the input leaves the link alone. -/
theorem linkMovesAreTheContracts : Obligations.LinkMovesAreTheContracts := by
  intro s u k rest r
  have hin : r.inFlight u = s.inFlight u := inFlight_inputs ..
  refine ⟨fun ps => ⟨setInFlight_inFlight .., fun v hv => setInFlight_other s ps hv⟩, fun p hp => ?_,
    fun hp q hi => ?_, fun i t hi hmove h => ?_⟩
  · rw [← hin] at hp ⊢
    refine ⟨fun hi => ?_, fun hi => ?_, fun q hq hi => ?_, fun hlen hi => ?_⟩ <;> rw [step_cons hi]
    · exact linkMove_some _ hp
    · exact linkMove_some _ hp
    · exact (takeInput_corrupt (s := r) u k hq).trans (linkMove_some _ hp)
    · refine (linkDeliver_packet hp hlen).trans ?_
      cases u <;> rfl
  · rw [← hin] at hp
    have hmoves : ∃ i, s.inputs = i :: rest ∧
        (i = .drop u k ∨ i = .duplicate u k ∨ i = .corrupt u k q ∨ i = .deliver u k) := by
      obtain hi | hi | hi | hi := hi <;> exact ⟨_, hi, by simp⟩
    obtain ⟨i, hi, hmove⟩ := hmoves
    exact (step_cons hi).trans (takeInput_move_none hp hmove)
  · rw [step_cons hi] at h
    exact hin ▸ takeInput_links (s := r) h hmove

end Sys2Proof.Machine
end

section
/-! TX.MSG where neither the window nor the FIFO has room (spec 42_sender_admission.md R173, 60_exceptions.md R223). -/

namespace Sys2Proof.Machine

/-- A message that is not empty is cut into at least one chunk (R165). -/
theorem fragment_ne_nil (c : Config) {m : Message} (hm : m ≠ []) : fragment c m ≠ [] := by
  cases m with
  | nil => exact absurd rfl hm
  | cons b m => simp [fragment, fragmentSteps]

/-- With the window and the FIFO full the chunk loop stops at its first chunk, and DRAIN before it is idle (R173). -/
theorem takeChunks_exhausted {c : Config} {t : Txu} {qs : List Chunk} (acc : Nat) (hwin : t.outstandingCount = 5)
    (hfifo : t.bufferedCount = c.bufSize) (hqs : qs ≠ []) : t.takeChunks c acc qs = (t, raiseOverflow acc) := by
  obtain ⟨q, rest, rfl⟩ := List.exists_cons_of_ne_nil hqs
  have hdrain : t.drain c = (t, []) := drain_of_full c (.inl hwin.ge)
  have hwinRoom : t.winRoom = false := by simp [Txu.winRoom, windowSize, hwin]
  have hfifoRoom : t.fifoRoom c = false := by simp [Txu.fifoRoom, hfifo]
  simp [Txu.takeChunks, hdrain, hwinRoom, hfifoRoom]

/-- Settles O30: the first chunk finds no room, and `DONE` is no collaborator's. -/
theorem exhaustedBufferOverflows : Obligations.ExhaustedBufferOverflows := by
  intro s m hidle hfit hm hwin hfifo
  have hon : s.txu.onMsg s.cfg m = (s.txu, raiseOverflow 0) :=
    takeChunks_exhausted 0 hwin hfifo (fragment_ne_nil s.cfg hm)
  rw [exec_txMsg_idle hfit hidle, hon]
  rfl

end Sys2Proof.Machine
end

section
/-! The timer: its two commands and its firing (spec 30_encoding.md R99, 60_exceptions.md R235 to R237). -/

namespace Sys2Proof.Machine

theorem exec_tstart (s : State) : exec .tstart s = .next (commit .txu s [.tstart s.txu.timeoutInterval]) := rfl

theorem exec_tstop (s : State) : exec .tstop s = .next (commit .txu s [.tstop]) := rfl

/-- Settles O50: each command is a trace of one action, and what the trace does decides the timer alone. -/
theorem timerCommandsSetRunning : Obligations.TimerCommandsSetRunning := by
  intro s
  rw [exec_tstart, exec_tstop, commit_txu, commit_txu]
  simp [timerAfter]

theorem timerFire_enabled {s : State} (hrun : s.timerRunning = true) (hidle : s.txu.control = .idle) :
    timerFire s = exec .txTmo { s with timerRunning := false } := by
  simp [timerFire, hrun, hidle]

theorem timerFire_disabled {s : State} (h : s.timerRunning = false ∨ s.txu.control = .busy) :
    timerFire s = .refused .moveNotEnabled := by
  obtain h | h := h <;> simp [timerFire, h]

/-- Settles O51: the step is the firing, and its two premises are the timer's. -/
theorem firingRunsTimeoutInOneStep : Obligations.FiringRunsTimeoutInOneStep := by
  intro s rest hin
  rw [step_cons hin]
  exact ⟨fun hrun hidle => timerFire_enabled (s := { s with inputs := rest }) hrun hidle,
    fun hoff => timerFire_disabled (s := { s with inputs := rest }) hoff⟩

end Sys2Proof.Machine
end

section
/-! A unit that is not IDLE takes neither an event nor a reset (spec 70_reset_and_hazards.md R260, R262, R270). -/

namespace Sys2Proof.Machine

theorem runTxu_busy {i : Instr} {s : State} (h : Except Fault (Txu × List Action)) (hw : i.wellFormed s.cfg = true)
    (hc : s.txu.control = .busy) : runTxu i s h = .refused (.unitBusy .txu) := by
  simp [runTxu, hw, hc]

theorem runRxu_busy {i : Instr} {s : State} (h : Rxu × List Action) (hw : i.wellFormed s.cfg = true)
    (hc : s.rxu.control = .busy) : runRxu i s h = .refused (.unitBusy .rxu) := by
  simp [runRxu, hw, hc]

theorem execReset_txu_busy {s : State} (hc : s.txu.control = .busy) :
    execReset .txu s = .refused (.unitBusy .txu) := by
  simp [execReset, hc]

theorem execReset_rxu_busy {s : State} (hc : s.rxu.control = .busy) :
    execReset .rxu s = .refused (.unitBusy .rxu) := by
  simp [execReset, hc]

/-- The joint reset names the TXU where it is BUSY, whatever the RXU does. -/
theorem execReset_system_txuBusy {s : State} (hc : s.txu.control = .busy) :
    execReset .system s = .refused (.unitBusy .txu) := by
  simp [execReset, hc]

/-- With the RXU BUSY the joint reset is refused: in the TXU's name where it is BUSY too, else in the RXU's. -/
theorem execReset_system_rxuBusy {s : State} (hc : s.rxu.control = .busy) :
    ∃ u, execReset .system s = .refused (.unitBusy u) := by
  cases ht : s.txu.control with
  | busy => exact ⟨.txu, execReset_system_txuBusy ht⟩
  | idle => exact ⟨.rxu, by simp [execReset, ht, hc]⟩

/-- Settles O49: an event runs in its unit's frame, whose control state is read before the handler; so does a reset. -/
theorem busyUnitTakesNoEvent : Obligations.BusyUnitTakesNoEvent := by
  intro i s hw
  refine ⟨fun hi hc => ?_, fun hi hc => ?_, execReset_txu_busy, execReset_rxu_busy, ?_⟩
  · rw [exec_atTxu i s hi]
    exact runTxu_busy _ hw hc
  · rw [exec_atRxu i s hi]
    exact runRxu_busy _ hw hc
  · rintro (ht | hr)
    · exact ⟨.txu, execReset_system_txuBusy ht⟩
    · exact execReset_system_rxuBusy hr

end Sys2Proof.Machine
end

section
/-! The producer's move: what the one response of TX.MSG says of the message, and what the producer keeps of it (spec
42_sender_admission.md R173, 60_exceptions.md R238). -/

namespace Sys2Proof.Machine

/-- Chunks are not empty, so without all of them some bytes of the message are missing (R165). -/
theorem fragment_sum_lt {c : Config} (hl : c.legal = true) (m : Message) {k : Nat} (hk : k < (fragment c m).length) :
    (((fragment c m).take k).map List.length).sum < m.length := by
  have hrest : 0 < (((fragment c m).drop k).map List.length).sum := by
    refine List.sum_pos _ (fun x hx => ?_) (by simpa using hk)
    obtain ⟨q, hq, rfl⟩ := List.mem_map.1 hx
    exact (fragment_sized hl m q (List.mem_of_mem_drop hq)).1
  have hsum := fragment_sum hl m k
  omega

theorem fragment_sum_all {c : Config} (hl : c.legal = true) (m : Message) :
    (((fragment c m).take (fragment c m).length).map List.length).sum = m.length := by
  rw [List.take_length, ← List.length_flatten, fragment_flatten hl]

/-- Only the response at the end of a trace says what a TX.MSG left of its message. -/
theorem untaken_append_done (m : Message) (tr : List Action) (st : Status) (n : Nat) :
    untaken m (tr ++ [.done st n]) = if st = .overflow then m.drop n else [] := by
  induction tr with
  | nil => cases st <;> rfl
  | cons a tr ih =>
    rw [← ih, List.cons_append, untaken]
    simp

/-- TX.MSG responds once, with OVERFLOW exactly where it did not take every byte, and the bytes after those it counts are
the untaken ones (R172, R173). -/
theorem onMsg_response {c : Config} {t : Txu} (hl : c.legal = true) (h : Txu.Safe c t) (m : Message) :
    ∃ st n, responses (t.onMsg c m).2 = [(st, n)] ∧ (st = 1 ↔ n < m.length) ∧
      untaken m (t.onMsg c m).2 = m.drop n := by
  obtain ⟨tr, hadm, -, -, htr⟩ :=
    takeChunks_spec c (fragment c m) t 0 h.nextLt h.fifoLen h.full h.bounded h.fifoCap
  rw [Nat.zero_add] at htr
  rw [Txu.onMsg, htr]
  refine ⟨_, _, by rw [responses_append, hadm.response, responses_done, responses_nil, List.nil_append], ?_⟩
  rw [untaken_append_done]
  split
  · next hall => rw [hall, fragment_sum_all hl]; simp [Status.code]
  · next hleft => simpa [Status.code] using fragment_sum_lt hl m (by omega)

/-- A message at the TXU's command port is a TX.MSG. -/
theorem decode_txMsg {c : Config} {m : Message} (h : c.messageFits m = true) :
    decode c .txu (0 :: m) = .ok (.txMsg m) :=
  Decode.txCommand_iff.2 (.inl ⟨rfl, h, rfl⟩)

/-- The producer's move where TX.MSG answers: what is untaken, if anything, goes back in front where the producer keeps
it (R238). -/
theorem producerPresent_eq {s t : State} {m : Message} {ms : List Message} (again : Bool)
    (hm : s.cfg.messageFits m = true) (hp : s.pending = m :: ms)
    (h : exec (.txMsg m) { s with pending := ms } = .next t) :
    producerPresent again s =
      .next (if again = true ∧ untaken m t.trace ≠ [] then { t with pending := untaken m t.trace :: t.pending }
        else t) := by
  have hpres : present .txu (0 :: m) { s with pending := ms } = .next t :=
    (present_ok (s := { s with pending := ms }) (decode_txMsg hm)).trans h
  unfold producerPresent
  rw [hp]
  dsimp only
  rw [hpres]
  dsimp only
  cases again with
  | false => rfl
  | true => cases untaken m t.trace <;> rfl

/-- Settles O29: the untaken bytes are those after the number in the response, and there are some exactly on an
OVERFLOW. -/
theorem producerKeepsWhatOverflowLeaves : Obligations.ProducerKeepsWhatOverflowLeaves := by
  intro s m ms again rest hinv hm hpend hin
  have hs := (State.inv_iff s).1 hinv
  obtain ⟨st, n, hresp, hst, hleft⟩ := onMsg_response hs.legal hs.txu m
  have hexec := exec_txMsg_idle (s := { s with inputs := rest, pending := ms }) hm hs.txuIdle
  have hmove := producerPresent_eq (s := { s with inputs := rest }) again hm hpend hexec
  have hsome : m.drop n ≠ [] ↔ n < m.length := by simp
  simp only [commit_trace, hleft, hsome, commit_pending] at hmove
  exact ⟨_, st, n, hexec, commit_pending .., hresp, hst, (step_cons hin).trans hmove⟩

end Sys2Proof.Machine
end

section
/-! The preconditions of ADMIT and ENQUEUE (spec 42_sender_admission.md R168, R171). -/

namespace Sys2Proof.Machine

/-- A step of a TXU handler whose precondition fails. -/
theorem runStep_noRoom {i : Instr} {s : State} {pre : Bool} (f : Fault) (h : Txu × List Action)
    (hw : i.wellFormed s.cfg = true) (hp : pre = false) : runStep i s pre f h = .fault f := by
  rw [runStep, if_pos hw, hp]
  rfl

/-- Settles O24: each precondition is a comparison that fails without room. -/
theorem admissionWithoutRoomStops : Obligations.AdmissionWithoutRoomStops := fun s q hq =>
  ⟨fun hfull => runStep_noRoom (i := .admitChunk q) .admitWindowFull (s.txu.admitChunk s.cfg q) hq
      (decide_eq_false hfull.not_gt),
    fun hfull => runStep_noRoom (i := .enqueue q) .enqueueFifoFull (s.txu.enqueue q, []) hq
      (decide_eq_false hfull.not_gt)⟩

end Sys2Proof.Machine
end

section
/-! The reserved event codes (spec 30_encoding.md R106, 41_receiver.md R149, 43_sender_ack_timeout.md R205). -/

namespace Sys2Proof.Machine

/-- Settles O37: at either port the handler is `raise BadOp`, and `DONE` is no collaborator's. -/
theorem reservedCodesAnswerBadOp : Obligations.ReservedCodesAnswerBadOp := by
  intro s i m hw htx hrx hi
  refine ⟨?_, rfl⟩
  obtain rfl | hi := hi
  · exact exec_atTxu_idle rfl hw htx rfl
  · have hrxu : i.atRxu = true ∧ rxHandler s i = (s.rxu, raiseBadOp) := by
      obtain rfl | rfl | rfl := hi <;> exact ⟨rfl, rfl⟩
    obtain ⟨hat, hhandler⟩ := hrxu
    rw [exec_atRxu_idle hat hw hrx, hhandler]
    rfl

end Sys2Proof.Machine
end

section
/-! The launch state, and the resets of IDLE units (spec 10_state.md R43, 70_reset_and_hazards.md R260 to R262). -/

namespace Sys2Proof.Machine

/-- Settles O1: field by field of `Txu.reset`, `Rxu.reset` and `State.resetWith`. -/
theorem resetGivesLaunchState : Obligations.ResetGivesLaunchState := by
  intro c s
  have htxu : s.txu = Txu.reset c := rfl
  have hrxu : s.rxu = Rxu.reset := rfl
  rw [htxu, hrxu]
  exact ⟨rfl, rfl, rfl, rfl, rfl, rfl, Ring.read_nil, rfl, rfl, rfl, rfl, rfl, rfl, rfl, rfl, rfl, rfl, rfl, rfl, rfl,
    rfl⟩

theorem execReset_txu_idle {s : State} (hc : s.txu.control = .idle) : execReset .txu s = .next (resetTxu s) := by
  simp [execReset, hc]

theorem execReset_rxu_idle {s : State} (hc : s.rxu.control = .idle) : execReset .rxu s = .next (resetRxu s) := by
  simp [execReset, hc]

theorem execReset_system_idle {s : State} (ht : s.txu.control = .idle) (hr : s.rxu.control = .idle) :
    execReset .system s = .next (resetSystem s) := by
  simp [execReset, ht, hr]

/-- Settles O52: an IDLE unit is reset whatever the other one does; the joint reset keeps of the old state the parameters
and what is no hardware's. -/
theorem resetRestoresLaunchValues : Obligations.ResetRestoresLaunchValues := fun _ =>
  ⟨execReset_txu_idle, execReset_rxu_idle, execReset_system_idle⟩

end Sys2Proof.Machine
end
